-- ==== Sys2Proof/Word.lean ====
section
/-! DEFINITION. The widths of the block's words (spec/00_scope.md R7, R8). -/

namespace Sys2Proof

/-- A byte: 8 bits (R8). -/
abbrev Byte := BitVec 8

/-- A device register value: 16 bits (R7). -/
abbrev Half := BitVec 16

/-- A command word, a response word or an engine register word: 32 bits (R7). -/
abbrev Word := BitVec 32

/-- A control word, that is, a COND field: ACK, STOP, START, RUN in bits 3 to 0 (R70). -/
abbrev Ctl := BitVec 4

end Sys2Proof
end

