-- ==== Sys2Proof/Machine/Bus.lean ====
section
/-! DEFINITION. The bus alphabet: the events of `TRACE` (spec/30_encoding.md R73), the symbols the
slave is asked about (spec/20_memory.md R55), and what the slave does on the wires during one symbol
(R56), with the symbol-level answers read off it (R57). -/

namespace Sys2Proof.Machine

/-- A bus event, an element of `TRACE` (R73). An acknowledge bit is `false` for 0 (acknowledged). -/
inductive BusEvent where
  | start
  | repStart
  | stop
  | txByte (v : Byte) (a : Bool)
  | rxByte (v : Byte) (a : Bool)
  | txLost (v : Byte)
  deriving DecidableEq, Repr

/-- A symbol the engine is about to put on the bus: what the oracle of R55 is asked about. -/
inductive Symbol where
  | start
  | repStart
  | stop
  | tx (v : Byte)
  | rx
  deriving DecidableEq, Repr

/-- What the slave does around one release of SCL: how long it goes on holding SCL low (`none`: for
ever, R114), and its SDA output while SCL is high (`true`: released, R56). -/
structure Pulse where
  stretch : Option Nat
  sda : Bool
  deriving DecidableEq, Repr

/-- A slave that holds neither line. -/
def Pulse.released : Pulse := ⟨some 0, true⟩

/-- A slave that holds SDA low and does not stretch. -/
def Pulse.low : Pulse := ⟨some 0, false⟩

/-- A slave that never lets SCL rise. -/
def Pulse.stuck : Pulse := ⟨none, true⟩

/-- The slave's pulses during one symbol, first release of SCL first; a release beyond the list
meets a slave that holds neither line. -/
abbrev Wave := List Pulse

/-- The pulse that the next release of SCL meets. -/
def Wave.now (w : Wave) : Pulse := w.headD Pulse.released

/-- How a transmitted byte ends when it does not stall (R55). -/
inductive TxAns where
  | ack
  | nack
  | lost
  deriving DecidableEq, Repr

/-- The answer to `oracle.cond` that a wave amounts to (R57): does the condition proceed? -/
def Wave.proceeds (w : Wave) : Bool := w.now.stretch.isSome

/-- The answer to `oracle.tx` for the last `n` data cells of a byte, its next bit in bit 7, and the
acknowledge cell (R57); `none` is Stall. -/
def Wave.txCells : Nat → Byte → Wave → Option TxAns
  | 0, _, w => if w.now.stretch.isNone then none else some (if w.now.sda then .nack else .ack)
  | n + 1, v, w =>
    if w.now.stretch.isNone then none
    else if v.msb && !w.now.sda then some .lost
    else Wave.txCells n (v <<< 1) w.tail

/-- The answer to `oracle.tx(TRACE, v)` that a wave amounts to (R57); `none` is Stall. -/
def Wave.tx (w : Wave) (v : Byte) : Option TxAns := Wave.txCells 8 v w

/-- The answer to `oracle.rx` for the last `n` data cells, `v` holding the bits sampled so far, and
the acknowledge cell (R57); `none` is Stall. -/
def Wave.rxCells : Nat → Byte → Wave → Option Byte
  | 0, v, w => if w.now.stretch.isNone then none else some v
  | n + 1, v, w =>
    if w.now.stretch.isNone then none
    else Wave.rxCells n (v.shiftConcat w.now.sda) w.tail

/-- The answer to `oracle.rx(TRACE)` that a wave amounts to (R57); `none` is Stall. -/
def Wave.rx (w : Wave) : Option Byte := Wave.rxCells 8 0 w

/-- The wave of a slave that acknowledges a byte without stretching. -/
def Wave.acks : Wave := List.replicate 8 Pulse.released ++ [Pulse.low]

/-- The wave of a slave that leaves both lines alone: a condition proceeds, a transmitted byte is
not acknowledged, a received byte is 0xFF. -/
def Wave.quiet : Wave := []

/-- The wave of a slave that supplies the byte `v`, most significant bit first (R47). -/
def Wave.supplies (v : Byte) : Wave :=
  [⟨some 0, v.getLsbD 7⟩, ⟨some 0, v.getLsbD 6⟩, ⟨some 0, v.getLsbD 5⟩, ⟨some 0, v.getLsbD 4⟩,
   ⟨some 0, v.getLsbD 3⟩, ⟨some 0, v.getLsbD 2⟩, ⟨some 0, v.getLsbD 1⟩, ⟨some 0, v.getLsbD 0⟩]

end Sys2Proof.Machine
end

