-- ==== Sys2Proof/Config.lean ====
section
/-! DEFINITION. What an implementation fixes (spec/00_scope.md R7) and the free values. The
constants without a body are open: nothing in Lean can evaluate them. -/

namespace Sys2Proof.Config

/-- The target SCL frequency in hertz (R7). -/
def fSclHz : Nat := 100000

/-- `F_SYS_HZ`, less one: OPEN (R7), at least 1 Hz and at most 256 MHz (spec/40_engine.md R113). -/
opaque fSysIndex : Fin 256000000

/-- `F_SYS_HZ`, the system clock frequency in hertz: OPEN (R7). -/
def fSysHz : Nat := fSysIndex.val + 1

/-- `I2C_BASE`, the base of the engine register space: OPEN, no rule depends on it (R7). -/
opaque i2cBase : Nat

/-- `SENSOR_ADDR` (R7). -/
def sensorAddr : BitVec 7 := 0x18

/-- `REG_CONFIG` (R7). -/
def regConfig : Byte := 0x01

/-- `REG_TUPPER` (R7). -/
def regTUpper : Byte := 0x02

/-- `REG_TLOWER` (R7). -/
def regTLower : Byte := 0x03

/-- `REG_TAMBIENT` (R7). -/
def regTAmbient : Byte := 0x05

/-- The oracle of spec/20_memory.md R55 for a slave of which nothing is known: what it does during
the symbol it is asked about. It sees how many answers it has given, and the whole `TRACE`. -/
opaque slave : Nat → List Sys2Proof.Machine.BusEvent → Sys2Proof.Machine.Symbol → Sys2Proof.Machine.Wave

end Sys2Proof.Config
end

