-- ==== Sys2Proof/Syntax.lean ====
section
/-! DEFINITION. The instructions: the eight commands of spec/30_encoding.md R64 and the sixteen
control words of R70, one constructor for each row of spec/opcode_table.json. -/

namespace Sys2Proof

/-- The source's TransferDirection, an "enum {Write, Read}" (R16). -/
inductive Direction where
  | write
  | read
  deriving DecidableEq, Repr

/-- The direction bit: 0 is Write, 1 is Read (R16, R66). -/
def Direction.toBit : Direction → Bool
  | .write => false
  | .read => true

/-- An instruction. The commands run through the command port; a control word is one control
write, `MemWrite(0x004, 4, v)`, given to the engine directly (R85, R86, R117). -/
inductive Instr where
  /-- `INIT` (R120). -/
  | init
  /-- `SET_DIR` (R121). -/
  | setDir (d : Direction)
  /-- `SET_ADDR` (R122): the whole `A` field; `A[7]` must be 0 (R66). -/
  | setAddr (a : Byte)
  /-- `SEND_BYTE d, c` (R123). -/
  | sendByte (d : Byte) (c : Ctl)
  /-- `RECV_BYTE c` (R124). -/
  | recvByte (c : Ctl)
  /-- `READ_REG r` (R132). -/
  | readReg (r : Byte)
  /-- `WRITE_REG16 r, v` (R133). -/
  | writeReg16 (r : Byte) (v : Half)
  /-- `DECODE_TEMP v` (R134). -/
  | decodeTemp (v : Half)
  /-- Control word 0x0 (R91). -/
  | ctlNone
  /-- Control word 0x1 (R92). -/
  | ctlRun
  /-- Control word 0x2 (R93). -/
  | ctlStart
  /-- Control word 0x3 (R94). -/
  | ctlStartRun
  /-- Control word 0x4 (R95). -/
  | ctlStop
  /-- Control word 0x5 (R96). -/
  | ctlStopRun
  /-- Control word 0x6 (R97). -/
  | ctlStopStart
  /-- Control word 0x7 (R98). -/
  | ctlStopStartRun
  /-- Control word 0x8 (R99). -/
  | ctlAck
  /-- Control word 0x9 (R100). -/
  | ctlAckRun
  /-- Control word 0xA (R101). -/
  | ctlAckStart
  /-- Control word 0xB (R102). -/
  | ctlAckStartRun
  /-- Control word 0xC (R103). -/
  | ctlAckStop
  /-- Control word 0xD (R104). -/
  | ctlAckStopRun
  /-- Control word 0xE (R105). -/
  | ctlAckStopStart
  /-- Control word 0xF (R106). -/
  | ctlAckStopStartRun
  deriving DecidableEq, Repr

end Sys2Proof
end

