-- ==== Sys2Proof/WellFormed.lean ====
section
/-! DEFINITION. Which instructions are well formed (spec/30_encoding.md R66). Every other operand
range is the range of its type. -/

namespace Sys2Proof

/-- A slave address operand is 7 bits wide: `A[7]` is 0 (R66, R76 case 2, R122). -/
def addrOperandOk (a : Byte) : Bool := !a.getLsbD 7

/-- The checks of R76 case 2 that the operand types do not already make. -/
def Instr.wf : Instr → Bool
  | .setAddr a => addrOperandOk a
  | .init => true
  | .setDir _ => true
  | .sendByte _ _ => true
  | .recvByte _ => true
  | .readReg _ => true
  | .writeReg16 _ _ => true
  | .decodeTemp _ => true
  | .ctlNone => true
  | .ctlRun => true
  | .ctlStart => true
  | .ctlStartRun => true
  | .ctlStop => true
  | .ctlStopRun => true
  | .ctlStopStart => true
  | .ctlStopStartRun => true
  | .ctlAck => true
  | .ctlAckRun => true
  | .ctlAckStart => true
  | .ctlAckStartRun => true
  | .ctlAckStop => true
  | .ctlAckStopRun => true
  | .ctlAckStopStart => true
  | .ctlAckStopStartRun => true

end Sys2Proof
end

