-- ==== Sys2Proof/Decode.lean ====
section
/-! DEFINITION. The decoder and the encoder of command words and control words
(spec/30_encoding.md R63 to R67, R70, R76, R83). -/

namespace Sys2Proof

/-- What the host puts at the block: a 32-bit command word (R63), or a value written to the control
register, of which bits [31:4] are ignored (R17). -/
inductive PortWord where
  | command (w : Word)
  | control (v : Word)
  deriving DecidableEq, Repr

/-- Why a command word is not a command, in the order in which R76 tests (cases 1 and 2). -/
inductive DecodeError where
  /-- Case 1: `OP` is no operation code. -/
  | badOp (op : BitVec 4)
  /-- Case 2: `COND` is not 0 for an operation that does not use it. -/
  | condNotZero
  /-- Case 2: a bit of `A` that the operation does not use is not 0. -/
  | operandANotZero
  /-- Case 2: `V` is not 0 for an operation that does not use it. -/
  | operandVNotZero
  deriving DecidableEq, Repr

/-- `OP = w[31:28]` (R63). -/
def opField (w : Word) : BitVec 4 := w.extractLsb' 28 4

/-- `COND = w[27:24]` (R63). -/
def condField (w : Word) : Ctl := w.extractLsb' 24 4

/-- `A = w[23:16]` (R63). -/
def aField (w : Word) : Byte := w.extractLsb' 16 8

/-- `V = w[15:0]` (R63). -/
def vField (w : Word) : Half := w.extractLsb' 0 16

/-- Refuse with `e` unless `ok`. -/
def require (ok : Bool) (e : DecodeError) (k : Except DecodeError Instr) : Except DecodeError Instr :=
  if ok then k else .error e

/-- The command a command word stands for, or which test of R76 refuses it (R83). -/
def decodeCommand (w : Word) : Except DecodeError Instr :=
  let cond0 := require (condField w == 0) .condNotZero
  let a0 := require (aField w == 0) .operandANotZero
  let v0 := require (vField w == 0) .operandVNotZero
  if opField w = 0x1 then cond0 (a0 (v0 (.ok .init)))
  else if opField w = 0x2 then
    cond0 (require (aField w == 0 || aField w == 1) .operandANotZero
      (v0 (.ok (.setDir (if aField w = 1 then .read else .write)))))
  else if opField w = 0x3 then
    cond0 (require (addrOperandOk (aField w)) .operandANotZero (v0 (.ok (.setAddr (aField w)))))
  else if opField w = 0x4 then v0 (.ok (.sendByte (aField w) (condField w)))
  else if opField w = 0x5 then a0 (v0 (.ok (.recvByte (condField w))))
  else if opField w = 0x8 then cond0 (v0 (.ok (.readReg (aField w))))
  else if opField w = 0x9 then cond0 (.ok (.writeReg16 (aField w) (vField w)))
  else if opField w = 0xA then cond0 (a0 (.ok (.decodeTemp (vField w))))
  else .error (.badOp (opField w))

/-- The control word written by a value: `CTL <- v[3:0]`; the bits are ACK, STOP, START, RUN (R17,
R70). All sixteen values have a behaviour (R77). -/
def decodeControl (v : Word) : Instr :=
  match v.getLsbD 3, v.getLsbD 2, v.getLsbD 1, v.getLsbD 0 with
  | false, false, false, false => .ctlNone
  | false, false, false, true => .ctlRun
  | false, false, true, false => .ctlStart
  | false, false, true, true => .ctlStartRun
  | false, true, false, false => .ctlStop
  | false, true, false, true => .ctlStopRun
  | false, true, true, false => .ctlStopStart
  | false, true, true, true => .ctlStopStartRun
  | true, false, false, false => .ctlAck
  | true, false, false, true => .ctlAckRun
  | true, false, true, false => .ctlAckStart
  | true, false, true, true => .ctlAckStartRun
  | true, true, false, false => .ctlAckStop
  | true, true, false, true => .ctlAckStopRun
  | true, true, true, false => .ctlAckStopStart
  | true, true, true, true => .ctlAckStopStartRun

/-- The instruction at the port, total on every word. -/
def decode : PortWord → Except DecodeError Instr
  | .command w => decodeCommand w
  | .control v => .ok (decodeControl v)

/-- A command word from its four fields (R63). -/
def commandWord (op : BitVec 4) (cond : Ctl) (a : Byte) (v : Half) : Word :=
  op.setWidth 32 <<< 28 ||| cond.setWidth 32 <<< 24 ||| a.setWidth 32 <<< 16 ||| v.setWidth 32

/-- The word of an instruction, from the tables of R64 to R67 and R70. -/
def encode : Instr → PortWord
  | .init => .command (commandWord 0x1 0 0 0)
  | .setDir d => .command (commandWord 0x2 0 (if d.toBit then 1 else 0) 0)
  | .setAddr a => .command (commandWord 0x3 0 a 0)
  | .sendByte d c => .command (commandWord 0x4 c d 0)
  | .recvByte c => .command (commandWord 0x5 c 0 0)
  | .readReg r => .command (commandWord 0x8 0 r 0)
  | .writeReg16 r v => .command (commandWord 0x9 0 r v)
  | .decodeTemp v => .command (commandWord 0xA 0 0 v)
  | .ctlNone => .control 0x0
  | .ctlRun => .control 0x1
  | .ctlStart => .control 0x2
  | .ctlStartRun => .control 0x3
  | .ctlStop => .control 0x4
  | .ctlStopRun => .control 0x5
  | .ctlStopStart => .control 0x6
  | .ctlStopStartRun => .control 0x7
  | .ctlAck => .control 0x8
  | .ctlAckRun => .control 0x9
  | .ctlAckStart => .control 0xA
  | .ctlAckStartRun => .control 0xB
  | .ctlAckStop => .control 0xC
  | .ctlAckStopRun => .control 0xD
  | .ctlAckStopStart => .control 0xE
  | .ctlAckStopStartRun => .control 0xF

/-- What the port carries for an instruction of `nbits` bits in the numbering of
spec/opcode_table.json: the rows of format CMD32 have 32 bits, those of format CTL4 have 4, which is
one byte. -/
def tableWord (nbits w : Nat) : Option PortWord :=
  if nbits = 32 then some (.command (BitVec.ofNat 32 w))
  else if nbits = 8 ∨ nbits = 4 then some (.control (BitVec.ofNat 32 w))
  else none

/-- The instruction that the decoder reads from a word of the opcode table. -/
def decodeTableWord (nbits w : Nat) : Option Instr :=
  match tableWord nbits w with
  | some p =>
    match decode p with
    | .ok i => some i
    | .error _ => none
  | none => none

end Sys2Proof
end

