-- ==== Sys2Proof/Machine/State.lean ====
section
/-! DEFINITION. The machine's state (spec/10_state.md R13), its value after reset
(spec/70_reset_and_hazards.md R168), and the reasons a step can stop. -/

namespace Sys2Proof.Machine

/-- `OWN`, bus ownership (R27). -/
inductive Own where
  /-- `IDLE`: no Start since reset, the last Stop or the last arbitration loss. -/
  | idle
  /-- `OWN_TX`: the bus is owned and the last address byte had `RS = 0`. -/
  | tx
  /-- `OWN_RX`: the bus is owned and the last address byte had `RS = 1`. -/
  | rx
  deriving DecidableEq, Repr

/-- `SEQ`, the sequencer's state (R30). -/
inductive SeqState where
  | idle
  | addressWritten
  | directionSwitched
  | msbReceived
  | lsbReceived
  | wAddressWritten
  | wMsbSent
  | wLsbSent
  deriving DecidableEq, Repr

/-- The engine's line-level state: the shift register and cell counter (R28), the divider counters
(R29) and the line drivers (R37), where `true` is 1, a released line. -/
structure Line where
  shift : Byte
  bitcnt : BitVec 4
  psc : BitVec 8
  tickcnt : BitVec 4
  sclO : Bool
  sdaO : Bool
  deriving DecidableEq, Repr

/-- The reference sensor's selection state `SEL` (spec/20_memory.md R58). -/
inductive Sel where
  | none
  | await
  | wr (n : Nat)
  | rd (n : Nat)
  deriving DecidableEq, Repr

/-- The reference sensor, a test fixture (R58): its four registers, `PTR`, `SEL` and `WHI`. -/
structure Sensor where
  config : Half
  tUpper : Half
  tLower : Half
  tAmbient : Half
  ptr : Byte
  sel : Sel
  whi : Byte
  deriving DecidableEq, Repr

/-- The bus environment of R55 and R56 as plain data. -/
inductive Slave where
  /-- A slave of which nothing is known: its answers are `Config.slave`. -/
  | unknown
  /-- A slave that answers the coming symbols with these waves, one a symbol, and after them is
  unknown. -/
  | scripted (ws : List Wave)
  /-- The reference sensor of R58 to R61. -/
  | sensor (r : Sensor)
  deriving DecidableEq, Repr

/-- What the input ports carry at one step. -/
inductive PortInput where
  /-- `cmd_valid = 0` and `rst = 0`. -/
  | idle
  /-- `rst = 1` (R167), whatever the other inputs carry. -/
  | rst
  /-- A command word with `cmd_valid = 1` (R14), or a control write to the engine (R86). -/
  | word (p : PortWord)
  deriving DecidableEq, Repr

/-- The state of the block (R13) and, last, what the model adds to it. A flag is `true` for 1. -/
structure State where
  /-- `MSA` (R16). -/
  msa : Byte
  /-- `CTL` (R17). -/
  ctl : Ctl
  /-- `BUSY` (R19). -/
  busy : Bool
  /-- `ERROR` (R20). -/
  error : Bool
  /-- `ADRACK` (R21). -/
  adrack : Bool
  /-- `DATACK` (R22). -/
  datack : Bool
  /-- `MDR_TX` (R23). -/
  mdrTx : Byte
  /-- `MDR_RX` (R24). -/
  mdrRx : Byte
  /-- `TPR` (R25). -/
  tpr : BitVec 7
  /-- `MFE` (R26). -/
  mfe : Bool
  /-- `OWN` (R27). -/
  own : Own
  /-- `SHIFT`, `BITCNT`, `PSC`, `TICKCNT`, `scl_o`, `sda_o` (R28, R29, R37). -/
  line : Line
  /-- `SEQ` (R30). -/
  seq : SeqState
  /-- `REGA` (R31). -/
  rega : Byte
  /-- `VAL` (R31). -/
  val : Half
  /-- `HI` (R31). -/
  hi : Byte
  /-- `LO` (R31). -/
  lo : Byte
  /-- `TFLAGS` (R32). -/
  tflags : BitVec 3
  /-- `EXEC` (R33). -/
  executing : Bool
  /-- `RSP` (R33). -/
  rsp : Word
  /-- `rsp_valid` (R33). -/
  rspValid : Bool
  /-- `TRACE`, oldest event first (R36). -/
  trace : List BusEvent
  /-- The model's own: has `SET_ADDR` run since reset (R40)? No instruction reads it. -/
  addrSet : Bool
  /-- The model's own: the bus environment (R55). -/
  slave : Slave
  /-- The model's own: how many answers `Config.slave` has given. -/
  asks : Nat
  /-- The model's own: what the input ports carry at the coming steps. -/
  inputs : List PortInput
  deriving DecidableEq, Repr

/-- The reasons a step can fault: none. Every error of the spec is a response word and every hang a
state of the machine (R147, R157, R160), so nothing raises a fault, and the type says so. -/
inductive Fault : Type
  deriving DecidableEq, Repr

/-- The reasons a step can be refused. -/
inductive Refusal where
  /-- Raised by an arm of `exec` whose instruction has no meaning yet; safe. No arm does. -/
  | notModelled (mnemonic : String)
  /-- Raised by a control write while `BUSY = 1`, for which spec/40_engine.md R85 defines nothing
  (93 U19); safe. -/
  | controlWriteWhileBusy
  deriving DecidableEq, Repr

/-- The line-level state after reset: both lines released, counters 0 (R168). -/
def Line.reset : Line :=
  { shift := 0, bitcnt := 0, psc := 0, tickcnt := 0, sclO := true, sdaO := true }

/-- The machine right after reset (R168), the model's own fields at the values of log 1, 6 and 7. -/
def State.reset : State :=
  { msa := 0, ctl := 0, busy := false, error := false, adrack := false, datack := false,
    mdrTx := 0, mdrRx := 0, tpr := 0, mfe := false, own := .idle, line := Line.reset,
    seq := .idle, rega := 0, val := 0, hi := 0, lo := 0, tflags := 0, executing := false,
    rsp := 0, rspValid := false, trace := [], addrSet := false, slave := .unknown, asks := 0,
    inputs := [] }

end Sys2Proof.Machine
end

