-- ==== Sys2Proof/Machine/Operands.lean ====
section
/-! DEFINITION. The operand fields and the arithmetic of the instructions: the condition bits
(spec/30_encoding.md R70), the address register's fields (R72), the divider value
(spec/40_engine.md R113) and the temperature decode (spec/42_sequencer.md R134 to R138). -/

namespace Sys2Proof.Machine

/-- `RUN`, bit 0 of a control word (R70). -/
def ctlRunBit (c : Ctl) : Bool := c.getLsbD 0

/-- `START`, bit 1 of a control word (R70). -/
def ctlStartBit (c : Ctl) : Bool := c.getLsbD 1

/-- `STOP`, bit 2 of a control word (R70). -/
def ctlStopBit (c : Ctl) : Bool := c.getLsbD 2

/-- `ACK`, bit 3 of a control word (R70). -/
def ctlAckBit (c : Ctl) : Bool := c.getLsbD 3

/-- `MSA.SA`, the 7-bit slave address (R16, R72). -/
def msaAddr (m : Byte) : BitVec 7 := m.extractLsb' 1 7

/-- `MSA.RS`, the direction bit (R16, R72). -/
def msaRead (m : Byte) : Bool := m.getLsbD 0

/-- SET_DIR's merge, `(m & 0xFE) | d` (spec/41_byte_transfer.md R121). -/
def mergeDir (m : Byte) (d : Bool) : Byte := m &&& 0xFE ||| (if d then 0x01 else 0x00)

/-- SET_ADDR's merge, `(a << 1) | (m & 0x01)` (R122). -/
def mergeAddr (m a : Byte) : Byte := a <<< 1 ||| m &&& 0x01

/-- The quotient of two naturals, rounded up. -/
def ceilDiv (a b : Nat) : Nat := a / b + if a % b = 0 then 0 else 1

/-- `TPR_INIT = max(0, ceil(F / (20 * F_SCL_HZ)) - 1)` for a system clock of `f` hertz (R7, R113);
the subtraction of naturals stops at 0. -/
def tprInit (f : Nat) : Nat := ceilDiv f (20 * Config.fSclHz) - 1

/-- The value INIT programs, for the system clock of this implementation (R25). -/
def tprInitValue : BitVec 7 := BitVec.ofNat 7 (tprInit Config.fSysHz)

/-- DECODE_TEMP step 1: the three alert flags `raw[15:13]` (R134, R135). -/
def alertFlags (raw : Half) : BitVec 3 := raw.extractLsb' 13 3

/-- DECODE_TEMP step 2: `sext_13(raw[12:0])`, sixteenths of a degree Celsius (R134, R136). -/
def sixteenths (raw : Half) : Int := (raw.extractLsb' 0 13).toInt

/-- `RoundHalfAway(n / 80)`: the nearest integer, a tie going away from zero (R137, R138). -/
def roundHalfAway80 (n : Int) : Int :=
  if 0 ≤ n then (n + 40) / 80 else -((-n + 40) / 80)

/-- Degrees Fahrenheit from sixteenths of a degree Celsius (R137, R138). -/
def fahrenheit (m : Int) : Int := roundHalfAway80 (9 * m + 2560)

/-- DECODE_TEMP's result as a 16-bit two's complement number (R138). -/
def tempData (raw : Half) : Half := BitVec.ofInt 16 (fahrenheit (sixteenths raw))

/-- A 16-bit register value from its two bytes, most significant first (R46). -/
def regValue (hi lo : Byte) : Half := hi.setWidth 16 <<< 8 ||| lo.setWidth 16

/-- `VAL[15:8]`, the byte that is sent first (R46, R67). -/
def hiByte (v : Half) : Byte := v.extractLsb' 8 8

/-- `VAL[7:0]` (R46, R67). -/
def loByte (v : Half) : Byte := v.extractLsb' 0 8

end Sys2Proof.Machine
end

