-- ==== Sys2Proof/Machine/Flags.lean ====
section
/-! DEFINITION. The status flags and the words made of them: the status word (spec/10_state.md R18),
the error flag set (spec/41_byte_transfer.md R126), its classes (spec/60_exceptions.md R151), and the
flag settings of the engine (spec/40_engine.md R86 to R88, R115). -/

namespace Sys2Proof.Machine

/-- The status word `{28'b0, DATACK, ADRACK, ERROR, BUSY}` (R18, R71). -/
def statusWord (s : State) : Word :=
  (BitVec.ofBool s.datack).setWidth 32 <<< 3 ||| (BitVec.ofBool s.adrack).setWidth 32 <<< 2 |||
    (BitVec.ofBool s.error).setWidth 32 <<< 1 ||| (BitVec.ofBool s.busy).setWidth 32

/-- `BUSY` as read from the status word (R71). -/
def statusBusy (w : Word) : Bool := w.getLsbD 0

/-- `f = status[3:1] = {DATACK, ADRACK, ERROR}` (R69, R126). -/
def statusErrors (w : Word) : BitVec 3 := w.extractLsb' 1 3

/-- The error mask over the status word (R71). -/
def errMask : Word := 0x0000000E

/-- The three classes of BusError (R147). -/
inductive ErrorClass where
  | addressNotAcknowledged
  | dataNotAcknowledged
  | otherBusError
  deriving DecidableEq, Repr

/-- The class of a nonzero flag set (R151); the block never classifies, its host does. -/
def classify (f : BitVec 3) : ErrorClass :=
  if f.getLsbD 1 then .addressNotAcknowledged
  else if f.getLsbD 2 then .dataNotAcknowledged
  else .otherBusError

/-- The flags at the start of an operation that runs a byte: `BUSY` set, the errors cleared, the
divider restarted (R20, R29, R86 step 5). -/
def State.startByteOp (s : State) : State :=
  { s with busy := true, error := false, adrack := false, datack := false,
           line := { s.line with psc := 0, tickcnt := 0 } }

/-- The flags at the start of a Stop alone: `BUSY` set, the errors kept (R86 step 4, R29). -/
def State.startStopOp (s : State) : State :=
  { s with busy := true, line := { s.line with psc := 0, tickcnt := 0 } }

/-- The address byte was not acknowledged (R21, R87). -/
def State.addressNack (s : State) : State := { s with error := true, adrack := true }

/-- A transmitted data byte was not acknowledged (R22, R88). -/
def State.dataNack (s : State) : State := { s with error := true, datack := true }

end Sys2Proof.Machine
end

