-- ==== Sys2Proof/Machine/Sensor.lean ====
section
/-! DEFINITION. The reference sensor (spec/20_memory.md R58 to R61): a test fixture, not part of the
block and not the real device. -/

namespace Sys2Proof.Machine

/-- The fixture as a test starts it, with the contents of `REGS` that the test chooses: `PTR = 0x00` and
`SEL = None` (R58). DESIGN CHOICE (log 14): R58 gives `WHI` no initial value; it is 0 here, and no rule
reads it before it is written. -/
def Sensor.initial (config tUpper tLower tAmbient : Half) : Sensor :=
  { config := config, tUpper := tUpper, tLower := tLower, tAmbient := tAmbient, ptr := 0x00,
    sel := .none, whi := 0x00 }

/-- `REGS[a]`, where the map has `a` (R58). -/
def Sensor.reg (r : Sensor) (a : Byte) : Option Half :=
  if a = Config.regConfig then some r.config
  else if a = Config.regTUpper then some r.tUpper
  else if a = Config.regTLower then some r.tLower
  else if a = Config.regTAmbient then some r.tAmbient
  else none

/-- `REGS[a] <- v` for the three registers that take a write; any other write is dropped (R59). -/
def Sensor.setReg (r : Sensor) (a : Byte) (v : Half) : Sensor :=
  if a = Config.regConfig then { r with config := v }
  else if a = Config.regTUpper then { r with tUpper := v }
  else if a = Config.regTLower then { r with tLower := v }
  else r

/-- Does the fixture acknowledge a transmitted byte (R59)? -/
def Sensor.acksByte (r : Sensor) (v : Byte) : Bool :=
  match r.sel with
  | .await => msaAddr v == Config.sensorAddr
  | .wr _ => true
  | .none => false
  | .rd _ => false

/-- The byte the fixture supplies to a receive (R60). -/
def Sensor.supply (r : Sensor) : Byte :=
  match r.sel with
  | .rd 0 => ((r.reg r.ptr).map hiByte).getD 0
  | .rd 1 => ((r.reg r.ptr).map loByte).getD 0
  | _ => 0xFF

/-- What the fixture does on the wires during a symbol: it never stretches and never loses a bit
(R58). -/
def Sensor.wave (r : Sensor) : Symbol → Wave
  | .tx v => if r.acksByte v then Wave.acks else Wave.quiet
  | .rx => Wave.supplies r.supply
  | .start => Wave.quiet
  | .repStart => Wave.quiet
  | .stop => Wave.quiet

/-- The fixture after a transmitted byte (R59). -/
def Sensor.afterTx (r : Sensor) (v : Byte) : Sensor :=
  match r.sel with
  | .await =>
    if msaAddr v = Config.sensorAddr then
      { r with sel := if msaRead v then .rd 0 else .wr 0 }
    else { r with sel := .none }
  | .wr 0 => { r with ptr := v, sel := .wr 1 }
  | .wr 1 => { r with whi := v, sel := .wr 2 }
  | .wr 2 => { r.setReg r.ptr (regValue r.whi v) with sel := .wr 3 }
  | _ => r

/-- The fixture after a received byte (R60). -/
def Sensor.afterRx (r : Sensor) : Sensor :=
  match r.sel with
  | .rd 0 => { r with sel := .rd 1 }
  | .rd 1 => { r with sel := .rd 2 }
  | _ => r

/-- The fixture after a symbol (R59, R60). -/
def Sensor.after (r : Sensor) : Symbol → Sensor
  | .start => { r with sel := .await }
  | .repStart => { r with sel := .await }
  | .stop => { r with sel := .none }
  | .tx v => r.afterTx v
  | .rx => r.afterRx

end Sys2Proof.Machine
end

