-- ==== Sys2Proof/Machine/Ops.lean ====
section
/-! DEFINITION. The operations the instructions share: asking the bus environment
(spec/20_memory.md R55), the engine register space (R42), the waits and the error test
(spec/41_byte_transfer.md R125, R126), taking a BusError (spec/60_exceptions.md R154), and the
command port (spec/10_state.md R14, R33). -/

namespace Sys2Proof.Machine

/-- One step's answer. -/
abbrev StepResult := Host.Outcome State Fault Refusal

/-! ### Results of the units -/

/-- The result of a piece of an engine operation: it ends, or it stalls in a state (R114). -/
inductive Res (σ α : Type) where
  | done (a : α) (s : σ)
  | stall (s : σ)
  deriving DecidableEq, Repr

/-- Go on with `k` unless `m` stalls. -/
def Res.bind {σ α β : Type} (m : Res σ α) (k : α → σ → Res σ β) : Res σ β :=
  match m with
  | .done a s => k a s
  | .stall s => .stall s

/-- The state a piece of an engine operation leaves. -/
def Res.state {σ α : Type} : Res σ α → σ
  | .done _ s => s
  | .stall s => s

/-- The result of a piece of a command: it ends, it hangs for ever in a state (R160), or the spec
defines nothing for it. -/
inductive Run (α : Type) where
  | done (a : α) (s : State)
  | hang (s : State)
  | undef (r : Refusal)
  deriving DecidableEq, Repr

/-- Go on with `k` unless `m` hangs or is undefined. -/
def Run.bind {α β : Type} (m : Run α) (k : α → State → Run β) : Run β :=
  match m with
  | .done a s => k a s
  | .hang s => .hang s
  | .undef r => .undef r

/-- The result of a byte transfer or a sequence: `Ok(a)`, or `Err(f)` with the flag set and nothing
else (R10, R158). -/
inductive Xfer (α : Type) where
  | ok (a : α)
  | err (f : BitVec 3)
  deriving DecidableEq, Repr

/-- The abstract response of a command (R10, R68). -/
inductive Response where
  | ok (tflags : BitVec 3) (data : Half)
  | err (f : BitVec 3)
  | ill
  deriving DecidableEq, Repr

/-- The response word (R68). -/
def Response.word : Response → Word
  | .ok tf d => tf.setWidth 32 <<< 16 ||| d.setWidth 32
  | .err f => 0x80000000 ||| f.setWidth 32 <<< 24
  | .ill => 0x40000000

/-- `Ok` with no data, or `Err` (R68). -/
def Xfer.response : Xfer Unit → Response
  | .ok _ => .ok 0 0
  | .err f => .err f

/-- `Ok(b)` of a byte, or `Err` (R68). -/
def Xfer.byteResponse : Xfer Byte → Response
  | .ok b => .ok 0 (b.setWidth 16)
  | .err f => .err f

/-- `Ok(d)`, or `Err` (R68). -/
def Xfer.dataResponse : Xfer Half → Response
  | .ok d => .ok 0 d
  | .err f => .err f

/-! ### The bus environment -/

/-- What the slave does during the symbol it is now asked about (R55). -/
def State.wave (σ : Symbol) (s : State) : Wave :=
  match s.slave with
  | .scripted (w :: _) => w
  | .sensor r => r.wave σ
  | .scripted [] => Config.slave s.asks s.trace σ
  | .unknown => Config.slave s.asks s.trace σ

/-- The bus environment after the symbol it has been asked about (R55: "asked once per bus
symbol"). -/
def State.asked (σ : Symbol) (s : State) : State :=
  match s.slave with
  | .scripted (_ :: ws) => { s with slave := .scripted ws }
  | .sensor r => { s with slave := .sensor (r.after σ) }
  | .scripted [] => { s with asks := s.asks + 1 }
  | .unknown => { s with asks := s.asks + 1 }

/-- `emit e`: append a bus event to `TRACE` (R9, R36). -/
def State.emit (e : BusEvent) (s : State) : State := { s with trace := s.trace ++ [e] }

/-! ### The engine register space -/

/-- The engine registers, the five offsets of R42; no other offset is implemented (R43). -/
inductive EngReg where
  | msa
  | mcs
  | mdr
  | tpr
  | mfe
  deriving DecidableEq, Repr

/-- A register's byte offset from `I2C_BASE` (R42). -/
def EngReg.offset : EngReg → Nat
  | .msa => 0x000
  | .mcs => 0x004
  | .mdr => 0x008
  | .tpr => 0x00C
  | .mfe => 0x020

/-- A register's address; no rule depends on it (R7). -/
def EngReg.address (r : EngReg) : Nat := Config.i2cBase + r.offset

/-- `MemRead(off, 4)`; reading changes nothing (R42, R51). -/
def memRead (r : EngReg) (s : State) : Word :=
  match r with
  | .msa => s.msa.setWidth 32
  | .mcs => statusWord s
  | .mdr => s.mdrRx.setWidth 32
  | .tpr => s.tpr.setWidth 32
  | .mfe => (BitVec.ofBool s.mfe).setWidth 32 <<< 4

/-- What an engine does with a control write accepted while `BUSY = 0`: the state it leaves, with
`BUSY = 1` if the operation never ends (R86). The units above it take any engine (C6, U16). -/
abbrev Engine := Ctl → State → State

/-- `MSA <- v[7:0]` (R42). -/
def State.writeMsa (v : Word) (s : State) : State := { s with msa := v.setWidth 8 }

/-- `MDR_TX <- v[7:0]` (R42). -/
def State.writeMdr (v : Word) (s : State) : State := { s with mdrTx := v.setWidth 8 }

/-- `TPR <- v[6:0]` (R42). -/
def State.writeTpr (v : Word) (s : State) : State := { s with tpr := v.setWidth 7 }

/-- `MFE <- v[4]` (R42). -/
def State.writeMfe (v : Word) (s : State) : State := { s with mfe := v.getLsbD 4 }

/-- The control write `MemWrite(0x004, 4, v)`: bits [3:0] go to the engine (R17, R86). While
`BUSY = 1` its behaviour is "not reachable and not defined" (R85). -/
def controlWrite (eng : Engine) (v : Word) (s : State) : Run Unit :=
  if s.busy then .undef .controlWriteWhileBusy else .done () (eng (v.setWidth 4) s)

/-- `MemWrite(off, 4, v)` (R42). -/
def memWrite (eng : Engine) (r : EngReg) (v : Word) (s : State) : Run Unit :=
  match r with
  | .msa => .done () (s.writeMsa v)
  | .mcs => controlWrite eng v s
  | .mdr => .done () (s.writeMdr v)
  | .tpr => .done () (s.writeTpr v)
  | .mfe => .done () (s.writeMfe v)

/-! ### Waiting, and taking a BusError -/

/-- `WaitNotBusy()`: "wait until MemRead(0x004, 4)[0] = 0". Nothing but the engine clears `BUSY`, so
a `BUSY` that is still 1 never clears (R125, R160). -/
def waitNotBusy (s : State) : Run Unit :=
  if statusBusy (memRead .mcs s) then .hang s else .done () s

/-- `ForcedStop()`: the control write 0x4, then the wait (R127). -/
def forcedStop (eng : Engine) (s : State) : Run Unit :=
  (memWrite eng .mcs 0x4 s).bind fun _ s => waitNotBusy s

/-- TAKING A BusError, the one exception (R147): keep `f`, force a Stop, wait, and end the operation
with `Err(f)` (R154). There is no return from one (R156). -/
def raiseBusError (eng : Engine) {α : Type} (f : BitVec 3) (s : State) : Run (Xfer α) :=
  (forcedStop eng s).bind fun _ s => .done (.err f) s

/-- The error test that ends every byte transfer: `f = status[3:1]`; the transfer failed exactly
when `f` is not 0 (R126). -/
def errorTest (eng : Engine) {α : Type} (k : State → Run (Xfer α)) (s : State) : Run (Xfer α) :=
  let f := statusErrors (memRead .mcs s)
  if f = 0 then k s else raiseBusError eng f s

/-- A control write, the wait and the error test: the middle of SEND_BYTE and RECV_BYTE (R123,
R124). -/
def transfer (eng : Engine) {α : Type} (c : Ctl) (k : State → Run (Xfer α)) (s : State) :
    Run (Xfer α) :=
  (memWrite eng .mcs (c.setWidth 32) s).bind fun _ s =>
    (waitNotBusy s).bind fun _ s => errorTest eng k s

/-! ### The command port -/

/-- `cmd_ready = 1` exactly when `EXEC = 0` (R14). -/
def State.cmdReady (s : State) : Bool := !s.executing

/-- Acceptance: `EXEC <- 1`, `rsp_valid <- 0` (R14). -/
def State.accept (s : State) : State := { s with executing := true, rspValid := false }

/-- The end of a command: `RSP` written, `rsp_valid <- 1`, `EXEC <- 0` (R14, R33). -/
def State.respond (r : Response) (s : State) : State :=
  { s with executing := false, rsp := r.word, rspValid := true }

/-- A unit's result as a step's answer. A hang is a state: `EXEC` stays 1 (R160). -/
def Run.respond : Run Response → StepResult
  | .done r s => .next (s.respond r)
  | .hang s => .next s
  | .undef r => .refused r

/-- `Ill`: accepted and ended at once, nothing else changed (R157). -/
def State.refuse (s : State) : State := s.accept.respond .ill

/-- A command at the port: not accepted while `EXEC = 1` (R14, R177); refused with `Ill` unless `ok`
(R76 cases 3 and 4, R157); run to its end otherwise. DESIGN CHOICE (log 22): acceptance looks at `EXEC`
alone, so after a control word given directly has hung (`BUSY = 1`, `EXEC = 0`) a command is accepted
still; one that makes no control write then ends with its usual response. -/
def command (ok : State → Bool) (body : State → Run Response) (s : State) : StepResult :=
  if s.cmdReady then
    if ok s then (body s.accept).respond else .next s.refuse
  else .next s

/-- A command word that is no command (R76 cases 1 and 2). -/
def illegalCommand (s : State) : StepResult :=
  if s.cmdReady then .next s.refuse else .next s

/-- R76 case 3: the bus commands need `MFE = 1`. -/
def busEnabled (s : State) : Bool := s.mfe

/-- `rst = 1` at a clock edge (R167 to R169): the reset state, no Stop, the command in progress lost.
The environment is not the block's and keeps its state (log 9). -/
def State.resetBlock (rest : List PortInput) (s : State) : State :=
  { State.reset with slave := s.slave, asks := s.asks, inputs := rest }

end Sys2Proof.Machine
end

