-- ==== Sys2Proof/Machine/LineLevel.lean ====
section
/-! DEFINITION. The line level of the engine: the lettered steps of Start, repeated Start, Stop and
the bit cell (spec/40_engine.md R109 to R112), the byte symbols made of nine cells (R107, R108), and
the clock divider (R113). -/

namespace Sys2Proof.Machine

/-- One lettered step of R109 to R112: drive the lines, perhaps wait until SCL is high, perhaps
sample SDA, then wait some ticks. -/
structure LineStep where
  sda : Option Bool := none
  scl : Option Bool := none
  waitHigh : Bool := false
  sample : Bool := false
  ticks : Nat := 0
  deriving DecidableEq, Repr

/-- `Start`, steps a to c (R109). -/
def startSteps : List LineStep :=
  [{ waitHigh := true }, { sda := some false, ticks := 4 }, { scl := some false, ticks := 1 }]

/-- `RepStart`, steps a to d (R110). -/
def repStartSteps : List LineStep :=
  [{ sda := some true, ticks := 5 }, { scl := some true, waitHigh := true, ticks := 5 },
   { sda := some false, ticks := 4 }, { scl := some false, ticks := 1 }]

/-- `Stop`, steps a to c (R111). -/
def stopSteps : List LineStep :=
  [{ sda := some false, ticks := 5 }, { scl := some true, waitHigh := true, ticks := 4 },
   { sda := some true, ticks := 5 }]

/-- `BitCell(d)`, steps a to d (R112). -/
def bitCellSteps (d : Bool) : List LineStep :=
  [{ sda := some d, ticks := 5 }, { scl := some true, waitHigh := true, ticks := 2 },
   { sample := true, ticks := 2 }, { scl := some false, ticks := 1 }]

/-- The level of a line: the AND of the block's output and the slave's (R15, R56). -/
def lineLevel (mine slaves : Bool) : Bool := mine && slaves

/-- Wait `n` ticks: `PSC` has wrapped and `TICKCNT` has counted them (R29). -/
def Line.waitTicks (n : Nat) (l : Line) : Line := { l with psc := 0, tickcnt := BitVec.ofNat 4 n }

/-- The lines as a step drives them, before any tick of it. -/
def LineStep.drive (t : LineStep) (l : Line) : Line :=
  { l with sdaO := t.sda.getD l.sdaO, sclO := t.scl.getD l.sclO, psc := 0, tickcnt := 0 }

/-- One step against one pulse of the slave; `smp` is the last sample taken. A wait for SCL that the
slave never lets rise stalls before any tick (R114). -/
def LineStep.run (t : LineStep) (p : Pulse) (smp : Bool) (l : Line) : Res Line Bool :=
  if t.waitHigh && p.stretch.isNone then .stall (t.drive l)
  else .done (if t.sample then lineLevel (t.drive l).sdaO p.sda else smp)
    ((t.drive l).waitTicks t.ticks)

/-- A list of steps against one pulse. -/
def runSteps : List LineStep → Pulse → Bool → Line → Res Line Bool
  | [], _, smp, l => .done smp l
  | t :: ts, p, smp, l => (t.run p smp l).bind fun smp l => runSteps ts p smp l

/-- `BitCell(d)`: one clock pulse, returning the sampled level of SDA (R112). -/
def bitCell (d : Bool) (p : Pulse) (l : Line) : Res Line Bool := runSteps (bitCellSteps d) p true l

/-- A Start, repeated Start or Stop against the slave's wave. -/
def lineCondition (ts : List LineStep) (w : Wave) (l : Line) : Res Line Unit :=
  (runSteps ts w.now true l).bind fun _ l => .done () l

/-- The last `n` data cells of a transmitted byte and its acknowledge cell (R107). The cell in which
arbitration is lost is the last that runs. DESIGN CHOICE (log 21): that cell runs its steps c and d to the
end before R115 releases the lines, as R107 returns from a whole `BitCell`; 95 T-L3 releases them at the
sample. -/
def sendCells : Nat → Wave → Line → Res Line TxAns
  | 0, w, l => (bitCell true w.now { l with bitcnt := 8 }).bind fun a l =>
      .done (if a then .nack else .ack) l
  | n + 1, w, l =>
    (bitCell l.shift.msb w.now { l with bitcnt := BitVec.ofNat 4 (7 - n) }).bind fun b l =>
      if l.shift.msb && !b then .done .lost l
      else sendCells n w.tail { l with shift := l.shift <<< 1 }

/-- `TxByte(v)` on the lines (R107). -/
def lineTx (v : Byte) (w : Wave) (l : Line) : Res Line TxAns := sendCells 8 w { l with shift := v }

/-- The last `n` data cells of a received byte, and the acknowledge cell in which the master drives
`a` (R108). -/
def receiveCells (a : Bool) : Nat → Wave → Line → Res Line Byte
  | 0, w, l => (bitCell a w.now { l with bitcnt := 8 }).bind fun _ l => .done l.shift l
  | n + 1, w, l =>
    (bitCell true w.now { l with bitcnt := BitVec.ofNat 4 (7 - n) }).bind fun b l =>
      receiveCells a n w.tail { l with shift := l.shift.shiftConcat b }

/-- `RxByte(a)` on the lines (R108). -/
def lineRx (a : Bool) (w : Wave) (l : Line) : Res Line Byte := receiveCells a 8 w { l with shift := 0 }

/-- Both lines released at once, as on a lost arbitration (R115). -/
def Line.release (l : Line) : Line := { l with sclO := true, sdaO := true }

/-- The bus held between operations: SDA released, SCL as the last cell left it (R116). -/
def Line.hold (l : Line) : Line := { l with sdaO := true }

/-! ### Time, which no instruction reads (spec/70_reset_and_hazards.md R182) -/

/-- The `clk` periods of a tick: `2 * (TPR + 1)` (R113). -/
def tickPeriods (tpr : BitVec 7) : Nat := 2 * (tpr.toNat + 1)

/-- One edge of `clk` while `BUSY = 1`: `PSC` counts from 0 to `2 * (TPR + 1) - 1` and wraps, and a
tick elapses at each wrap (R29, R113). -/
def Line.clkEdge (tpr : BitVec 7) (l : Line) : Line :=
  if l.psc.toNat + 1 = tickPeriods tpr then { l with psc := 0, tickcnt := l.tickcnt + 1 }
  else { l with psc := l.psc + 1 }

/-- `n` edges of `clk`. -/
def Line.clkEdges (tpr : BitVec 7) : Nat → Line → Line
  | 0, l => l
  | n + 1, l => Line.clkEdges tpr n (l.clkEdge tpr)

/-- The ticks of a list of steps when the slave does not stretch. -/
def stepsTicks (ts : List LineStep) : Nat := (ts.map LineStep.ticks).sum

/-- The ticks of a bus event without stretching (R183). A lost byte has no fixed length: it ends in
the cell that lost. -/
def BusEvent.ticks : BusEvent → Nat
  | .start => stepsTicks startSteps
  | .repStart => stepsTicks repStartSteps
  | .stop => stepsTicks stopSteps
  | .txByte _ _ => 9 * stepsTicks (bitCellSteps true)
  | .rxByte _ _ => 9 * stepsTicks (bitCellSteps true)
  | .txLost _ => 0

/-- The ticks of the events of an operation without stretching (R183, R184). -/
def eventsTicks (es : List BusEvent) : Nat := (es.map BusEvent.ticks).sum

/-- The levels of `scl_o` and `sda_o` that each step of a list sets, with the tick at which it sets
them, counted from `t` and without stretching (95 T-L1, T-L2). -/
def timeline : Nat → List LineStep → Line → List (Nat × Bool × Bool)
  | _, [], _ => []
  | t, s :: ss, l => (t, (s.drive l).sclO, (s.drive l).sdaO) :: timeline (t + s.ticks) ss (s.drive l)

end Sys2Proof.Machine
end

