-- ==== Sys2Proof/Machine/Engine.lean ====
section
/-! DEFINITION. The master engine: the engine operation (spec/40_engine.md R86 to R90) over the bus
symbols, and the bus symbols at the line level and at the symbol level (R107 to R111, R115). -/

namespace Sys2Proof.Machine

/-- The bus symbols an engine operation is made of. -/
structure Symbols where
  start : State → Res State Unit
  repStart : State → Res State Unit
  stop : State → Res State Unit
  tx : Byte → State → Res State TxAns
  rx : Bool → State → Res State Byte

/-! ### The engine operation -/

/-- Arbitration loss: both lines released at once, `OWN <- IDLE`, `ERROR <- 1`, `BUSY <- 0`; the rest
of the operation is skipped (R115). -/
def State.arbitrationLost (s : State) : State :=
  { s with line := s.line.release, own := .idle, error := true, busy := false }

/-- The end of an operation that has generated a Stop (R86 step 4, R90). -/
def State.stopped (s : State) : State := { s with own := .idle, busy := false }

/-- The end of an operation that holds the bus (R90, R116). -/
def State.held (s : State) : State := { s with line := s.line.hold, busy := false }

/-- `OWN <- (MSA.RS = 1 ? OWN_RX : OWN_TX)` (R87). -/
def State.latchDirection (s : State) : State :=
  { s with own := if msaRead s.msa then .rx else .tx }

/-- The address phase (R87). Its result says how the operation goes on: `ack` with the data phase,
`nack` with the finish, `lost` not at all. -/
def addressPhase (P : Symbols) (s : State) : Res State TxAns :=
  (if s.own = .idle then P.start s else P.repStart s).bind fun _ s =>
    (P.tx s.msa s.latchDirection).bind fun a s =>
      match a with
      | .ack => .done .ack s
      | .nack => .done .nack s.addressNack
      | .lost => .done .lost s.arbitrationLost

/-- The transmit data phase (R88). -/
def transmitPhase (P : Symbols) (s : State) : Res State TxAns :=
  (P.tx s.mdrTx s).bind fun a s =>
    match a with
    | .ack => .done .ack s
    | .nack => .done .nack s.dataNack
    | .lost => .done .lost s.arbitrationLost

/-- The receive data phase: the acknowledge bit is 0 exactly when `ACK = 1` (R89). -/
def receivePhase (P : Symbols) (c : Ctl) (s : State) : Res State TxAns :=
  (P.rx (!ctlAckBit c) s).bind fun v s => .done .ack { s with mdrRx := v }

/-- The data phase in the direction that `OWN` latched (R86 step 5). -/
def dataPhase (P : Symbols) (c : Ctl) (s : State) : Res State TxAns :=
  if s.own = .rx then receivePhase P c s else transmitPhase P s

/-- The finish (R90). -/
def finishPhase (P : Symbols) (c : Ctl) (s : State) : Res State Unit :=
  if ctlStopBit c then (P.stop s).bind fun _ s => .done () s.stopped else .done () s.held

/-- An operation that runs a byte (R86 step 5). -/
def byteOperation (P : Symbols) (c : Ctl) (s : State) : Res State Unit :=
  (if ctlStartBit c then addressPhase P s else .done .ack s).bind fun a s =>
    match a with
    | .lost => .done () s
    | .nack => finishPhase P c s
    | .ack => (dataPhase P c s).bind fun a s =>
      match a with
      | .lost => .done () s
      | .nack => finishPhase P c s
      | .ack => finishPhase P c s

/-- An operation that only generates a Stop (R86 step 4). -/
def stopOperation (P : Symbols) (s : State) : Res State Unit :=
  (P.stop s).bind fun _ s => .done () s.stopped

/-- The engine operation of a control write, its five cases in order (R86). -/
def engineWith (P : Symbols) (c : Ctl) (s₀ : State) : State :=
  let s := { s₀ with ctl := c }
  if s.mfe = false then s
  else if ctlRunBit c = false ∧ (ctlStopBit c = false ∨ s.own = .idle) then s
  else if ctlRunBit c = true ∧ ctlStartBit c = false ∧ s.own = .idle then s
  else if ctlRunBit c = false then (stopOperation P s.startStopOp).state
  else (byteOperation P c s.startByteOp).state

/-! ### The bus symbols, at the line level -/

/-- A condition on the lines: the slave is asked, the steps run, and the event is recorded when they
end (R109 to R111). -/
def lineCond (σ : Symbol) (ts : List LineStep) (e : BusEvent) (s : State) : Res State Unit :=
  match lineCondition ts (s.wave σ) s.line with
  | .done _ l => .done () (State.emit e { s.asked σ with line := l })
  | .stall l => .stall { s.asked σ with line := l }

/-- The event of a transmitted byte (R107). -/
def txEvent (v : Byte) : TxAns → BusEvent
  | .ack => .txByte v false
  | .nack => .txByte v true
  | .lost => .txLost v

/-- The bus symbols as the engine puts them on the lines. -/
def lineSymbols : Symbols where
  start := lineCond .start startSteps .start
  repStart := lineCond .repStart repStartSteps .repStart
  stop := lineCond .stop stopSteps .stop
  tx v s :=
    match lineTx v (s.wave (.tx v)) s.line with
    | .done a l => .done a (State.emit (txEvent v a) { s.asked (.tx v) with line := l })
    | .stall l => .stall { s.asked (.tx v) with line := l }
  rx a s :=
    match lineRx a (s.wave .rx) s.line with
    | .done v l => .done v (State.emit (.rxByte v a) { s.asked .rx with line := l })
    | .stall l => .stall { s.asked .rx with line := l }

/-- The engine of the block. -/
def engine : Engine := engineWith lineSymbols

/-! ### The bus symbols, at the symbol level -/

/-- A condition, from the oracle's answer alone (R109 to R111). -/
def symbolCond (σ : Symbol) (e : BusEvent) (s : State) : Res State Unit :=
  if (s.wave σ).proceeds then .done () (State.emit e (s.asked σ)) else .stall (s.asked σ)

/-- The bus symbols from the oracle's answers alone: the symbol level of R107 to R111, which leaves
the line-level state aside. R57 says that nothing the block can observe is lost by it. -/
def oracleSymbols : Symbols where
  start := symbolCond .start .start
  repStart := symbolCond .repStart .repStart
  stop := symbolCond .stop .stop
  tx v s :=
    match (s.wave (.tx v)).tx v with
    | some a => .done a (State.emit (txEvent v a) (s.asked (.tx v)))
    | none => .stall (s.asked (.tx v))
  rx a s :=
    match (s.wave .rx).rx with
    | some v => .done v (State.emit (.rxByte v a) (s.asked .rx))
    | none => .stall (s.asked .rx)

/-- The engine at the symbol level. -/
def symbolEngine : Engine := engineWith oracleSymbols

end Sys2Proof.Machine
end

