-- ==== Sys2Proof/Machine/ControlWords.lean ====
section
/-! DEFINITION. The sixteen control words given to the engine directly (spec/40_engine.md R91 to
R106): each is one control write, run by the one algorithm of R86. -/

namespace Sys2Proof.Machine

/-- A control write as a step of its own. A stalled operation is a state with `BUSY = 1` (R114). -/
def controlStep (c : Ctl) (s : State) : StepResult :=
  match memWrite engine .mcs (c.setWidth 32) s with
  | .done _ s => .next s
  | .hang s => .next s
  | .undef r => .refused r

/-- 0x0: nothing in every state (R91). -/
def execCtlNone (s : State) : StepResult := controlStep 0x0 s

/-- 0x1, RUN: a data phase when owned, then hold; nothing when idle (R92). -/
def execCtlRun (s : State) : StepResult := controlStep 0x1 s

/-- 0x2, START without RUN: nothing in every state (R93). -/
def execCtlStart (s : State) : StepResult := controlStep 0x2 s

/-- 0x3, START and RUN: address phase, data phase, hold (R94). -/
def execCtlStartRun (s : State) : StepResult := controlStep 0x3 s

/-- 0x4, STOP: a Stop when owned, nothing when idle (R95). -/
def execCtlStop (s : State) : StepResult := controlStep 0x4 s

/-- 0x5, RUN and STOP: a data phase and a Stop when owned (R96). -/
def execCtlStopRun (s : State) : StepResult := controlStep 0x5 s

/-- 0x6, START and STOP without RUN: as 0x4 (R97). -/
def execCtlStopStart (s : State) : StepResult := controlStep 0x6 s

/-- 0x7, START, RUN and STOP: a complete one-byte transaction (R98). -/
def execCtlStopStartRun (s : State) : StepResult := controlStep 0x7 s

/-- 0x8, ACK alone: nothing (R99). -/
def execCtlAck (s : State) : StepResult := controlStep 0x8 s

/-- 0x9, RUN and ACK: as 0x1, a received byte being acknowledged (R100). -/
def execCtlAckRun (s : State) : StepResult := controlStep 0x9 s

/-- 0xA, START and ACK without RUN: nothing (R101). -/
def execCtlAckStart (s : State) : StepResult := controlStep 0xA s

/-- 0xB, START, RUN and ACK: as 0x3, a received byte being acknowledged (R102). -/
def execCtlAckStartRun (s : State) : StepResult := controlStep 0xB s

/-- 0xC, STOP and ACK without RUN: as 0x4 (R103). -/
def execCtlAckStop (s : State) : StepResult := controlStep 0xC s

/-- 0xD, RUN, STOP and ACK: as 0x5, a received byte being acknowledged (R104). -/
def execCtlAckStopRun (s : State) : StepResult := controlStep 0xD s

/-- 0xE, START, STOP and ACK without RUN: as 0x4 (R105). -/
def execCtlAckStopStart (s : State) : StepResult := controlStep 0xE s

/-- 0xF, all four: as 0x7, a received byte being acknowledged (R106). -/
def execCtlAckStopStartRun (s : State) : StepResult := controlStep 0xF s

end Sys2Proof.Machine
end

