-- ==== Sys2Proof/Machine/ByteTransfer.lean ====
section
/-! DEFINITION. The byte-transfer unit: INIT, SET_DIR, SET_ADDR, SEND_BYTE and RECV_BYTE
(spec/41_byte_transfer.md R119 to R130). SEND_BYTE and RECV_BYTE are also steps of the sequencer, and
take the engine they run over. -/

namespace Sys2Proof.Machine

/-- The body of SET_DIR: `MSA.RS <- d`, `MSA.SA` unchanged (R121). -/
def dirOp (d : Bool) (s : State) : State :=
  s.writeMsa ((mergeDir ((memRead .msa s).setWidth 8) d).setWidth 32)

/-- The body of SET_ADDR: `MSA.SA <- a`, `MSA.RS` unchanged (R122). -/
def addrOp (a : Byte) (s : State) : State :=
  { s.writeMsa ((mergeAddr ((memRead .msa s).setWidth 8) a).setWidth 32) with addrSet := true }

/-- The body of SEND_BYTE: `MDR_TX <- d`, the control write, the wait, the error test (R123). -/
def sendOp (eng : Engine) (d : Byte) (c : Ctl) (s : State) : Run (Xfer Unit) :=
  (memWrite eng .mdr (d.setWidth 32) s).bind fun _ s =>
    transfer eng c (fun s => .done (.ok ()) s) s

/-- The body of RECV_BYTE: the control write, the wait, the error test, and only on success the read
of `MDR_RX` (R124). -/
def recvOp (eng : Engine) (c : Ctl) (s : State) : Run (Xfer Byte) :=
  transfer eng c (fun s => .done (.ok ((memRead .mdr s).setWidth 8)) s) s

/-- INIT: `MFE <- 1`, `TPR <- TPR_INIT`; `Ill` while a transaction is open (R120). -/
def execInit (s : State) : StepResult :=
  command (fun s => s.own == .idle)
    (fun s => .done (.ok 0 0) ((s.writeMfe 0x00000010).writeTpr (tprInitValue.setWidth 32))) s

/-- SET_DIR (R121). -/
def execSetDir (d : Direction) (s : State) : StepResult :=
  command (fun _ => true) (fun s => .done (.ok 0 0) (dirOp d.toBit s)) s

/-- SET_ADDR: `Ill` if `A[7] = 1` (R122). -/
def execSetAddr (a : Byte) (s : State) : StepResult :=
  command (fun _ => addrOperandOk a) (fun s => .done (.ok 0 0) (addrOp a s)) s

/-- SEND_BYTE: `Ill` if `MFE = 0` (R123, R128). -/
def execSendByte (d : Byte) (c : Ctl) (s : State) : StepResult :=
  command busEnabled
    (fun s => (sendOp engine d c s).bind fun x s => .done x.response s) s

/-- RECV_BYTE: `Ill` if `MFE = 0` (R124, R128). -/
def execRecvByte (c : Ctl) (s : State) : StepResult :=
  command busEnabled
    (fun s => (recvOp engine c s).bind fun x s => .done x.byteResponse s) s

end Sys2Proof.Machine
end

