-- ==== Sys2Proof/Machine/Sequencer.lean ====
section
/-! DEFINITION. The sensor register sequencer: READ_REG, WRITE_REG16 and DECODE_TEMP
(spec/42_sequencer.md R131 to R146). The two sequences take the engine they run over. -/

namespace Sys2Proof.Machine

/-- `SEQ <- q` (R30). -/
def State.setSeq (q : SeqState) (s : State) : State := { s with seq := q }

/-- One transfer of a sequence: on `Err(f)` the sequence collapses, `SEQ <- Idle`, and ends with
`Err(f)`; no later step runs (R141, R155). -/
def seqStep {α β : Type} (m : Run (Xfer α)) (k : α → State → Run (Xfer β)) : Run (Xfer β) :=
  m.bind fun x s =>
    match x with
    | .ok a => k a s
    | .err f => .done (.err f) (s.setSeq .idle)

/-- The end of READ_REG: `{HI, LO}`, and `SEQ` to Idle (R132, R139). -/
def readRegEnd (s : State) : Run (Xfer Half) :=
  .done (.ok (regValue s.hi s.lo)) (s.setSeq .idle)

/-- The second RECV of READ_REG: `RUN|STOP`, and the assembly of the value (R132). -/
def readRegLsb (eng : Engine) (s : State) : Run (Xfer Half) :=
  seqStep (recvOp eng 0x5 s) fun b s =>
    readRegEnd ({ s with lo := b }.setSeq .lsbReceived)

/-- READ_REG from the change of direction on: the first RECV, `START|RUN|ACK` (R132). -/
def readRegMsb (eng : Engine) (s : State) : Run (Xfer Half) :=
  seqStep (recvOp eng 0xB ((dirOp true (s.setSeq .addressWritten)).setSeq .directionSwitched))
    fun b s => readRegLsb eng { s.setSeq .msbReceived with hi := b }

/-- The sequence of READ_REG (R132, R139). -/
def readRegOp (eng : Engine) (r : Byte) (s : State) : Run (Xfer Half) :=
  seqStep (sendOp eng r 0x3 (dirOp false { s with rega := r })) fun _ s => readRegMsb eng s

/-- The third SEND of WRITE_REG16: the low byte with `RUN|STOP` (R133). -/
def writeRegLsb (eng : Engine) (s : State) : Run (Xfer Unit) :=
  seqStep (sendOp eng (loByte s.val) 0x5 (s.setSeq .wMsbSent)) fun _ s =>
    .done (.ok ()) ((s.setSeq .wLsbSent).setSeq .idle)

/-- The second SEND of WRITE_REG16: the high byte with `RUN` (R133). -/
def writeRegMsb (eng : Engine) (s : State) : Run (Xfer Unit) :=
  seqStep (sendOp eng (hiByte s.val) 0x1 (s.setSeq .wAddressWritten)) fun _ s => writeRegLsb eng s

/-- The sequence of WRITE_REG16 (R133, R140). -/
def writeRegOp (eng : Engine) (r : Byte) (v : Half) (s : State) : Run (Xfer Unit) :=
  seqStep (sendOp eng r 0x3 (dirOp false { s with rega := r, val := v })) fun _ s => writeRegMsb eng s

/-- READ_REG: `Ill` if `MFE = 0` (R128, R132). -/
def execReadReg (r : Byte) (s : State) : StepResult :=
  command busEnabled
    (fun s => (readRegOp engine r s).bind fun x s => .done x.dataResponse s) s

/-- WRITE_REG16: `Ill` if `MFE = 0` (R128, R133). -/
def execWriteReg16 (r : Byte) (v : Half) (s : State) : StepResult :=
  command busEnabled
    (fun s => (writeRegOp engine r v s).bind fun x s => .done x.response s) s

/-- DECODE_TEMP: first the alert flags to `TFLAGS`, then the masked value decoded (R134, R135). -/
def execDecodeTemp (raw : Half) (s : State) : StepResult :=
  command (fun _ => true)
    (fun s => .done (.ok (alertFlags raw) (tempData raw)) { s with tflags := alertFlags raw }) s

end Sys2Proof.Machine
end

