-- ==== Sys2Proof/Machine/Dispatch.lean ====
section
/-! DEFINITION. Which meaning each instruction has. -/

namespace Sys2Proof.Machine

def exec (i : Instr) (s : State) : Host.Outcome State Fault Refusal :=
  match i with
  | .init => Sys2Proof.Machine.execInit s
  | .setDir d => Sys2Proof.Machine.execSetDir d s
  | .setAddr a => Sys2Proof.Machine.execSetAddr a s
  | .sendByte d c => Sys2Proof.Machine.execSendByte d c s
  | .recvByte c => Sys2Proof.Machine.execRecvByte c s
  | .readReg r => Sys2Proof.Machine.execReadReg r s
  | .writeReg16 r v => Sys2Proof.Machine.execWriteReg16 r v s
  | .decodeTemp v => Sys2Proof.Machine.execDecodeTemp v s
  | .ctlNone => Sys2Proof.Machine.execCtlNone s
  | .ctlRun => Sys2Proof.Machine.execCtlRun s
  | .ctlStart => Sys2Proof.Machine.execCtlStart s
  | .ctlStartRun => Sys2Proof.Machine.execCtlStartRun s
  | .ctlStop => Sys2Proof.Machine.execCtlStop s
  | .ctlStopRun => Sys2Proof.Machine.execCtlStopRun s
  | .ctlStopStart => Sys2Proof.Machine.execCtlStopStart s
  | .ctlStopStartRun => Sys2Proof.Machine.execCtlStopStartRun s
  | .ctlAck => Sys2Proof.Machine.execCtlAck s
  | .ctlAckRun => Sys2Proof.Machine.execCtlAckRun s
  | .ctlAckStart => Sys2Proof.Machine.execCtlAckStart s
  | .ctlAckStartRun => Sys2Proof.Machine.execCtlAckStartRun s
  | .ctlAckStop => Sys2Proof.Machine.execCtlAckStop s
  | .ctlAckStopRun => Sys2Proof.Machine.execCtlAckStopRun s
  | .ctlAckStopStart => Sys2Proof.Machine.execCtlAckStopStart s
  | .ctlAckStopStartRun => Sys2Proof.Machine.execCtlAckStopStartRun s

end Sys2Proof.Machine
end

