-- ==== Sys2Proof/Machine/Port.lean ====
section
/-! DEFINITION. The block's input ports: what each step takes from them (spec/10_state.md R14,
spec/30_encoding.md R83, spec/70_reset_and_hazards.md R167). -/

namespace Sys2Proof.Machine

/-- One sample of the input ports served by `run`: nothing, a reset, an instruction decoded and run,
or a command word refused by R76. With nothing presented the block waits (R168). -/
def serve (run : Instr → State → StepResult) (s : State) : StepResult :=
  match s.inputs with
  | [] => .next s
  | .idle :: rest => .next { s with inputs := rest }
  | .rst :: rest => .next (s.resetBlock rest)
  | .word p :: rest =>
    match decode p with
    | .ok i => run i { s with inputs := rest }
    | .error _ => illegalCommand { s with inputs := rest }

/-- The port input that carries a word of the opcode table; a width no row has carries nothing. -/
def tableInput (nbits w : Nat) : PortInput :=
  match tableWord nbits w with
  | some p => .word p
  | none => .idle

end Sys2Proof.Machine
end

