-- ==== Sys2Proof/Machine/Step.lean ====
section
/-! DEFINITION. The machine's step, and where the next step finds an instruction. -/

namespace Sys2Proof.Machine

/-- One step: one sample of the input ports (log 7), and if it carries an instruction that the port
accepts, that instruction run to its end. -/
def step (s : State) : Host.Outcome State Fault Refusal := serve exec s

/-- The state with an instruction of the opcode table presented at the ports for the next step. -/
def State.withFetchWord (s : State) (nbits w : Nat) : State :=
  { s with inputs := tableInput nbits w :: s.inputs }

end Sys2Proof.Machine
end

