-- ==== Sys2Proof/Safety.lean ====
section
/-! DEFINITION. What claims are stated in: the invariant of the block, the shape of `TRACE`, what an
operation leaves unchanged, and the use of the block that the spec advises. -/

namespace Sys2Proof.Machine

/-! ### The shape of the trace (spec/40_engine.md R118) -/

/-- Where a trace stands. -/
inductive BusPhase where
  /-- No transaction is open. -/
  | idle
  /-- A Start or repeated Start was the last event: the address byte must follow (R118 d). -/
  | addressing
  /-- A transaction is open and its address byte has been sent. -/
  | opened
  /-- The events do not follow R118. -/
  | broken
  deriving DecidableEq, Repr

/-- One event more (R118 a to d). -/
def BusPhase.next : BusPhase → BusEvent → BusPhase
  | .idle, .start => .addressing
  | .addressing, .txByte _ _ => .opened
  | .addressing, .txLost _ => .idle
  | .opened, .txByte _ _ => .opened
  | .opened, .rxByte _ _ => .opened
  | .opened, .txLost _ => .idle
  | .opened, .repStart => .addressing
  | .opened, .stop => .idle
  | _, _ => .broken

/-- Where the events leave a trace that stood at `p`. -/
def phaseAfter (p : BusPhase) (es : List BusEvent) : BusPhase := es.foldl BusPhase.next p

/-- Where a trace stands, from reset. -/
def tracePhase (t : List BusEvent) : BusPhase := phaseAfter .idle t

/-- A trace that follows R118. -/
def traceOk (t : List BusEvent) : Bool := tracePhase t != .broken

/-- Is the event a `Start`? -/
def isStart : BusEvent → Bool
  | .start => true
  | _ => false

/-- Is the event a `Stop`? -/
def isStop : BusEvent → Bool
  | .stop => true
  | _ => false

/-- Does the event close a transaction: a `Stop` or a `TxLost` (R142)? -/
def isClosing : BusEvent → Bool
  | .stop => true
  | .txLost _ => true
  | _ => false

/-- The events that a step added to the trace. -/
def newEvents (s t : State) : List BusEvent := t.trace.drop s.trace.length

/-! ### The invariant -/

/-- The line drivers agree with the ownership between operations (spec/10_state.md R37). -/
def linesOk (s : State) : Bool :=
  s.busy || (s.line.sdaO && s.line.sclO == (s.own == .idle))

/-- At most one cause is flagged, and `ERROR` with it (R20, R153). -/
def flagsOk (s : State) : Bool :=
  !(s.adrack && s.datack) && (!s.adrack || s.error) && (!s.datack || s.error)

/-- `TPR` and `MFE` are as reset or INIT left them, and an engine never enabled owns nothing and has
sent nothing (R25, R26, R117). -/
def enableOk (s : State) : Bool :=
  if s.mfe then s.tpr == tprInitValue else s.tpr == 0 && s.own == .idle && s.trace == []

/-- `SEQ` is Idle whenever no command executes (R30); a command that still executes after its step
has hung: `BUSY = 1` and no response is valid (R33, R160). -/
def portOk (s : State) : Bool :=
  if s.executing then s.busy && !s.rspValid else s.seq == .idle

/-- The trace follows R118, and between operations the bus is owned exactly when a transaction is
open in it. -/
def busOk (s : State) : Bool :=
  if s.busy then traceOk s.trace
  else tracePhase s.trace == (if s.own = .idle then .idle else .opened)

/-- `BITCNT` counts from 0 to 8 (R28). -/
def cellsOk (s : State) : Bool := s.line.bitcnt.toNat ≤ 8

/-- The invariant of the block. -/
def State.Inv (s : State) : Prop :=
  linesOk s = true ∧ flagsOk s = true ∧ enableOk s = true ∧ portOk s = true ∧ busOk s = true ∧
    cellsOk s = true

/-- The port accepts a command, the engine is enabled, and no operation of it is going on. -/
def State.ready (s : State) : Bool := !s.executing && !s.busy && s.mfe

/-- The control word that an instruction given to the engine directly writes (R91 to R106). -/
def controlWordOf : Instr → Option Ctl
  | .ctlNone => some 0x0
  | .ctlRun => some 0x1
  | .ctlStart => some 0x2
  | .ctlStartRun => some 0x3
  | .ctlStop => some 0x4
  | .ctlStopRun => some 0x5
  | .ctlStopStart => some 0x6
  | .ctlStopStartRun => some 0x7
  | .ctlAck => some 0x8
  | .ctlAckRun => some 0x9
  | .ctlAckStart => some 0xA
  | .ctlAckStartRun => some 0xB
  | .ctlAckStop => some 0xC
  | .ctlAckStopRun => some 0xD
  | .ctlAckStopStart => some 0xE
  | .ctlAckStopStartRun => some 0xF
  | .init => none
  | .setDir _ => none
  | .setAddr _ => none
  | .sendByte _ _ => none
  | .recvByte _ => none
  | .readReg _ => none
  | .writeReg16 _ _ => none
  | .decodeTemp _ => none

/-- The error flag set of a state, `{DATACK, ADRACK, ERROR}` (R126). -/
def State.errors (s : State) : BitVec 3 :=
  BitVec.ofBool s.datack ++ BitVec.ofBool s.adrack ++ BitVec.ofBool s.error

/-! ### What an operation leaves unchanged -/

/-- Everything but what an engine operation writes: `CTL`, `BUSY`, the error flags, `MDR_RX`, `OWN`,
the line-level state, `TRACE` and the bus environment (R86 to R90). -/
def sameBesidesEngine (s t : State) : Prop :=
  t = { s with ctl := t.ctl, busy := t.busy, error := t.error, adrack := t.adrack,
               datack := t.datack, mdrRx := t.mdrRx, own := t.own, line := t.line,
               trace := t.trace, slave := t.slave, asks := t.asks }

/-- The state with its line-level part set aside: what the symbol level speaks of (R57). -/
def State.symbolView (s : State) : State := { s with line := Line.reset }

/-- The symbol view of a unit's result. -/
def viewRun {α : Type} : Run α → Run α
  | .done a s => .done a s.symbolView
  | .hang s => .hang s.symbolView
  | .undef r => .undef r

/-- A wave without its finite stretches: a slave that lets SCL rise at all lets it rise at once. -/
def Wave.unstretched (w : Wave) : Wave := w.map fun p => { p with stretch := p.stretch.map fun _ => 0 }

/-- A scripted slave without its finite stretches. -/
def Slave.unstretched : Slave → Slave
  | .scripted ws => .scripted (ws.map Wave.unstretched)
  | .unknown => .unknown
  | .sensor r => .sensor r

/-- The state with a scripted slave's finite stretches taken out (R114, R182). -/
def State.unstretched (s : State) : State := { s with slave := s.slave.unstretched }

/-- A step's answer with the finite stretches taken out. -/
def unstretchedResult : StepResult → StepResult
  | .next s => .next s.unstretched
  | .fault r => .fault r
  | .refused r => .refused r

/-- The commands that use the bus (R128). -/
def isBusCommand : Instr → Bool
  | .sendByte _ _ => true
  | .recvByte _ => true
  | .readReg _ => true
  | .writeReg16 _ _ => true
  | _ => false

/-- The commands of the command port (R64). -/
def isCommand (i : Instr) : Bool := (controlWordOf i).isNone

/-! ### What an operation that ends leaves (spec/40_engine.md R86 to R90, R107 to R111, R116) -/

/-- The lines after a byte that holds the bus: nine cells have run and SCL is low (R108, R116). The rules
give the two drivers; what `SHIFT`, `BITCNT`, `PSC` and `TICKCNT` hold between operations is the model's
choice (logs 2 and 12). -/
def Line.heldWith (shift : Byte) : Line :=
  { shift := shift, bitcnt := 8, psc := 0, tickcnt := 1, sclO := false, sdaO := true }

/-- The lines after a byte and its Stop: both are released (R111). The counters are the model's choice, as
in `Line.heldWith`. -/
def Line.stoppedWith (shift : Byte) : Line :=
  { shift := shift, bitcnt := 8, psc := 0, tickcnt := 5, sclO := true, sdaO := true }

/-- The lines after a Stop alone, which releases both and runs no cell (R111); `PSC` and `TICKCNT` are the
model's choice (logs 2, 12 and 17). -/
def Line.afterStop (l : Line) : Line := { l with sclO := true, sdaO := true, psc := 0, tickcnt := 5 }

/-- The event that opens an address phase (R87). -/
def startEvent (o : Own) : BusEvent := if o = .idle then .start else .repStart

/-- Does the slave let through the Stop that a control word with STOP ends with? Its wave is the
first of those left. -/
def stopProceeds (c : Ctl) : List Wave → Bool
  | [] => !ctlStopBit c
  | w :: _ => !ctlStopBit c || w.proceeds

/-- The state after an operation that ran to the finish (R90): `d` the direction that was latched,
`shift` what the last byte left in `SHIFT`, `a` and `k` whether the address byte and the data byte were
not acknowledged, `es` the events before the Stop, `ws` the waves left before the Stop. -/
def State.afterByte (c : Ctl) (d : Own) (shift : Byte) (a k : Bool) (es : List BusEvent)
    (ws : List Wave) (s : State) : State :=
  { s with ctl := c, busy := false, error := a || k, adrack := a, datack := k,
           own := if ctlStopBit c then .idle else d,
           line := if ctlStopBit c then Line.stoppedWith shift else Line.heldWith shift,
           trace := s.trace ++ es ++ (if ctlStopBit c then [.stop] else []),
           slave := .scripted (if ctlStopBit c then ws.tail else ws) }

/-- The state after a Stop alone, with `CTL` at `c`; it leaves the error flags (R86 step 4, R111). -/
def State.afterStopAlone (c : Ctl) (ws : List Wave) (s : State) : State :=
  { s with ctl := c, busy := false, own := .idle, line := s.line.afterStop,
           trace := s.trace ++ [.stop], slave := .scripted ws }

/-- The state after a byte transfer that failed in the acknowledge bit of the address byte (`a`) or of
the data byte (`k`) and was aborted (R154), `es` the events before the one Stop. -/
def State.afterAbort (a k : Bool) (es : List BusEvent) (ws : List Wave) (s : State) : State :=
  { s with ctl := 0x4, busy := false, error := a || k, adrack := a, datack := k, own := .idle,
           line := Line.stoppedWith 0, trace := s.trace ++ es ++ [.stop], slave := .scripted ws }

/-- The state after an arbitration loss, `l` the lines it left (R115). -/
def State.afterLoss (c : Ctl) (l : Line) (es : List BusEvent) (ws : List Wave) (s : State) : State :=
  { s with ctl := c, busy := false, error := true, adrack := false, datack := false, own := .idle,
           line := l, trace := s.trace ++ es, slave := .scripted ws }

/-- How an engine operation depends on `MSA`: without START not at all, whatever direction and address
it holds (R27, R121, R122); with START and RUN the address byte on the bus is `MSA` as it then stands
(R48, R87). -/
def msaOnlyInAddressByte : Prop :=
  (∀ (c : Ctl) (m : Byte) (s : State), ctlStartBit c = false →
    engine c { s with msa := m } = { engine c s with msa := m }) ∧
  (∀ (c : Ctl) (s : State) (e : BusEvent), ctlRunBit c = true → ctlStartBit c = true →
    s.mfe = true → (newEvents s (engine c s))[1]? = some e →
    e = .txByte s.msa false ∨ e = .txByte s.msa true ∨ e = .txLost s.msa)

/-- A slave that answers the next eight symbols, whatever they are, and never holds SCL low for ever.
No command puts more than eight symbols on the bus (R132, R133). -/
def Slave.answers : Slave → Bool
  | .unknown => false
  | .scripted ws => 8 ≤ ws.length && ws.all fun w => w.all fun p => p.stretch.isSome
  | .sensor _ => true

/-! ### The use that the spec advises (93 U5, U6, U8, U9, U14; log 6)

The block has a defined behaviour outside it too, and the model has it; a claim that wants to lean
on nothing but the source's own usage takes this as a premise. -/

/-- The control words that the source's sequences use (R77, U5). -/
def sourceWord (c : Ctl) : Bool := c == 0x1 || c == 0x3 || c == 0x4 || c == 0x5 || c == 0xB

/-- A Start only after SET_ADDR (R40, U6), and a byte without a Start only in an open transaction of
the right direction (R130, U8, U9). -/
def byteAdvised (c : Ctl) (d : Own) (s : State) : Bool :=
  sourceWord c && ctlRunBit c &&
    (if ctlStartBit c then s.addrSet && (msaRead s.msa == (d == .rx)) else s.own == d)

/-- Is a command, in this state, the use that the spec advises? -/
def State.advised (i : Instr) (s : State) : Bool :=
  match i with
  | .init => s.own == .idle
  | .setDir _ => true
  | .setAddr a => addrOperandOk a
  | .sendByte d c => s.mfe && (byteAdvised c .tx s || (c == 0x4 && (s.own != .idle || d == 0)))
  | .recvByte c => s.mfe && byteAdvised c .rx s
  | .readReg _ => s.mfe && s.addrSet && s.own == .idle
  | .writeReg16 _ _ => s.mfe && s.addrSet && s.own == .idle
  | .decodeTemp _ => true
  | .ctlNone => false
  | .ctlRun => s.own != .idle
  | .ctlStart => false
  | .ctlStartRun => s.addrSet
  | .ctlStop => true
  | .ctlStopRun => s.own != .idle
  | .ctlStopStart => false
  | .ctlStopStartRun => false
  | .ctlAck => false
  | .ctlAckRun => false
  | .ctlAckStart => false
  | .ctlAckStartRun => s.addrSet
  | .ctlAckStop => false
  | .ctlAckStopRun => false
  | .ctlAckStopStart => false
  | .ctlAckStopStartRun => false

end Sys2Proof.Machine
end

