-- ==== Sys2Proof/Certificates/Slice0/Obligations.lean ====
section
/-! DEFINITION. The statements for the provers. Each docstring names the rules of spec/ it formalises;
OBLIGATIONS.json has the list. Most rules on the engine, the encoding and reset are marked by the spec as
its own decisions (D1 to D36 of spec/92_eei_decisions.md) or as derived there; the model follows them all
(log 11), and a statement that rests on one has the basis "derived". A statement that fixes what the bus
does takes a scripted slave, whose waves stand at the head of the state's list (log 1). -/

open Sys2Proof Sys2Proof.Machine

/-! ### Encoding -/

/-- R63 to R67, R70, R83: the word of every well-formed instruction decodes to that instruction. -/
def Obligations.DecodeOfEncode : Prop :=
  ∀ i : Instr, i.wf = true → decode (encode i) = .ok i

/-- R63 to R67, R76, R83: a command word that decodes is the one word of its instruction, which is a
well-formed command: no two words mean the same, and no bit is ignored. -/
def Obligations.EncodeOfDecodedCommand : Prop :=
  ∀ (w : Word) (i : Instr), decodeCommand w = .ok i →
    i.wf = true ∧ isCommand i = true ∧ encode i = .command w

/-- R17, R70, R77: of a control write the decoder reads bits [3:0] and nothing else, every value is a
control word, and it is the one its bits spell. -/
def Obligations.ControlWriteReadsFourBits : Prop :=
  ∀ v : Word, encode (decodeControl v) = .control (v &&& 0xF) ∧
    controlWordOf (decodeControl v) = some (v.setWidth 4)

/-- R84: the encoding examples, written out. -/
def Obligations.ExampleWords : Prop :=
  decode (.command 0x10000000) = .ok .init ∧
  decode (.command 0x20000000) = .ok (.setDir .write) ∧
  decode (.command 0x20010000) = .ok (.setDir .read) ∧
  decode (.command 0x30180000) = .ok (.setAddr 0x18) ∧
  decode (.command 0x43050000) = .ok (.sendByte 0x05 0x3) ∧
  decode (.command 0x44000000) = .ok (.sendByte 0x00 0x4) ∧
  decode (.command 0x5B000000) = .ok (.recvByte 0xB) ∧
  decode (.command 0x55000000) = .ok (.recvByte 0x5) ∧
  decode (.command 0x80050000) = .ok (.readReg 0x05) ∧
  decode (.command 0x900201E0) = .ok (.writeReg16 0x02 0x01E0) ∧
  decode (.command 0xA0000100) = .ok (.decodeTemp 0x0100) ∧
  decode (.control 0xB) = .ok .ctlAckStartRun

/-- R76 cases 1 and 2: exactly which command words are refused whatever the state. -/
def Obligations.IllegalWords : Prop :=
  ∀ w : Word, (∀ i, decodeCommand w ≠ .ok i) ↔
    (opField w ∉ [0x1, 0x2, 0x3, 0x4, 0x5, 0x8, 0x9, 0xA] ∨
      (condField w ≠ 0 ∧ opField w ≠ 0x4 ∧ opField w ≠ 0x5) ∨
      (aField w ≠ 0 ∧ (opField w = 0x1 ∨ opField w = 0x5 ∨ opField w = 0xA)) ∨
      (1 < (aField w).toNat ∧ opField w = 0x2) ∨
      (127 < (aField w).toNat ∧ opField w = 0x3) ∨
      (vField w ≠ 0 ∧ opField w ≠ 0x9 ∧ opField w ≠ 0xA))

/-! ### The step and the command port -/

/-- R14, R83: with a word at the ports that decodes to an instruction, the step takes that word and runs
the instruction. -/
def Obligations.StepRunsDecodedInstruction : Prop :=
  ∀ (s : State) (p : PortWord) (i : Instr) (rest : List PortInput),
    s.inputs = .word p :: rest → decode p = .ok i →
    step s = exec i { s with inputs := rest }

/-- R76 cases 1 and 2, R157, R177: a command word that is no command is answered with `Ill`, and changes
nothing but `EXEC`, `RSP` and `rsp_valid`; while a command executes it is not accepted. -/
def Obligations.StepOnIllegalWord : Prop :=
  ∀ (s : State) (w : Word) (e : DecodeError) (rest : List PortInput),
    s.inputs = .word (.command w) :: rest → decodeCommand w = .error e →
    step s = .next (if s.executing then { s with inputs := rest }
      else { s with inputs := rest, executing := false, rsp := 0x40000000, rspValid := true })

/-- R76 cases 2 to 4, R128, R157: a bus command before INIT, INIT while a transaction is open, and
SET_ADDR of more than seven bits answer `Ill` and change nothing but `EXEC`, `RSP` and `rsp_valid`. -/
def Obligations.IllegalInThisState : Prop :=
  ∀ (i : Instr) (s : State), s.executing = false →
    ((isBusCommand i = true ∧ s.mfe = false) ∨ (i = .init ∧ s.own ≠ .idle) ∨
      (∃ a : Byte, i = .setAddr a ∧ 128 ≤ a.toNat)) →
    exec i s = .next { s with executing := false, rsp := 0x40000000, rspValid := true }

/-- R14, R177: while a command executes no command is accepted, and nothing changes. -/
def Obligations.NoCommandWhileExecuting : Prop :=
  ∀ (i : Instr) (s : State), isCommand i = true → s.executing = true → exec i s = .next s

/-- R167 to R169: `rst` takes the block to its reset state whatever it was doing, no Stop being
recorded; the bus environment, which is not the block, keeps its state (the model's choice, log 9). -/
def Obligations.ResetFromAnyState : Prop :=
  ∀ (s : State) (rest : List PortInput), s.inputs = .rst :: rest →
    step s = .next { State.reset with slave := s.slave, asks := s.asks, inputs := rest }

/-- R168: the reset state, register by register. -/
def Obligations.ResetValues : Prop :=
  let s := State.reset
  s.msa = 0 ∧ s.ctl = 0 ∧ s.busy = false ∧ s.error = false ∧ s.adrack = false ∧ s.datack = false ∧
  s.mdrTx = 0 ∧ s.mdrRx = 0 ∧ s.tpr = 0 ∧ s.mfe = false ∧ s.own = .idle ∧
  s.line.shift = 0 ∧ s.line.bitcnt = 0 ∧ s.line.psc = 0 ∧ s.line.tickcnt = 0 ∧
  s.line.sclO = true ∧ s.line.sdaO = true ∧ s.seq = .idle ∧ s.rega = 0 ∧ s.val = 0 ∧ s.hi = 0 ∧
  s.lo = 0 ∧ s.tflags = 0 ∧ s.executing = false ∧ s.rsp = 0 ∧ s.rspValid = false ∧ s.trace = []

/-- R18, R42, R71, R75: what each engine register reads as and what a write of it keeps; a control write
hands bits [3:0] to the engine. -/
def Obligations.EngineRegisterMap : Prop :=
  (∀ (eng : Engine) (v : Word) (s : State),
    memWrite eng .msa v s = .done () { s with msa := v.setWidth 8 } ∧
    memWrite eng .mdr v s = .done () { s with mdrTx := v.setWidth 8 } ∧
    memWrite eng .tpr v s = .done () { s with tpr := v.setWidth 7 } ∧
    memWrite eng .mfe v s = .done () { s with mfe := v.getLsbD 4 } ∧
    (s.busy = false → memWrite eng .mcs v s = .done () (eng (v.setWidth 4) s))) ∧
  (∀ s : State,
    (memRead .msa s).toNat = s.msa.toNat ∧ (memRead .mdr s).toNat = s.mdrRx.toNat ∧
    (memRead .tpr s).toNat = s.tpr.toNat ∧ (memRead .mfe s).toNat = 16 * s.mfe.toNat ∧
    (memRead .mcs s).toNat =
      s.busy.toNat + 2 * s.error.toNat + 4 * s.adrack.toNat + 8 * s.datack.toNat)

/-- R68, R69: the fields of a response word. -/
def Obligations.ResponseFields : Prop :=
  (∀ (tf : BitVec 3) (d : Half), (Response.ok tf d).word.toNat = tf.toNat * 2 ^ 16 + d.toNat) ∧
  (∀ f : BitVec 3, (Response.err f).word.toNat = 2 ^ 31 + f.toNat * 2 ^ 24) ∧
  Response.ill.word.toNat = 2 ^ 30

/-! ### INIT, SET_DIR and SET_ADDR -/

/-- R120: INIT with no transaction open enables the engine, programs the divider, and changes nothing
else but the port. -/
def Obligations.InitResult : Prop :=
  ∀ s : State, s.executing = false → s.own = .idle →
    exec .init s = .next { s with mfe := true, tpr := tprInitValue, executing := false, rsp := 0,
                                  rspValid := true }

/-- R7, R113: the divider value INIT programs is the smallest whose SCL frequency is at most 100 kHz; it
is 7 for 16 MHz, and it fits its seven bits for every clock that R113 admits, this block's among them. -/
def Obligations.DividerValue : Prop :=
  (∀ f : Nat, 1 ≤ f → f ≤ 256000000 →
    tprInit f ≤ 127 ∧ f ≤ 100000 * (20 * (tprInit f + 1)) ∧
    (∀ t, f ≤ 100000 * (20 * (t + 1)) → tprInit f ≤ t) ∧
    (f = 100000 * (20 * (tprInit f + 1)) ↔ 2000000 ∣ f)) ∧
  tprInit 16000000 = 7 ∧ tprInitValue.toNat = tprInit Config.fSysHz

/-- R121: SET_DIR replaces the direction bit of `MSA` and keeps the address, with no bus activity, before
INIT and while a transaction is open; setting the same direction twice changes nothing; the new
direction takes effect at the next address byte and not before. -/
def Obligations.SetDirResult : Prop :=
  encode (.setDir .write) = .command 0x20000000 ∧ encode (.setDir .read) = .command 0x20010000 ∧
  (∀ (d : Direction) (s : State), s.executing = false →
    ∃ m : Byte, msaAddr m = msaAddr s.msa ∧ msaRead m = d.toBit ∧
      m = (s.msa &&& 0xFE) ||| (if d.toBit then 1 else 0) ∧
      exec (.setDir d) s =
        .next { s with msa := m, executing := false, rsp := 0, rspValid := true } ∧
      (msaRead s.msa = d.toBit → m = s.msa)) ∧
  msaOnlyInAddressByte

/-- R122: SET_ADDR replaces the address of `MSA` by any of the 128 and keeps the direction bit, with no bus
activity; it is refused exactly when bit 7 of the operand is 1; the address takes effect at the next
address byte and not before. Nothing is said of the model's own note that it has run (log 6). -/
def Obligations.SetAddrResult : Prop :=
  encode (.setAddr 0x18) = .command 0x30180000 ∧
  (∀ (a : Byte) (s : State), s.executing = false → a.toNat < 128 →
    ∃ (m : Byte) (t : State), (msaAddr m).toNat = a.toNat ∧ msaRead m = msaRead s.msa ∧
      m = (a <<< 1) ||| (s.msa &&& 0x01) ∧ exec (.setAddr a) s = .next t ∧
      t = { s with msa := m, addrSet := t.addrSet, executing := false, rsp := 0,
                   rspValid := true }) ∧
  (∀ (a : Byte) (s : State), s.executing = false → 128 ≤ a.toNat →
    exec (.setAddr a) s =
      .next { s with executing := false, rsp := 0x40000000, rspValid := true }) ∧
  msaOnlyInAddressByte

/-- R129, T-S1: SET_ADDR, then SET_DIR R, then SET_DIR W: the address is the operand throughout and only the
direction bit toggles. -/
def Obligations.DirectionToggleKeepsAddress : Prop :=
  ∀ (a : Byte) (s : State), s.executing = false → a.toNat < 128 →
    ∃ t u v : State, exec (.setAddr a) s = .next t ∧ exec (.setDir .read) t = .next u ∧
      exec (.setDir .write) u = .next v ∧ u.msa.toNat = 2 * a.toNat + 1 ∧ v.msa.toNat = 2 * a.toNat ∧
      (msaAddr t.msa).toNat = a.toNat ∧ v.trace = s.trace

/-! ### DECODE_TEMP -/

/-- R134, R135, R138: DECODE_TEMP copies the flags to `TFLAGS` and answers them with the temperature; it
changes nothing else but the port, and the flags do not affect the temperature. -/
def Obligations.DecodeTempResult : Prop :=
  ∀ (raw : Half) (s : State), s.executing = false →
    ∃ t : State, exec (.decodeTemp raw) s = .next t ∧
      t = { s with tflags := raw.extractLsb' 13 3, executing := false, rsp := t.rsp,
                   rspValid := true } ∧
      t.rsp.extractLsb' 16 3 = raw.extractLsb' 13 3 ∧ t.rsp.extractLsb' 19 13 = 0 ∧
      (t.rsp.extractLsb' 0 16).toInt = fahrenheit (raw.extractLsb' 0 13).toInt ∧
      t.rsp.extractLsb' 0 16 = tempData (raw &&& 0x1FFF)

/-- R136: the sign and magnitude reading of the temperature field, exactly, with the source's own
example, -20 degrees Celsius. -/
def Obligations.SignAndMagnitude : Prop :=
  (∀ raw : Half,
    ((raw.extractLsb' 8 4).toNat : ℚ) * 16 + ((raw.extractLsb' 0 8).toNat : ℚ) / 16 =
      ((raw.extractLsb' 0 12).toNat : ℚ) / 16 ∧
    ((raw.extractLsb' 0 13).toInt : ℚ) / 16 =
      (if raw.getLsbD 12 then ((raw.extractLsb' 0 12).toNat : ℚ) / 16 - 256
       else ((raw.extractLsb' 0 12).toNat : ℚ) / 16) ∧
    (tempData raw).toInt = fahrenheit (raw.extractLsb' 0 13).toInt) ∧
  (0x1EC0 : Half).getLsbD 12 = true ∧ ((0x1EC0 : Half).extractLsb' 0 13).toInt = -20 * 16 ∧
  (tempData 0x1EC0).toInt = -4

/-- R137: the answer is the integer nearest to the exact Fahrenheit value, and the one farther from zero
when two are equally near. The tie rule is the spec's own choice (log 10). -/
def Obligations.RoundsHalfAwayFromZero : Prop :=
  ∀ m : Int,
    |((fahrenheit m : ℚ) - ((m : ℚ) / 16 * 9 / 5 + 32))| ≤ 1 / 2 ∧
    (|((fahrenheit m : ℚ) - ((m : ℚ) / 16 * 9 / 5 + 32))| = 1 / 2 →
      |((m : ℚ) / 16 * 9 / 5 + 32)| < |(fahrenheit m : ℚ)|)

/-- R138, R144: the range of the decode, and that sixteen bits hold it. -/
def Obligations.DecodeRange : Prop :=
  (∀ raw : Half, -4096 ≤ sixteenths raw ∧ sixteenths raw ≤ 4095 ∧
    -429 ≤ fahrenheit (sixteenths raw) ∧ fahrenheit (sixteenths raw) ≤ 493 ∧
    (tempData raw).toInt = fahrenheit (sixteenths raw)) ∧
  fahrenheit 4095 = 493 ∧ fahrenheit (-4096) = -429 ∧ fahrenheit 0 = 32 ∧ fahrenheit 40 = 37 ∧
  fahrenheit (-40) = 28 ∧ fahrenheit (-360) = -9 ∧ fahrenheit (-320) = -4 ∧ fahrenheit 256 = 61

/-- R145 d: every temperature the field can hold decodes to its Fahrenheit value, whatever the flags. -/
def Obligations.DecodeOfEncodedTemperature : Prop :=
  ∀ (m : Int) (g : BitVec 3), -4096 ≤ m → m ≤ 4095 →
    (tempData (g.setWidth 16 <<< 13 ||| (BitVec.ofInt 13 m).setWidth 16)).toInt = fahrenheit m

/-! ### The control words -/

/-- R86 steps 1 to 3, R91 to R106, R117: with the engine disabled every control word, in every state those
without RUN and STOP, and with the bus idle those without RUN and those without START, latch `CTL` and do
nothing else. -/
def Obligations.ControlWordWithNothingToDo : Prop :=
  ∀ (i : Instr) (c : Ctl) (s : State), controlWordOf i = some c → s.busy = false →
    (s.mfe = false ∨ (ctlRunBit c = false ∧ (ctlStopBit c = false ∨ s.own = .idle)) ∨
      (ctlStartBit c = false ∧ s.own = .idle)) →
    exec i s = .next { s with ctl := c }

/-- R85, the model's choice (log 5): a control word is refused exactly while an operation is going on; and
so is a bus command, which only a control word that has hung can leave to meet `BUSY = 1`. -/
def Obligations.ControlWriteRefusedWhileBusy : Prop :=
  (∀ (i : Instr) (c : Ctl) (s : State), controlWordOf i = some c →
    (exec i s = .refused .controlWriteWhileBusy ↔ s.busy = true)) ∧
  (∀ (i : Instr) (s : State), isBusCommand i = true → s.executing = false → s.mfe = true →
    s.busy = true → exec i s = .refused .controlWriteWhileBusy)

/-- R86 step 4, R95, R97, R103, R105, R111: a control word with STOP and no RUN releases the bus, and
leaves the error flags.
The values of `PSC` and `TICKCNT` after the Stop are the model's choice (logs 2, 12 and 17). -/
def Obligations.StopWordReleasesBus : Prop :=
  ∀ (i : Instr) (c : Ctl) (s : State) (w : Wave) (ws : List Wave),
    controlWordOf i = some c → ctlRunBit c = false → ctlStopBit c = true →
    s.busy = false → s.mfe = true → s.own ≠ .idle →
    s.slave = .scripted (w :: ws) → w.proceeds = true →
    exec i s = .next { s with
      ctl := c, own := .idle, trace := s.trace ++ [.stop], slave := .scripted ws,
      line := s.line.afterStop }

/-- R88, R92, R96, R100, R104: a control word with RUN and no START, in a transaction addressed for
write, sends `MDR_TX`; a byte not acknowledged sets `ERROR` and `DATACK`. The ACK bit has no effect.
Of the lines the rules give the two drivers; the values of `SHIFT`, `BITCNT`, `PSC` and `TICKCNT` after
the operation are the model's choice (logs 2 and 12). -/
def Obligations.RunWordTransmits : Prop :=
  ∀ (i : Instr) (c : Ctl) (s : State) (w : Wave) (ws : List Wave) (nack : Bool),
    controlWordOf i = some c → ctlRunBit c = true → ctlStartBit c = false →
    s.busy = false → s.mfe = true → s.own = .tx →
    s.slave = .scripted (w :: ws) → w.tx s.mdrTx = some (if nack then .nack else .ack) →
    stopProceeds c ws = true →
    exec i s = .next (s.afterByte c .tx 0 false nack [.txByte s.mdrTx nack] ws)

/-- R89, R92, R96, R100, R104: the same control words, in a transaction addressed for read, receive a
byte into `MDR_RX` and acknowledge it exactly when ACK is set; no flag is set.
Of the lines the rules give the two drivers; the values of `SHIFT`, `BITCNT`, `PSC` and `TICKCNT` after
the operation are the model's choice (logs 2 and 12). -/
def Obligations.RunWordReceives : Prop :=
  ∀ (i : Instr) (c : Ctl) (s : State) (w : Wave) (ws : List Wave) (v : Byte),
    controlWordOf i = some c → ctlRunBit c = true → ctlStartBit c = false →
    s.busy = false → s.mfe = true → s.own = .rx →
    s.slave = .scripted (w :: ws) → w.rx = some v → stopProceeds c ws = true →
    exec i s = .next ({ s with mdrRx := v }.afterByte c .rx v false false
      [.rxByte v (!ctlAckBit c)] ws)

/-- R87, R88, R94, R98, R102, R106: a control word with START and RUN and `MSA.RS = 0` sends a Start or a
repeated Start, the address byte and `MDR_TX`.
Of the lines the rules give the two drivers; the values of `SHIFT`, `BITCNT`, `PSC` and `TICKCNT` after
the operation are the model's choice (logs 2 and 12). -/
def Obligations.StartWordTransmits : Prop :=
  ∀ (i : Instr) (c : Ctl) (s : State) (w x y : Wave) (ws : List Wave) (nack : Bool),
    controlWordOf i = some c → ctlRunBit c = true → ctlStartBit c = true →
    s.busy = false → s.mfe = true → msaRead s.msa = false →
    s.slave = .scripted (w :: x :: y :: ws) → w.proceeds = true → x.tx s.msa = some .ack →
    y.tx s.mdrTx = some (if nack then .nack else .ack) → stopProceeds c ws = true →
    exec i s = .next (s.afterByte c .tx 0 false nack
      [startEvent s.own, .txByte s.msa false, .txByte s.mdrTx nack] ws)

/-- R87, R89, R94, R98, R102, R106: a control word with START and RUN and `MSA.RS = 1` sends a Start or a
repeated Start and the address byte, and receives a byte.
Of the lines the rules give the two drivers; the values of `SHIFT`, `BITCNT`, `PSC` and `TICKCNT` after
the operation are the model's choice (logs 2 and 12). -/
def Obligations.StartWordReceives : Prop :=
  ∀ (i : Instr) (c : Ctl) (s : State) (w x y : Wave) (ws : List Wave) (v : Byte),
    controlWordOf i = some c → ctlRunBit c = true → ctlStartBit c = true →
    s.busy = false → s.mfe = true → msaRead s.msa = true →
    s.slave = .scripted (w :: x :: y :: ws) → w.proceeds = true → x.tx s.msa = some .ack →
    y.rx = some v → stopProceeds c ws = true →
    exec i s = .next ({ s with mdrRx := v }.afterByte c .rx v false false
      [startEvent s.own, .txByte s.msa false, .rxByte v (!ctlAckBit c)] ws)

/-- R87, R90, R94, R98, R102, R106: an address byte not acknowledged sets `ERROR` and `ADRACK` and skips
the data phase; the bus stays owned unless STOP is set.
Of the lines the rules give the two drivers; the values of `SHIFT`, `BITCNT`, `PSC` and `TICKCNT` after
the operation are the model's choice (logs 2 and 12). -/
def Obligations.StartWordAddressNack : Prop :=
  ∀ (i : Instr) (c : Ctl) (s : State) (w x : Wave) (ws : List Wave),
    controlWordOf i = some c → ctlRunBit c = true → ctlStartBit c = true →
    s.busy = false → s.mfe = true →
    s.slave = .scripted (w :: x :: ws) → w.proceeds = true → x.tx s.msa = some .nack →
    stopProceeds c ws = true →
    exec i s = .next (s.afterByte c (if msaRead s.msa then .rx else .tx) 0 true false
      [startEvent s.own, .txByte s.msa true] ws)

/-- R107, R115, T-E3, T-E4, T-E8, T-E11: arbitration lost in the address byte, in the data byte of the same
operation, or in a data byte of an open transaction: both lines released, no Stop, `ERROR` alone. The
counters of the line state are left free. -/
def Obligations.ArbitrationLoss : Prop :=
  (∀ (i : Instr) (c : Ctl) (s : State) (w x : Wave) (ws : List Wave),
    controlWordOf i = some c → ctlRunBit c = true → ctlStartBit c = true →
    s.busy = false → s.mfe = true →
    s.slave = .scripted (w :: x :: ws) → w.proceeds = true → x.tx s.msa = some .lost →
    ∃ l : Line, l.sclO = true ∧ l.sdaO = true ∧
      exec i s = .next (s.afterLoss c l [startEvent s.own, .txLost s.msa] ws)) ∧
  (∀ (i : Instr) (c : Ctl) (s : State) (w x y : Wave) (ws : List Wave),
    controlWordOf i = some c → ctlRunBit c = true → ctlStartBit c = true →
    s.busy = false → s.mfe = true → msaRead s.msa = false →
    s.slave = .scripted (w :: x :: y :: ws) → w.proceeds = true → x.tx s.msa = some .ack →
    y.tx s.mdrTx = some .lost →
    ∃ l : Line, l.sclO = true ∧ l.sdaO = true ∧
      exec i s = .next (s.afterLoss c l
        [startEvent s.own, .txByte s.msa false, .txLost s.mdrTx] ws)) ∧
  (∀ (i : Instr) (c : Ctl) (s : State) (w : Wave) (ws : List Wave),
    controlWordOf i = some c → ctlRunBit c = true → ctlStartBit c = false →
    s.busy = false → s.mfe = true → s.own = .tx →
    s.slave = .scripted (w :: ws) → w.tx s.mdrTx = some .lost →
    ∃ l : Line, l.sclO = true ∧ l.sdaO = true ∧
      exec i s = .next (s.afterLoss c l [.txLost s.mdrTx] ws))

/-- R55 to R57, R107: which transmitted bytes can lose arbitration: a byte of zeros never, and in any other
byte a slave that pulls SDA low from the first cell on wins. -/
def Obligations.WhichBytesCanLose : Prop :=
  (∀ w : Wave, w.tx 0x00 ≠ some .lost) ∧
  (∀ v : Byte, v ≠ 0 → Wave.tx (List.replicate 9 Pulse.low) v = some .lost) ∧
  (∀ (w : Wave) (v : Byte), w.tx v = some .lost → ∃ k < 8, v.getMsbD k = true ∧
    (∃ p, w[k]? = some p ∧ p.sda = false))

/-! ### SEND_BYTE and RECV_BYTE -/

/-- R123: SEND_BYTE with START and RUN and `MSA.RS = 0`, every byte acknowledged.
Of the lines the rules give the two drivers; the values of `SHIFT`, `BITCNT`, `PSC` and `TICKCNT` after
the operation are the model's choice (logs 2 and 12). -/
def Obligations.SendByteOpensTransaction : Prop :=
  ∀ (d : Byte) (c : Ctl) (s : State) (w x y : Wave) (ws : List Wave),
    s.ready = true → ctlRunBit c = true → ctlStartBit c = true → msaRead s.msa = false →
    s.slave = .scripted (w :: x :: y :: ws) → w.proceeds = true → x.tx s.msa = some .ack →
    y.tx d = some .ack → stopProceeds c ws = true →
    exec (.sendByte d c) s = .next ({ s with mdrTx := d, executing := false, rsp := 0, rspValid := true
      }.afterByte c .tx 0 false false
        [startEvent s.own, .txByte s.msa false, .txByte d false] ws)

/-- R123, R124: SEND_BYTE with RUN and no START in a transaction addressed for write, the byte acknowledged;
and SEND_BYTE and RECV_BYTE with STOP and no RUN, which transfer nothing and close the transaction: they
answer `Ok`, RECV_BYTE with the byte `MDR_RX` held, or with flags that an earlier operation left, those
flags (R86 step 4, R173). Of the lines the rules give the two drivers; the values of `SHIFT`, `BITCNT`,
`PSC` and `TICKCNT` after the operation are the model's choice (logs 2, 12 and 17). -/
def Obligations.SendByteContinues : Prop :=
  (∀ (d : Byte) (c : Ctl) (s : State) (w : Wave) (ws : List Wave),
    s.ready = true → ctlRunBit c = true → ctlStartBit c = false → s.own = .tx →
    s.slave = .scripted (w :: ws) → w.tx d = some .ack → stopProceeds c ws = true →
    exec (.sendByte d c) s = .next ({ s with mdrTx := d, executing := false, rsp := 0, rspValid := true
      }.afterByte c .tx 0 false false [.txByte d false] ws)) ∧
  (∀ (c : Ctl) (s : State) (w : Wave) (ws : List Wave),
    s.ready = true → ctlRunBit c = false → ctlStopBit c = true → s.own ≠ .idle →
    s.slave = .scripted (w :: ws) → w.proceeds = true →
    (s.errors = 0 →
      (∀ d : Byte, exec (.sendByte d c) s = .next ({ s with
        mdrTx := d, executing := false, rsp := 0, rspValid := true }.afterStopAlone c ws)) ∧
      exec (.recvByte c) s = .next ({ s with
        executing := false, rsp := s.mdrRx.setWidth 32, rspValid := true }.afterStopAlone c ws)) ∧
    (s.errors ≠ 0 →
      (∀ d : Byte, exec (.sendByte d c) s = .next ({ s with
        mdrTx := d, executing := false, rsp := (Response.err s.errors).word, rspValid := true
        }.afterStopAlone 0x4 ws)) ∧
      exec (.recvByte c) s = .next ({ s with
        executing := false, rsp := (Response.err s.errors).word, rspValid := true
        }.afterStopAlone 0x4 ws)))

/-- R124: RECV_BYTE with START and RUN and `MSA.RS = 1`, the address acknowledged; and RECV_BYTE with RUN
and no START in a transaction addressed for read.
Of the lines the rules give the two drivers; the values of `SHIFT`, `BITCNT`, `PSC` and `TICKCNT` after
the operation are the model's choice (logs 2 and 12). -/
def Obligations.RecvByteReceives : Prop :=
  (∀ (c : Ctl) (s : State) (w x y : Wave) (ws : List Wave) (v : Byte),
    s.ready = true → ctlRunBit c = true → ctlStartBit c = true → msaRead s.msa = true →
    s.slave = .scripted (w :: x :: y :: ws) → w.proceeds = true → x.tx s.msa = some .ack →
    y.rx = some v → stopProceeds c ws = true →
    exec (.recvByte c) s = .next ({ s with
      mdrRx := v, executing := false, rsp := v.setWidth 32, rspValid := true }.afterByte c .rx v false false
        [startEvent s.own, .txByte s.msa false, .rxByte v (!ctlAckBit c)] ws)) ∧
  (∀ (c : Ctl) (s : State) (w : Wave) (ws : List Wave) (v : Byte),
    s.ready = true → ctlRunBit c = true → ctlStartBit c = false → s.own = .rx →
    s.slave = .scripted (w :: ws) → w.rx = some v → stopProceeds c ws = true →
    exec (.recvByte c) s = .next ({ s with
      mdrRx := v, executing := false, rsp := v.setWidth 32, rspValid := true }.afterByte c .rx v false false [.rxByte v (!ctlAckBit c)] ws))

/-- R123, R124, R148, R154: an address byte not acknowledged: one Stop, whether the control word had STOP
or not, and the response 0x83000000.
Of the lines the rules give the two drivers; the values of `SHIFT`, `BITCNT`, `PSC` and `TICKCNT` after
the operation are the model's choice (logs 2, 12 and 17). -/
def Obligations.ByteCommandAddressNack : Prop :=
  ∀ (i : Instr) (c : Ctl) (m : Byte) (s : State) (w x y : Wave) (ws : List Wave),
    (i = .sendByte m c ∨ (i = .recvByte c ∧ m = s.mdrTx)) →
    s.ready = true → ctlRunBit c = true → ctlStartBit c = true →
    s.slave = .scripted (w :: x :: y :: ws) → w.proceeds = true → x.tx s.msa = some .nack →
    y.proceeds = true →
    exec i s = .next ({ s with mdrTx := m, executing := false, rsp := 0x83000000, rspValid := true
      }.afterAbort true false [startEvent s.own, .txByte s.msa true] ws)

/-- R123, R130, R149, R154: a data byte not acknowledged, after an address byte or in an open transaction,
sent by SEND_BYTE, or by a RECV_BYTE that transmits: one Stop, whether the control word had STOP or not,
and the response 0x85000000. Of the lines the rules give the two drivers; the values of `SHIFT`, `BITCNT`,
`PSC` and `TICKCNT` after the operation are the model's choice (logs 2, 12 and 17). -/
def Obligations.SendByteDataNack : Prop :=
  (∀ (i : Instr) (c : Ctl) (m : Byte) (s : State) (w x y z : Wave) (ws : List Wave),
    (i = .sendByte m c ∨ (i = .recvByte c ∧ m = s.mdrTx)) →
    s.ready = true → ctlRunBit c = true → ctlStartBit c = true → msaRead s.msa = false →
    s.slave = .scripted (w :: x :: y :: z :: ws) → w.proceeds = true → x.tx s.msa = some .ack →
    y.tx m = some .nack → z.proceeds = true →
    exec i s = .next ({ s with mdrTx := m, executing := false, rsp := 0x85000000, rspValid := true
      }.afterAbort false true [startEvent s.own, .txByte s.msa false, .txByte m true] ws)) ∧
  (∀ (i : Instr) (c : Ctl) (m : Byte) (s : State) (w x : Wave) (ws : List Wave),
    (i = .sendByte m c ∨ (i = .recvByte c ∧ m = s.mdrTx)) →
    s.ready = true → ctlRunBit c = true → ctlStartBit c = false → s.own = .tx →
    s.slave = .scripted (w :: x :: ws) → w.tx m = some .nack → x.proceeds = true →
    exec i s = .next ({ s with mdrTx := m, executing := false, rsp := 0x85000000, rspValid := true
      }.afterAbort false true [.txByte m true] ws))

/-- R115, R150, R154: arbitration lost under a byte command, in the address byte, in the data byte after
it, or in a data byte of an open transaction: the response 0x81000000, the lines released and no Stop: the forced
one finds the engine idle. The counters of the line state are left free. -/
def Obligations.ByteCommandArbitrationLoss : Prop :=
  (∀ (i : Instr) (c : Ctl) (m : Byte) (s : State) (w x : Wave) (ws : List Wave),
    (i = .sendByte m c ∨ (i = .recvByte c ∧ m = s.mdrTx)) →
    s.ready = true → ctlRunBit c = true → ctlStartBit c = true →
    s.slave = .scripted (w :: x :: ws) → w.proceeds = true → x.tx s.msa = some .lost →
    ∃ l : Line, l.sclO = true ∧ l.sdaO = true ∧
      exec i s = .next ({ s with mdrTx := m, executing := false, rsp := 0x81000000, rspValid := true
        }.afterLoss 0x4 l [startEvent s.own, .txLost s.msa] ws)) ∧
  (∀ (i : Instr) (c : Ctl) (m : Byte) (s : State) (w x y : Wave) (ws : List Wave),
    (i = .sendByte m c ∨ (i = .recvByte c ∧ m = s.mdrTx)) →
    s.ready = true → ctlRunBit c = true → ctlStartBit c = true → msaRead s.msa = false →
    s.slave = .scripted (w :: x :: y :: ws) → w.proceeds = true → x.tx s.msa = some .ack →
    y.tx m = some .lost →
    ∃ l : Line, l.sclO = true ∧ l.sdaO = true ∧
      exec i s = .next ({ s with mdrTx := m, executing := false, rsp := 0x81000000, rspValid := true
        }.afterLoss 0x4 l [startEvent s.own, .txByte s.msa false, .txLost m] ws)) ∧
  (∀ (i : Instr) (c : Ctl) (m : Byte) (s : State) (w : Wave) (ws : List Wave),
    (i = .sendByte m c ∨ (i = .recvByte c ∧ m = s.mdrTx)) →
    s.ready = true → ctlRunBit c = true → ctlStartBit c = false → s.own = .tx →
    s.slave = .scripted (w :: ws) → w.tx m = some .lost →
    ∃ l : Line, l.sclO = true ∧ l.sdaO = true ∧
      exec i s = .next ({ s with mdrTx := m, executing := false, rsp := 0x81000000, rspValid := true
        }.afterLoss 0x4 l [.txLost m] ws))

/-- R86 steps 2 and 3, R123, R124, R173, R180: a byte command whose control word starts no operation, on an
idle or an owned bus, puts nothing on the bus and answers at once when no flag is set. Flags that an
earlier operation left are reported again, with a forced STOP: on an idle bus it does nothing, and an
owned bus it releases with one Stop. `PSC` and `TICKCNT` after that Stop are the model's choice (logs 2, 12
and 17). -/
def Obligations.ByteCommandWithNothingToDo : Prop :=
  ∀ (c : Ctl) (s : State), s.ready = true →
    ((ctlRunBit c = false ∧ (ctlStopBit c = false ∨ s.own = .idle)) ∨
      (ctlStartBit c = false ∧ s.own = .idle)) →
    (s.errors = 0 →
      (∀ d : Byte, exec (.sendByte d c) s = .next { s with
        mdrTx := d, ctl := c, executing := false, rsp := 0, rspValid := true }) ∧
      exec (.recvByte c) s = .next { s with
        ctl := c, executing := false, rsp := s.mdrRx.setWidth 32, rspValid := true }) ∧
    (s.errors ≠ 0 → s.own = .idle →
      (∀ d : Byte, exec (.sendByte d c) s = .next { s with
        mdrTx := d, ctl := 0x4, executing := false, rsp := (Response.err s.errors).word,
        rspValid := true }) ∧
      exec (.recvByte c) s = .next { s with
        ctl := 0x4, executing := false, rsp := (Response.err s.errors).word, rspValid := true }) ∧
    (s.errors ≠ 0 → s.own ≠ .idle → ∀ (w : Wave) (ws : List Wave),
      s.slave = .scripted (w :: ws) → w.proceeds = true →
      (∀ d : Byte, exec (.sendByte d c) s = .next ({ s with
        mdrTx := d, executing := false, rsp := (Response.err s.errors).word, rspValid := true
        }.afterStopAlone 0x4 ws)) ∧
      exec (.recvByte c) s = .next ({ s with
        executing := false, rsp := (Response.err s.errors).word, rspValid := true
        }.afterStopAlone 0x4 ws))

/-- R130: the four ways in which name and effect of a byte command disagree (93 U8): a SEND_BYTE that
receives, with and without a Start, and a RECV_BYTE that sends the byte `MDR_TX` held and answers with the
byte `MDR_RX` held, with and without a Start. Of the lines the rules give the two drivers; the values of
`SHIFT`, `BITCNT`, `PSC` and `TICKCNT` after the operation are the model's choice (logs 2 and 12). -/
def Obligations.MisnamedTransfers : Prop :=
  (∀ (d : Byte) (c : Ctl) (s : State) (w : Wave) (ws : List Wave) (v : Byte),
    s.ready = true → ctlRunBit c = true → ctlStartBit c = false → s.own = .rx →
    s.slave = .scripted (w :: ws) → w.rx = some v → stopProceeds c ws = true →
    exec (.sendByte d c) s = .next ({ s with
      mdrTx := d, mdrRx := v, executing := false, rsp := 0, rspValid := true }.afterByte c .rx v false false [.rxByte v (!ctlAckBit c)] ws)) ∧
  (∀ (d : Byte) (c : Ctl) (s : State) (w x y : Wave) (ws : List Wave) (v : Byte),
    s.ready = true → ctlRunBit c = true → ctlStartBit c = true → msaRead s.msa = true →
    s.slave = .scripted (w :: x :: y :: ws) → w.proceeds = true → x.tx s.msa = some .ack →
    y.rx = some v → stopProceeds c ws = true →
    exec (.sendByte d c) s = .next ({ s with
      mdrTx := d, mdrRx := v, executing := false, rsp := 0, rspValid := true }.afterByte c .rx v false false
        [startEvent s.own, .txByte s.msa false, .rxByte v (!ctlAckBit c)] ws)) ∧
  (∀ (c : Ctl) (s : State) (w : Wave) (ws : List Wave),
    s.ready = true → ctlRunBit c = true → ctlStartBit c = false → s.own = .tx →
    s.slave = .scripted (w :: ws) → w.tx s.mdrTx = some .ack → stopProceeds c ws = true →
    exec (.recvByte c) s = .next ({ s with executing := false, rsp := s.mdrRx.setWidth 32, rspValid := true
      }.afterByte c .tx 0 false false [.txByte s.mdrTx false] ws)) ∧
  (∀ (c : Ctl) (s : State) (w x y : Wave) (ws : List Wave),
    s.ready = true → ctlRunBit c = true → ctlStartBit c = true → msaRead s.msa = false →
    s.slave = .scripted (w :: x :: y :: ws) → w.proceeds = true → x.tx s.msa = some .ack →
    y.tx s.mdrTx = some .ack → stopProceeds c ws = true →
    exec (.recvByte c) s = .next ({ s with executing := false, rsp := s.mdrRx.setWidth 32, rspValid := true
      }.afterByte c .tx 0 false false
        [startEvent s.own, .txByte s.msa false, .txByte s.mdrTx false] ws))

/-- R126, C6: whatever engine runs under it, a byte transfer whose control write ends reads the flags then: it
succeeds when none is set, and RECV_BYTE reads `MDR_RX`; when one is set it runs the forced STOP and fails
with those flags and no data. A control write that does not end hangs it. -/
def Obligations.ErrorTestOverAnyEngine : Prop :=
  ∀ (eng : Engine) (c : Ctl) (s : State), s.busy = false →
    (let t := eng c s
     (t.busy = true → recvOp eng c s = .hang t) ∧
     (t.busy = false → t.errors = 0 → recvOp eng c s = .done (.ok t.mdrRx) t) ∧
     (t.busy = false → t.errors ≠ 0 → (eng 0x4 t).busy = false →
       recvOp eng c s = .done (.err t.errors) (eng 0x4 t)) ∧
     (t.busy = false → t.errors ≠ 0 → (eng 0x4 t).busy = true →
       recvOp eng c s = .hang (eng 0x4 t))) ∧
    ∀ d : Byte,
      let t := eng c { s with mdrTx := d }
      (t.busy = true → sendOp eng d c s = .hang t) ∧
      (t.busy = false → t.errors = 0 → sendOp eng d c s = .done (.ok ()) t) ∧
      (t.busy = false → t.errors ≠ 0 → (eng 0x4 t).busy = false →
        sendOp eng d c s = .done (.err t.errors) (eng 0x4 t)) ∧
      (t.busy = false → t.errors ≠ 0 → (eng 0x4 t).busy = true →
        sendOp eng d c s = .hang (eng 0x4 t))

/-! ### READ_REG and WRITE_REG16 -/

/-- R132, R139, R143: READ_REG with every byte acknowledged, from an idle or an owned bus.
Of the lines the rules give the two drivers; the values of `SHIFT`, `BITCNT`, `PSC` and `TICKCNT` after
the operation are the model's choice (logs 2 and 12). -/
def Obligations.ReadRegResult : Prop :=
  ∀ (r hi lo : Byte) (s : State) (w₁ w₂ w₃ w₄ w₅ w₆ w₇ w₈ : Wave) (ws : List Wave),
    s.ready = true →
    s.slave = .scripted (w₁ :: w₂ :: w₃ :: w₄ :: w₅ :: w₆ :: w₇ :: w₈ :: ws) →
    w₁.proceeds = true → w₂.tx (s.msa &&& 0xFE) = some .ack → w₃.tx r = some .ack →
    w₄.proceeds = true → w₅.tx (s.msa ||| 0x01) = some .ack → w₆.rx = some hi → w₇.rx = some lo →
    w₈.proceeds = true →
    exec (.readReg r) s = .next { s with
      msa := s.msa ||| 0x01, ctl := 0x5, error := false, adrack := false, datack := false,
      mdrTx := r, mdrRx := lo, own := .idle, line := Line.stoppedWith lo, seq := .idle, rega := r,
      hi := hi, lo := lo, executing := false,
      rsp := hi.setWidth 32 <<< 8 ||| lo.setWidth 32, rspValid := true,
      trace := s.trace ++ [startEvent s.own, .txByte (s.msa &&& 0xFE) false, .txByte r false,
        .repStart, .txByte (s.msa ||| 0x01) false, .rxByte hi false, .rxByte lo true, .stop],
      slave := .scripted ws }

/-- R133, R140, R143: WRITE_REG16 with every byte acknowledged, from an idle or an owned bus.
Of the lines the rules give the two drivers; the values of `SHIFT`, `BITCNT`, `PSC` and `TICKCNT` after
the operation are the model's choice (logs 2 and 12). -/
def Obligations.WriteReg16Result : Prop :=
  ∀ (r : Byte) (v : Half) (s : State) (w₁ w₂ w₃ w₄ w₅ w₆ : Wave) (ws : List Wave),
    s.ready = true → s.slave = .scripted (w₁ :: w₂ :: w₃ :: w₄ :: w₅ :: w₆ :: ws) →
    w₁.proceeds = true → w₂.tx (s.msa &&& 0xFE) = some .ack → w₃.tx r = some .ack →
    w₄.tx (v.extractLsb' 8 8) = some .ack → w₅.tx (v.extractLsb' 0 8) = some .ack →
    w₆.proceeds = true →
    exec (.writeReg16 r v) s = .next { s with
      msa := s.msa &&& 0xFE, ctl := 0x5, error := false, adrack := false, datack := false,
      mdrTx := v.extractLsb' 0 8, own := .idle, line := Line.stoppedWith 0, seq := .idle,
      rega := r, val := v, executing := false, rsp := 0, rspValid := true,
      trace := s.trace ++ [startEvent s.own, .txByte (s.msa &&& 0xFE) false, .txByte r false,
        .txByte (v.extractLsb' 8 8) false, .txByte (v.extractLsb' 0 8) false, .stop],
      slave := .scripted ws }

/-- R141: in every state of the two sequences an error takes `SEQ` to Idle and ends the command with that
error; nothing else of the state changes, and no later step runs. -/
def Obligations.ErrorCollapse : Prop :=
  ∀ (eng : Engine) (r : Byte) (v : Half) (f : BitVec 3) (s t u x : State),
    let first := sendOp eng r 0x3 { s with rega := r, msa := mergeDir s.msa false }
    let wfirst := sendOp eng r 0x3 { s with rega := r, val := v, msa := mergeDir s.msa false }
    (first = .done (.err f) t → readRegOp eng r s = .done (.err f) { t with seq := .idle }) ∧
    (first = .done (.ok ()) t →
      recvOp eng 0xB { t with msa := mergeDir t.msa true, seq := .directionSwitched } =
        .done (.err f) u →
      readRegOp eng r s = .done (.err f) { u with seq := .idle }) ∧
    (∀ b : Byte, first = .done (.ok ()) t →
      recvOp eng 0xB { t with msa := mergeDir t.msa true, seq := .directionSwitched } =
        .done (.ok b) u →
      recvOp eng 0x5 { u with hi := b, seq := .msbReceived } = .done (.err f) x →
      readRegOp eng r s = .done (.err f) { x with seq := .idle }) ∧
    (wfirst = .done (.err f) t → writeRegOp eng r v s = .done (.err f) { t with seq := .idle }) ∧
    (wfirst = .done (.ok ()) t →
      sendOp eng (hiByte t.val) 0x1 { t with seq := .wAddressWritten } = .done (.err f) u →
      writeRegOp eng r v s = .done (.err f) { u with seq := .idle }) ∧
    (wfirst = .done (.ok ()) t →
      sendOp eng (hiByte t.val) 0x1 { t with seq := .wAddressWritten } = .done (.ok ()) u →
      sendOp eng (loByte u.val) 0x5 { u with seq := .wMsbSent } = .done (.err f) x →
      writeRegOp eng r v s = .done (.err f) { x with seq := .idle }) ∧
    (s.ready = true → readRegOp engine r { s with executing := true, rspValid := false } =
        .done (.err f) t →
      exec (.readReg r) s = .next { t with
        executing := false, rsp := (Response.err f).word, rspValid := true }) ∧
    (s.ready = true → writeRegOp engine r v { s with executing := true, rspValid := false } =
        .done (.err f) t →
      exec (.writeReg16 r v) s = .next { t with
        executing := false, rsp := (Response.err f).word, rspValid := true })

/-- R142, T-S7: a READ_REG or WRITE_REG16 that began with the engine idle and ends, in whatever way, leaves
it idle and has added exactly one Start, first, and exactly one Stop or TxLost, last. -/
def Obligations.StopPairing : Prop :=
  ∀ (i : Instr) (s t : State),
    ((∃ r, i = .readReg r) ∨ ∃ r v, i = .writeReg16 r v) → s.ready = true → s.own = .idle →
    exec i s = .next t → t.executing = false →
    t.own = .idle ∧ t.busy = false ∧ t.seq = .idle ∧
    ∃ (es : List BusEvent) (e : BusEvent), t.trace = s.trace ++ .start :: (es ++ [e]) ∧
      isClosing e = true ∧ es.all (fun e => !isStart e && !isClosing e) = true

/-- R68, R69, R153, R158, R178: a bus command that ends with an error answers with one of the three flag sets
and no data, and the flags stay readable in the status word. -/
def Obligations.ErrorResponses : Prop :=
  ∀ (i : Instr) (s t : State), s.Inv → s.ready = true → isBusCommand i = true →
    exec i s = .next t → t.executing = false → t.rsp.getLsbD 31 = true →
    (t.errors = 0b011 ∨ t.errors = 0b101 ∨ t.errors = 0b001) ∧ t.rspValid = true ∧
    t.rsp.extractLsb' 24 3 = t.errors ∧ t.rsp.getLsbD 30 = false ∧ t.rsp.extractLsb' 27 3 = 0 ∧
    t.rsp.extractLsb' 0 24 = 0

/-! ### Taking a BusError, and hanging -/

/-- R154: the byte-level abort. (1) to (4): over any engine the flags are kept, the forced STOP is the one
control write that follows, it is waited for, and the operation ends with the kept flags. After it: the bus
is released, the flags are still those of the failed operation, `MDR_TX` holds the byte that was to be
sent, and `MDR_RX` and `MSA` are unchanged. -/
def Obligations.ByteLevelAbort : Prop :=
  (∀ (eng : Engine) (k : State → Run (Xfer Byte)) (s : State), s.busy = false → s.errors ≠ 0 →
    errorTest eng k s =
      if (eng 0x4 s).busy then .hang (eng 0x4 s) else .done (.err s.errors) (eng 0x4 s)) ∧
  (∀ (i : Instr) (c : Ctl) (m : Byte) (s t : State),
    (i = .sendByte m c ∨ (i = .recvByte c ∧ m = s.mdrTx)) → s.Inv → s.ready = true →
    exec i s = .next t → t.executing = false → t.rsp.getLsbD 31 = true →
    t.own = .idle ∧ t.line.sclO = true ∧ t.line.sdaO = true ∧ t.busy = false ∧
    t.rsp.extractLsb' 24 3 = t.errors ∧ t.errors ≠ 0 ∧
    t.errors = (engine c { s with mdrTx := m, executing := true, rspValid := false }).errors ∧
    t.mdrTx = m ∧ t.mdrRx = s.mdrRx ∧ t.msa = s.msa ∧ t.ctl = 0x4) ∧
  (∀ (c : Ctl) (e a k : Bool) (s : State), s.mfe = true → ctlRunBit c = true →
    (ctlStartBit c = true ∨ s.own ≠ .idle) →
    engine c { s with error := e, adrack := a, datack := k } = engine c s)

/-- R160: a command whose engine operation never ends produces no response: `EXEC` and `BUSY` stay 1 and
`cmd_ready` 0 whatever the command port then carries, and only `rst` ends it; and it does happen, to every
bus command, when the slave never lets SCL rise. -/
def Obligations.Hang : Prop :=
  (∀ (i : Instr) (s t : State) (rest : List PortInput), s.ready = true → isBusCommand i = true →
    exec i s = .next t → t.busy = true →
    t.executing = true ∧ t.cmdReady = false ∧ t.rspValid = false ∧
    step { t with inputs := .idle :: rest } = .next { t with inputs := rest } ∧
    (∀ w : Word, step { t with inputs := .word (.command w) :: rest } =
      .next { t with inputs := rest }) ∧
    (∃ u, step { t with inputs := .rst :: rest } = .next u ∧ u.executing = false ∧
      u.cmdReady = true ∧ u.busy = false)) ∧
  (∀ (i : Instr) (s : State) (w : Wave) (ws : List Wave), s.ready = true →
    ((∃ r, i = .readReg r) ∨ (∃ r v, i = .writeReg16 r v) ∨
      ∃ c : Ctl, ctlRunBit c = true ∧ ctlStartBit c = true ∧ (i = .recvByte c ∨ ∃ d, i = .sendByte d c)) →
    s.slave = .scripted (w :: ws) → w.proceeds = false →
    ∃ t, exec i s = .next t ∧ t.busy = true ∧ t.executing = true ∧ t.trace = s.trace)

/-- R125, R160: a premise on the slave is all that termination needs: if it never holds SCL low for ever,
every bus command ends, with a response. -/
def Obligations.EndsUnlessTheSlaveStalls : Prop :=
  ∀ (i : Instr) (s : State), s.ready = true → isBusCommand i = true → s.slave.answers = true →
    ∃ t, exec i s = .next t ∧ t.executing = false ∧ t.busy = false ∧ t.rspValid = true

/-! ### Invariants and rules about every instruction -/

/-- R168: the reset state meets the invariant. -/
def Obligations.ResetMeetsInvariant : Prop := State.reset.Inv

/-- R20, R25, R27, R28, R30, R37, R118, R153: every step keeps the invariant of the block. -/
def Obligations.StepKeepsInvariant : Prop :=
  ∀ s t : State, s.Inv → step s = .next t → t.Inv

/-- R118 c: up to any point of a trace that follows the bus protocol there are no more Stops than Starts;
and so it is with `TRACE` in every state that meets the invariant. -/
def Obligations.StopsNeverExceedStarts : Prop :=
  (∀ (t : List BusEvent) (n : Nat), traceOk t = true →
    ((t.take n).filter isStop).length ≤ ((t.take n).filter isStart).length) ∧
  (∀ (s : State) (n : Nat), s.Inv →
    ((s.trace.take n).filter isStop).length ≤ ((s.trace.take n).filter isStart).length)

/-- R13, R16, R23 to R26, R30 to R32, R36: which instructions write which registers: every instruction
leaves the port samples alone and only appends to the trace; the divider and the enable change only by INIT,
`TFLAGS` only by DECODE_TEMP, the sequencer's registers only by the sequences, `MDR_TX` only by a command
that sends, the address only by SET_ADDR and the direction bit only by SET_DIR and the sequences; and a
control word touches no register but the engine's. -/
def Obligations.WhoWritesWhat : Prop :=
  ∀ (i : Instr) (s t : State), exec i s = .next t →
    t.inputs = s.inputs ∧ (∃ es, t.trace = s.trace ++ es) ∧
    (i ≠ .init → t.mfe = s.mfe ∧ t.tpr = s.tpr) ∧
    ((∀ v, i ≠ .decodeTemp v) → t.tflags = s.tflags) ∧
    ((∀ r, i ≠ .readReg r) → t.hi = s.hi ∧ t.lo = s.lo) ∧
    ((∀ r v, i ≠ .writeReg16 r v) → t.val = s.val) ∧
    ((∀ r, i ≠ .readReg r) → (∀ r v, i ≠ .writeReg16 r v) → t.rega = s.rega ∧ t.seq = s.seq) ∧
    ((∀ d c, i ≠ .sendByte d c) → (∀ r, i ≠ .readReg r) → (∀ r v, i ≠ .writeReg16 r v) →
      t.mdrTx = s.mdrTx) ∧
    ((∀ a, i ≠ .setAddr a) → msaAddr t.msa = msaAddr s.msa ∧ t.addrSet = s.addrSet) ∧
    ((∀ d, i ≠ .setDir d) → (∀ r, i ≠ .readReg r) → (∀ r v, i ≠ .writeReg16 r v) →
      msaRead t.msa = msaRead s.msa) ∧
    (isBusCommand i = false → isCommand i = true →
      t.trace = s.trace ∧ t.ctl = s.ctl ∧ t.errors = s.errors ∧ t.busy = s.busy ∧ t.own = s.own ∧
      t.mdrRx = s.mdrRx ∧ t.line = s.line ∧ t.slave = s.slave) ∧
    (isCommand i = false → sameBesidesEngine s t)

/-- R86 to R90, R123, R124, R130, R172: a byte command used as the spec advises, and answered with `Ok`,
moved the byte its name says: the last byte on the bus is the operand, or the answer. What counts as
advised, `State.advised`, is the model's reading of 93 U5, U6, U8 and U9 (log 6). -/
def Obligations.AdvisedUseMovesTheByte : Prop :=
  (∀ (d : Byte) (c : Ctl) (s t : State), s.ready = true → s.advised (.sendByte d c) = true →
    ctlRunBit c = true → exec (.sendByte d c) s = .next t → t.executing = false → t.rsp = 0 →
    ∃ es, t.trace = s.trace ++ es ++ .txByte d false :: (if ctlStopBit c then [.stop] else [])) ∧
  (∀ (c : Ctl) (s t : State), s.ready = true → s.advised (.recvByte c) = true →
    exec (.recvByte c) s = .next t → t.executing = false → t.rsp.getLsbD 31 = false →
    ∃ es v, t.rsp = BitVec.setWidth 32 v ∧
      t.trace = s.trace ++ es ++ .rxByte v (!ctlAckBit c) :: (if ctlStopBit c then [.stop] else []))

/-! ### The two levels of the engine, and time -/

/-- R57, R107 to R111, R114: the engine on the lines, seen at the symbol level, is the symbol-level
engine: nothing but the line-level state is lost by working from the slave's answers alone. -/
def Obligations.LineLevelRefinesSymbolLevel : Prop :=
  ∀ (c : Ctl) (s : State), (engine c s).symbolView = (symbolEngine c s).symbolView

/-- R57, R132, R133: the same of the two sequences: over the line-level engine and over the symbol-level one
they answer the same. -/
def Obligations.SequencesNeedOnlySymbols : Prop :=
  ∀ (r : Byte) (v : Half) (s : State),
    viewRun (readRegOp engine r s) = viewRun (readRegOp symbolEngine r s) ∧
    viewRun (writeRegOp engine r v s) = viewRun (writeRegOp symbolEngine r v s)

/-- R114, R182: a finite stretch is invisible: no instruction answers differently when every finite stretch
of a scripted slave is taken out. -/
def Obligations.FiniteStretchInvisible : Prop :=
  ∀ (i : Instr) (s : State), exec i s.unstretched = unstretchedResult (exec i s)

/-- R113, R29: `n` ticks are `n * 2 * (TPR + 1)` edges of `clk`: the prescaler is back at 0 and the tick
counter has gone on by `n`. -/
def Obligations.TicksOfTheDivider : Prop :=
  ∀ (tpr : BitVec 7) (n : Nat) (l : Line), l.psc = 0 →
    Line.clkEdges tpr (n * (2 * (tpr.toNat + 1))) l =
      { l with tickcnt := l.tickcnt + BitVec.ofNat 4 n }

/-! ### The reference sensor -/

/-- R58 to R61: against the reference sensor, WRITE_REG16 to one of its three writable registers and then
READ_REG of the same one answers with the value written. -/
def Obligations.SensorKeepsWhatIsWritten : Prop :=
  ∀ (r : Byte) (v : Half) (s : State) (q : Sensor), s.ready = true → s.own = .idle →
    msaAddr s.msa = 0x18 → s.slave = .sensor q → (r = 0x01 ∨ r = 0x02 ∨ r = 0x03) →
    ∃ t u, exec (.writeReg16 r v) s = .next t ∧ t.rsp = 0 ∧
      exec (.readReg r) t = .next u ∧ u.rsp = v.setWidth 32
end

