-- ==== Sys2Proof/Laws/Bus.lean ====
section
/-! SUPPORT. What the named waves answer (spec/20_memory.md R57, R58). -/

namespace Sys2Proof.Machine

theorem Wave.quiet_proceeds : Wave.quiet.proceeds = true := rfl

@[simp] theorem Wave.now_nil : Wave.now [] = Pulse.released := rfl

@[simp] theorem Wave.now_cons (p : Pulse) (w : Wave) : Wave.now (p :: w) = p := rfl

/-- A slave that leaves both lines alone does not acknowledge. -/
theorem Wave.txCells_quiet (n : Nat) (v : Byte) : Wave.txCells n v [] = some .nack := by
  induction n generalizing v with
  | zero => rfl
  | succ n ih => simp [Wave.txCells, Wave.now, Pulse.released, ih]

theorem Wave.quiet_tx (v : Byte) : Wave.quiet.tx v = some .nack := Wave.txCells_quiet 8 v

/-- A slave that pulls SDA low in the ninth cell alone acknowledges. -/
theorem Wave.acks_tx (v : Byte) : Wave.acks.tx v = some .ack := by
  simp [Wave.tx, Wave.acks, Wave.txCells, Wave.now, Pulse.released, Pulse.low, List.replicate]

/-- The supplied byte is the byte received. -/
theorem Wave.supplies_rx (v : Byte) : (Wave.supplies v).rx = some v := by
  simp only [Wave.rx, Wave.supplies, Wave.rxCells, Wave.now, List.headD_cons, List.tail_cons,
    Option.isNone_some, Bool.false_eq_true, if_false, List.headD_nil, Pulse.released]
  congr 1
  apply BitVec.eq_of_getLsbD_eq
  intro i hi
  have : i = 0 ∨ i = 1 ∨ i = 2 ∨ i = 3 ∨ i = 4 ∨ i = 5 ∨ i = 6 ∨ i = 7 := by omega
  rcases this with h | h | h | h | h | h | h | h <;> subst h <;>
    simp

end Sys2Proof.Machine
end

