-- ==== Sys2Proof/Laws/LineLevel.lean ====
section
/-! SUPPORT. What each symbol does at the line level: its answer is the symbol-level answer of the
slave's wave (spec/20_memory.md R57), and it leaves the lines as spec/40_engine.md R107 to R112
say. -/

namespace Sys2Proof.Machine

@[simp] theorem Res.bind_done {σ α β : Type} (a : α) (s : σ) (k : α → σ → Res σ β) :
    (Res.done a s).bind k = k a s := rfl

@[simp] theorem Res.bind_stall {σ α β : Type} (s : σ) (k : α → σ → Res σ β) :
    (Res.stall s : Res σ α).bind k = .stall s := rfl

@[simp] theorem Res.state_done {σ α : Type} (a : α) (s : σ) : (Res.done a s).state = s := rfl

@[simp] theorem Res.state_stall {σ α : Type} (s : σ) : (Res.stall s : Res σ α).state = s := rfl

/-- A bit cell: it stalls with SCL released, or samples the line and ends with SCL low (R112). -/
theorem bitCell_eq (d : Bool) (p : Pulse) (l : Line) :
    bitCell d p l =
      if p.stretch.isNone then
        .stall { l with sdaO := d, sclO := true, psc := 0, tickcnt := 0 }
      else .done (d && p.sda) { l with sdaO := d, sclO := false, psc := 0, tickcnt := 1 } := by
  by_cases h : p.stretch.isNone <;>
    simp [bitCell, runSteps, bitCellSteps, LineStep.run, LineStep.drive, Line.waitTicks, lineLevel, h]

/-- The Start steps: they end with both lines low (R109). -/
theorem lineCondition_start (w : Wave) (l : Line) :
    lineCondition startSteps w l =
      if w.proceeds then .done () { l with sdaO := false, sclO := false, psc := 0, tickcnt := 1 }
      else .stall { l with psc := 0, tickcnt := 0 } := by
  cases h : w.now.stretch <;>
    simp [lineCondition, Wave.proceeds, runSteps, startSteps, LineStep.run, LineStep.drive,
      Line.waitTicks, h]

/-- The repeated Start steps: they end with both lines low (R110). -/
theorem lineCondition_repStart (w : Wave) (l : Line) :
    lineCondition repStartSteps w l =
      if w.proceeds then .done () { l with sdaO := false, sclO := false, psc := 0, tickcnt := 1 }
      else .stall { l with sdaO := true, sclO := true, psc := 0, tickcnt := 0 } := by
  cases h : w.now.stretch <;>
    simp [lineCondition, Wave.proceeds, runSteps, repStartSteps, LineStep.run, LineStep.drive,
      Line.waitTicks, h]

/-- The Stop steps: they end with both lines released (R111). -/
theorem lineCondition_stop (w : Wave) (l : Line) :
    lineCondition stopSteps w l =
      if w.proceeds then .done () { l with sdaO := true, sclO := true, psc := 0, tickcnt := 5 }
      else .stall { l with sdaO := false, sclO := true, psc := 0, tickcnt := 0 } := by
  cases h : w.now.stretch <;>
    simp [lineCondition, Wave.proceeds, runSteps, stopSteps, LineStep.run, LineStep.drive,
      Line.waitTicks, h]

/-- The cells of a transmitted byte answer what the wave answers; unless arbitration is lost they
end with SCL low and SDA released (R107). -/
theorem sendCells_result (n : Nat) (w : Wave) (l : Line) (hn : n ≤ 8) :
    (∃ a l', sendCells n w l = .done a l' ∧ Wave.txCells n l.shift w = some a ∧
      (a ≠ .lost → l'.sclO = false ∧ l'.sdaO = true) ∧ l'.bitcnt.toNat ≤ 8) ∨
    (∃ l', sendCells n w l = .stall l' ∧ Wave.txCells n l.shift w = none ∧
      l'.bitcnt.toNat ≤ 8) := by
  induction n generalizing w l with
  | zero =>
    by_cases h : w.now.stretch.isNone
    · right; exact ⟨_, by simp [sendCells, bitCell_eq, h]; rfl, by simp [Wave.txCells, h], by simp⟩
    · left
      refine ⟨_, _, by simp [sendCells, bitCell_eq, h]; exact ⟨rfl, rfl⟩, ?_, ?_, ?_⟩ <;>
        simp [Wave.txCells, h]
  | succ n ih =>
    have hb : (BitVec.ofNat 4 (7 - n)).toNat ≤ 8 := by simp; omega
    by_cases h : w.now.stretch.isNone
    · right
      exact ⟨_, by simp [sendCells, bitCell_eq, h]; rfl, by simp [Wave.txCells, h], hb⟩
    · by_cases hl : l.shift.msb && !w.now.sda
      · left
        refine ⟨.lost, _, by
          rw [sendCells, bitCell_eq]; simp only [h]
          simp only [Bool.and_eq_true, Bool.not_eq_true'] at hl
          simp [hl.1, hl.2]; rfl, by rw [Wave.txCells]; simp only [h, hl]; rfl, by simp, hb⟩
      · have step : sendCells (n + 1) w l = sendCells n w.tail
            { l with bitcnt := BitVec.ofNat 4 (7 - n), sdaO := l.shift.msb, sclO := false, psc := 0,
                     tickcnt := 1, shift := l.shift <<< 1 } := by
          rw [sendCells, bitCell_eq]
          have : (l.shift.msb && !(l.shift.msb && w.now.sda)) = false := by
            revert hl; cases l.shift.msb <;> simp
          simp only [h, Bool.false_eq_true, if_false, Res.bind_done, this]
        have txs : Wave.txCells (n + 1) l.shift w = Wave.txCells n (l.shift <<< 1) w.tail := by
          rw [Wave.txCells]; simp only [h, hl]; rfl
        rw [step, txs]
        exact ih w.tail _ (by omega)

/-- A transmitted byte on the lines (R107). -/
theorem lineTx_result (v : Byte) (w : Wave) (l : Line) :
    (∃ a l', lineTx v w l = .done a l' ∧ w.tx v = some a ∧
      (a ≠ .lost → l'.sclO = false ∧ l'.sdaO = true) ∧ l'.bitcnt.toNat ≤ 8) ∨
    (∃ l', lineTx v w l = .stall l' ∧ w.tx v = none ∧ l'.bitcnt.toNat ≤ 8) :=
  sendCells_result 8 w { l with shift := v } (Nat.le_refl 8)

/-- The cells of a received byte take the wave's bits, and end with SCL low (R108). -/
theorem receiveCells_result (a : Bool) (n : Nat) (w : Wave) (l : Line) (hn : n ≤ 8) :
    (∃ v l', receiveCells a n w l = .done v l' ∧ Wave.rxCells n l.shift w = some v ∧
      l'.sclO = false ∧ l'.bitcnt.toNat ≤ 8) ∨
    (∃ l', receiveCells a n w l = .stall l' ∧ Wave.rxCells n l.shift w = none ∧
      l'.bitcnt.toNat ≤ 8) := by
  induction n generalizing w l with
  | zero =>
    by_cases h : w.now.stretch.isNone
    · right; exact ⟨_, by simp [receiveCells, bitCell_eq, h]; rfl, by simp [Wave.rxCells, h], by simp⟩
    · left
      refine ⟨_, _, by simp [receiveCells, bitCell_eq, h]; exact ⟨rfl, rfl⟩, ?_, ?_, ?_⟩ <;>
        simp [Wave.rxCells, h]
  | succ n ih =>
    have hb : (BitVec.ofNat 4 (7 - n)).toNat ≤ 8 := by simp; omega
    by_cases h : w.now.stretch.isNone
    · right
      exact ⟨_, by simp [receiveCells, bitCell_eq, h]; rfl, by simp [Wave.rxCells, h], hb⟩
    · have step : receiveCells a (n + 1) w l = receiveCells a n w.tail
            { l with bitcnt := BitVec.ofNat 4 (7 - n), sdaO := true, sclO := false, psc := 0,
                     tickcnt := 1, shift := l.shift.shiftConcat w.now.sda } := by
        rw [receiveCells, bitCell_eq]; simp [h]
      have rxs : Wave.rxCells (n + 1) l.shift w
          = Wave.rxCells n (l.shift.shiftConcat w.now.sda) w.tail := by
        rw [Wave.rxCells]; simp [h]
      rw [step, rxs]
      exact ih w.tail _ (by omega)

/-- A received byte on the lines (R108). -/
theorem lineRx_result (a : Bool) (w : Wave) (l : Line) :
    (∃ v l', lineRx a w l = .done v l' ∧ w.rx = some v ∧ l'.sclO = false ∧ l'.bitcnt.toNat ≤ 8) ∨
    (∃ l', lineRx a w l = .stall l' ∧ w.rx = none ∧ l'.bitcnt.toNat ≤ 8) :=
  receiveCells_result a 8 w { l with shift := 0 } (Nat.le_refl 8)

end Sys2Proof.Machine
end

