-- ==== Sys2Proof/Laws/State.lean ====
section
/-! SUPPORT. One lemma for each field and each named update of the state, so that no proof unfolds an
update. -/

namespace Sys2Proof.Machine

variable (s : State)

/-! ### `State.emit` -/

@[simp] theorem State.emit_msa (e : BusEvent) : (s.emit e).msa = s.msa := rfl
@[simp] theorem State.emit_ctl (e : BusEvent) : (s.emit e).ctl = s.ctl := rfl
@[simp] theorem State.emit_busy (e : BusEvent) : (s.emit e).busy = s.busy := rfl
@[simp] theorem State.emit_error (e : BusEvent) : (s.emit e).error = s.error := rfl
@[simp] theorem State.emit_adrack (e : BusEvent) : (s.emit e).adrack = s.adrack := rfl
@[simp] theorem State.emit_datack (e : BusEvent) : (s.emit e).datack = s.datack := rfl
@[simp] theorem State.emit_mdrTx (e : BusEvent) : (s.emit e).mdrTx = s.mdrTx := rfl
@[simp] theorem State.emit_mdrRx (e : BusEvent) : (s.emit e).mdrRx = s.mdrRx := rfl
@[simp] theorem State.emit_tpr (e : BusEvent) : (s.emit e).tpr = s.tpr := rfl
@[simp] theorem State.emit_mfe (e : BusEvent) : (s.emit e).mfe = s.mfe := rfl
@[simp] theorem State.emit_own (e : BusEvent) : (s.emit e).own = s.own := rfl
@[simp] theorem State.emit_line (e : BusEvent) : (s.emit e).line = s.line := rfl
@[simp] theorem State.emit_seq (e : BusEvent) : (s.emit e).seq = s.seq := rfl
@[simp] theorem State.emit_rega (e : BusEvent) : (s.emit e).rega = s.rega := rfl
@[simp] theorem State.emit_val (e : BusEvent) : (s.emit e).val = s.val := rfl
@[simp] theorem State.emit_hi (e : BusEvent) : (s.emit e).hi = s.hi := rfl
@[simp] theorem State.emit_lo (e : BusEvent) : (s.emit e).lo = s.lo := rfl
@[simp] theorem State.emit_tflags (e : BusEvent) : (s.emit e).tflags = s.tflags := rfl
@[simp] theorem State.emit_executing (e : BusEvent) : (s.emit e).executing = s.executing := rfl
@[simp] theorem State.emit_rsp (e : BusEvent) : (s.emit e).rsp = s.rsp := rfl
@[simp] theorem State.emit_rspValid (e : BusEvent) : (s.emit e).rspValid = s.rspValid := rfl
@[simp] theorem State.emit_trace (e : BusEvent) : (s.emit e).trace = s.trace ++ [e] := rfl
@[simp] theorem State.emit_addrSet (e : BusEvent) : (s.emit e).addrSet = s.addrSet := rfl
@[simp] theorem State.emit_slave (e : BusEvent) : (s.emit e).slave = s.slave := rfl
@[simp] theorem State.emit_asks (e : BusEvent) : (s.emit e).asks = s.asks := rfl
@[simp] theorem State.emit_inputs (e : BusEvent) : (s.emit e).inputs = s.inputs := rfl

/-! ### `State.startByteOp` -/

@[simp] theorem State.startByteOp_msa : (s.startByteOp).msa = s.msa := rfl
@[simp] theorem State.startByteOp_ctl : (s.startByteOp).ctl = s.ctl := rfl
@[simp] theorem State.startByteOp_busy : (s.startByteOp).busy = true := rfl
@[simp] theorem State.startByteOp_error : (s.startByteOp).error = false := rfl
@[simp] theorem State.startByteOp_adrack : (s.startByteOp).adrack = false := rfl
@[simp] theorem State.startByteOp_datack : (s.startByteOp).datack = false := rfl
@[simp] theorem State.startByteOp_mdrTx : (s.startByteOp).mdrTx = s.mdrTx := rfl
@[simp] theorem State.startByteOp_mdrRx : (s.startByteOp).mdrRx = s.mdrRx := rfl
@[simp] theorem State.startByteOp_tpr : (s.startByteOp).tpr = s.tpr := rfl
@[simp] theorem State.startByteOp_mfe : (s.startByteOp).mfe = s.mfe := rfl
@[simp] theorem State.startByteOp_own : (s.startByteOp).own = s.own := rfl
@[simp] theorem State.startByteOp_line : (s.startByteOp).line = { s.line with psc := 0, tickcnt := 0 } := rfl
@[simp] theorem State.startByteOp_seq : (s.startByteOp).seq = s.seq := rfl
@[simp] theorem State.startByteOp_rega : (s.startByteOp).rega = s.rega := rfl
@[simp] theorem State.startByteOp_val : (s.startByteOp).val = s.val := rfl
@[simp] theorem State.startByteOp_hi : (s.startByteOp).hi = s.hi := rfl
@[simp] theorem State.startByteOp_lo : (s.startByteOp).lo = s.lo := rfl
@[simp] theorem State.startByteOp_tflags : (s.startByteOp).tflags = s.tflags := rfl
@[simp] theorem State.startByteOp_executing : (s.startByteOp).executing = s.executing := rfl
@[simp] theorem State.startByteOp_rsp : (s.startByteOp).rsp = s.rsp := rfl
@[simp] theorem State.startByteOp_rspValid : (s.startByteOp).rspValid = s.rspValid := rfl
@[simp] theorem State.startByteOp_trace : (s.startByteOp).trace = s.trace := rfl
@[simp] theorem State.startByteOp_addrSet : (s.startByteOp).addrSet = s.addrSet := rfl
@[simp] theorem State.startByteOp_slave : (s.startByteOp).slave = s.slave := rfl
@[simp] theorem State.startByteOp_asks : (s.startByteOp).asks = s.asks := rfl
@[simp] theorem State.startByteOp_inputs : (s.startByteOp).inputs = s.inputs := rfl

/-! ### `State.startStopOp` -/

@[simp] theorem State.startStopOp_msa : (s.startStopOp).msa = s.msa := rfl
@[simp] theorem State.startStopOp_ctl : (s.startStopOp).ctl = s.ctl := rfl
@[simp] theorem State.startStopOp_busy : (s.startStopOp).busy = true := rfl
@[simp] theorem State.startStopOp_error : (s.startStopOp).error = s.error := rfl
@[simp] theorem State.startStopOp_adrack : (s.startStopOp).adrack = s.adrack := rfl
@[simp] theorem State.startStopOp_datack : (s.startStopOp).datack = s.datack := rfl
@[simp] theorem State.startStopOp_mdrTx : (s.startStopOp).mdrTx = s.mdrTx := rfl
@[simp] theorem State.startStopOp_mdrRx : (s.startStopOp).mdrRx = s.mdrRx := rfl
@[simp] theorem State.startStopOp_tpr : (s.startStopOp).tpr = s.tpr := rfl
@[simp] theorem State.startStopOp_mfe : (s.startStopOp).mfe = s.mfe := rfl
@[simp] theorem State.startStopOp_own : (s.startStopOp).own = s.own := rfl
@[simp] theorem State.startStopOp_line : (s.startStopOp).line = { s.line with psc := 0, tickcnt := 0 } := rfl
@[simp] theorem State.startStopOp_seq : (s.startStopOp).seq = s.seq := rfl
@[simp] theorem State.startStopOp_rega : (s.startStopOp).rega = s.rega := rfl
@[simp] theorem State.startStopOp_val : (s.startStopOp).val = s.val := rfl
@[simp] theorem State.startStopOp_hi : (s.startStopOp).hi = s.hi := rfl
@[simp] theorem State.startStopOp_lo : (s.startStopOp).lo = s.lo := rfl
@[simp] theorem State.startStopOp_tflags : (s.startStopOp).tflags = s.tflags := rfl
@[simp] theorem State.startStopOp_executing : (s.startStopOp).executing = s.executing := rfl
@[simp] theorem State.startStopOp_rsp : (s.startStopOp).rsp = s.rsp := rfl
@[simp] theorem State.startStopOp_rspValid : (s.startStopOp).rspValid = s.rspValid := rfl
@[simp] theorem State.startStopOp_trace : (s.startStopOp).trace = s.trace := rfl
@[simp] theorem State.startStopOp_addrSet : (s.startStopOp).addrSet = s.addrSet := rfl
@[simp] theorem State.startStopOp_slave : (s.startStopOp).slave = s.slave := rfl
@[simp] theorem State.startStopOp_asks : (s.startStopOp).asks = s.asks := rfl
@[simp] theorem State.startStopOp_inputs : (s.startStopOp).inputs = s.inputs := rfl

/-! ### `State.addressNack` -/

@[simp] theorem State.addressNack_msa : (s.addressNack).msa = s.msa := rfl
@[simp] theorem State.addressNack_ctl : (s.addressNack).ctl = s.ctl := rfl
@[simp] theorem State.addressNack_busy : (s.addressNack).busy = s.busy := rfl
@[simp] theorem State.addressNack_error : (s.addressNack).error = true := rfl
@[simp] theorem State.addressNack_adrack : (s.addressNack).adrack = true := rfl
@[simp] theorem State.addressNack_datack : (s.addressNack).datack = s.datack := rfl
@[simp] theorem State.addressNack_mdrTx : (s.addressNack).mdrTx = s.mdrTx := rfl
@[simp] theorem State.addressNack_mdrRx : (s.addressNack).mdrRx = s.mdrRx := rfl
@[simp] theorem State.addressNack_tpr : (s.addressNack).tpr = s.tpr := rfl
@[simp] theorem State.addressNack_mfe : (s.addressNack).mfe = s.mfe := rfl
@[simp] theorem State.addressNack_own : (s.addressNack).own = s.own := rfl
@[simp] theorem State.addressNack_line : (s.addressNack).line = s.line := rfl
@[simp] theorem State.addressNack_seq : (s.addressNack).seq = s.seq := rfl
@[simp] theorem State.addressNack_rega : (s.addressNack).rega = s.rega := rfl
@[simp] theorem State.addressNack_val : (s.addressNack).val = s.val := rfl
@[simp] theorem State.addressNack_hi : (s.addressNack).hi = s.hi := rfl
@[simp] theorem State.addressNack_lo : (s.addressNack).lo = s.lo := rfl
@[simp] theorem State.addressNack_tflags : (s.addressNack).tflags = s.tflags := rfl
@[simp] theorem State.addressNack_executing : (s.addressNack).executing = s.executing := rfl
@[simp] theorem State.addressNack_rsp : (s.addressNack).rsp = s.rsp := rfl
@[simp] theorem State.addressNack_rspValid : (s.addressNack).rspValid = s.rspValid := rfl
@[simp] theorem State.addressNack_trace : (s.addressNack).trace = s.trace := rfl
@[simp] theorem State.addressNack_addrSet : (s.addressNack).addrSet = s.addrSet := rfl
@[simp] theorem State.addressNack_slave : (s.addressNack).slave = s.slave := rfl
@[simp] theorem State.addressNack_asks : (s.addressNack).asks = s.asks := rfl
@[simp] theorem State.addressNack_inputs : (s.addressNack).inputs = s.inputs := rfl

/-! ### `State.dataNack` -/

@[simp] theorem State.dataNack_msa : (s.dataNack).msa = s.msa := rfl
@[simp] theorem State.dataNack_ctl : (s.dataNack).ctl = s.ctl := rfl
@[simp] theorem State.dataNack_busy : (s.dataNack).busy = s.busy := rfl
@[simp] theorem State.dataNack_error : (s.dataNack).error = true := rfl
@[simp] theorem State.dataNack_adrack : (s.dataNack).adrack = s.adrack := rfl
@[simp] theorem State.dataNack_datack : (s.dataNack).datack = true := rfl
@[simp] theorem State.dataNack_mdrTx : (s.dataNack).mdrTx = s.mdrTx := rfl
@[simp] theorem State.dataNack_mdrRx : (s.dataNack).mdrRx = s.mdrRx := rfl
@[simp] theorem State.dataNack_tpr : (s.dataNack).tpr = s.tpr := rfl
@[simp] theorem State.dataNack_mfe : (s.dataNack).mfe = s.mfe := rfl
@[simp] theorem State.dataNack_own : (s.dataNack).own = s.own := rfl
@[simp] theorem State.dataNack_line : (s.dataNack).line = s.line := rfl
@[simp] theorem State.dataNack_seq : (s.dataNack).seq = s.seq := rfl
@[simp] theorem State.dataNack_rega : (s.dataNack).rega = s.rega := rfl
@[simp] theorem State.dataNack_val : (s.dataNack).val = s.val := rfl
@[simp] theorem State.dataNack_hi : (s.dataNack).hi = s.hi := rfl
@[simp] theorem State.dataNack_lo : (s.dataNack).lo = s.lo := rfl
@[simp] theorem State.dataNack_tflags : (s.dataNack).tflags = s.tflags := rfl
@[simp] theorem State.dataNack_executing : (s.dataNack).executing = s.executing := rfl
@[simp] theorem State.dataNack_rsp : (s.dataNack).rsp = s.rsp := rfl
@[simp] theorem State.dataNack_rspValid : (s.dataNack).rspValid = s.rspValid := rfl
@[simp] theorem State.dataNack_trace : (s.dataNack).trace = s.trace := rfl
@[simp] theorem State.dataNack_addrSet : (s.dataNack).addrSet = s.addrSet := rfl
@[simp] theorem State.dataNack_slave : (s.dataNack).slave = s.slave := rfl
@[simp] theorem State.dataNack_asks : (s.dataNack).asks = s.asks := rfl
@[simp] theorem State.dataNack_inputs : (s.dataNack).inputs = s.inputs := rfl

/-! ### `State.arbitrationLost` -/

@[simp] theorem State.arbitrationLost_msa : (s.arbitrationLost).msa = s.msa := rfl
@[simp] theorem State.arbitrationLost_ctl : (s.arbitrationLost).ctl = s.ctl := rfl
@[simp] theorem State.arbitrationLost_busy : (s.arbitrationLost).busy = false := rfl
@[simp] theorem State.arbitrationLost_error : (s.arbitrationLost).error = true := rfl
@[simp] theorem State.arbitrationLost_adrack : (s.arbitrationLost).adrack = s.adrack := rfl
@[simp] theorem State.arbitrationLost_datack : (s.arbitrationLost).datack = s.datack := rfl
@[simp] theorem State.arbitrationLost_mdrTx : (s.arbitrationLost).mdrTx = s.mdrTx := rfl
@[simp] theorem State.arbitrationLost_mdrRx : (s.arbitrationLost).mdrRx = s.mdrRx := rfl
@[simp] theorem State.arbitrationLost_tpr : (s.arbitrationLost).tpr = s.tpr := rfl
@[simp] theorem State.arbitrationLost_mfe : (s.arbitrationLost).mfe = s.mfe := rfl
@[simp] theorem State.arbitrationLost_own : (s.arbitrationLost).own = .idle := rfl
@[simp] theorem State.arbitrationLost_line : (s.arbitrationLost).line = s.line.release := rfl
@[simp] theorem State.arbitrationLost_seq : (s.arbitrationLost).seq = s.seq := rfl
@[simp] theorem State.arbitrationLost_rega : (s.arbitrationLost).rega = s.rega := rfl
@[simp] theorem State.arbitrationLost_val : (s.arbitrationLost).val = s.val := rfl
@[simp] theorem State.arbitrationLost_hi : (s.arbitrationLost).hi = s.hi := rfl
@[simp] theorem State.arbitrationLost_lo : (s.arbitrationLost).lo = s.lo := rfl
@[simp] theorem State.arbitrationLost_tflags : (s.arbitrationLost).tflags = s.tflags := rfl
@[simp] theorem State.arbitrationLost_executing : (s.arbitrationLost).executing = s.executing := rfl
@[simp] theorem State.arbitrationLost_rsp : (s.arbitrationLost).rsp = s.rsp := rfl
@[simp] theorem State.arbitrationLost_rspValid : (s.arbitrationLost).rspValid = s.rspValid := rfl
@[simp] theorem State.arbitrationLost_trace : (s.arbitrationLost).trace = s.trace := rfl
@[simp] theorem State.arbitrationLost_addrSet : (s.arbitrationLost).addrSet = s.addrSet := rfl
@[simp] theorem State.arbitrationLost_slave : (s.arbitrationLost).slave = s.slave := rfl
@[simp] theorem State.arbitrationLost_asks : (s.arbitrationLost).asks = s.asks := rfl
@[simp] theorem State.arbitrationLost_inputs : (s.arbitrationLost).inputs = s.inputs := rfl

/-! ### `State.stopped` -/

@[simp] theorem State.stopped_msa : (s.stopped).msa = s.msa := rfl
@[simp] theorem State.stopped_ctl : (s.stopped).ctl = s.ctl := rfl
@[simp] theorem State.stopped_busy : (s.stopped).busy = false := rfl
@[simp] theorem State.stopped_error : (s.stopped).error = s.error := rfl
@[simp] theorem State.stopped_adrack : (s.stopped).adrack = s.adrack := rfl
@[simp] theorem State.stopped_datack : (s.stopped).datack = s.datack := rfl
@[simp] theorem State.stopped_mdrTx : (s.stopped).mdrTx = s.mdrTx := rfl
@[simp] theorem State.stopped_mdrRx : (s.stopped).mdrRx = s.mdrRx := rfl
@[simp] theorem State.stopped_tpr : (s.stopped).tpr = s.tpr := rfl
@[simp] theorem State.stopped_mfe : (s.stopped).mfe = s.mfe := rfl
@[simp] theorem State.stopped_own : (s.stopped).own = .idle := rfl
@[simp] theorem State.stopped_line : (s.stopped).line = s.line := rfl
@[simp] theorem State.stopped_seq : (s.stopped).seq = s.seq := rfl
@[simp] theorem State.stopped_rega : (s.stopped).rega = s.rega := rfl
@[simp] theorem State.stopped_val : (s.stopped).val = s.val := rfl
@[simp] theorem State.stopped_hi : (s.stopped).hi = s.hi := rfl
@[simp] theorem State.stopped_lo : (s.stopped).lo = s.lo := rfl
@[simp] theorem State.stopped_tflags : (s.stopped).tflags = s.tflags := rfl
@[simp] theorem State.stopped_executing : (s.stopped).executing = s.executing := rfl
@[simp] theorem State.stopped_rsp : (s.stopped).rsp = s.rsp := rfl
@[simp] theorem State.stopped_rspValid : (s.stopped).rspValid = s.rspValid := rfl
@[simp] theorem State.stopped_trace : (s.stopped).trace = s.trace := rfl
@[simp] theorem State.stopped_addrSet : (s.stopped).addrSet = s.addrSet := rfl
@[simp] theorem State.stopped_slave : (s.stopped).slave = s.slave := rfl
@[simp] theorem State.stopped_asks : (s.stopped).asks = s.asks := rfl
@[simp] theorem State.stopped_inputs : (s.stopped).inputs = s.inputs := rfl

/-! ### `State.held` -/

@[simp] theorem State.held_msa : (s.held).msa = s.msa := rfl
@[simp] theorem State.held_ctl : (s.held).ctl = s.ctl := rfl
@[simp] theorem State.held_busy : (s.held).busy = false := rfl
@[simp] theorem State.held_error : (s.held).error = s.error := rfl
@[simp] theorem State.held_adrack : (s.held).adrack = s.adrack := rfl
@[simp] theorem State.held_datack : (s.held).datack = s.datack := rfl
@[simp] theorem State.held_mdrTx : (s.held).mdrTx = s.mdrTx := rfl
@[simp] theorem State.held_mdrRx : (s.held).mdrRx = s.mdrRx := rfl
@[simp] theorem State.held_tpr : (s.held).tpr = s.tpr := rfl
@[simp] theorem State.held_mfe : (s.held).mfe = s.mfe := rfl
@[simp] theorem State.held_own : (s.held).own = s.own := rfl
@[simp] theorem State.held_line : (s.held).line = s.line.hold := rfl
@[simp] theorem State.held_seq : (s.held).seq = s.seq := rfl
@[simp] theorem State.held_rega : (s.held).rega = s.rega := rfl
@[simp] theorem State.held_val : (s.held).val = s.val := rfl
@[simp] theorem State.held_hi : (s.held).hi = s.hi := rfl
@[simp] theorem State.held_lo : (s.held).lo = s.lo := rfl
@[simp] theorem State.held_tflags : (s.held).tflags = s.tflags := rfl
@[simp] theorem State.held_executing : (s.held).executing = s.executing := rfl
@[simp] theorem State.held_rsp : (s.held).rsp = s.rsp := rfl
@[simp] theorem State.held_rspValid : (s.held).rspValid = s.rspValid := rfl
@[simp] theorem State.held_trace : (s.held).trace = s.trace := rfl
@[simp] theorem State.held_addrSet : (s.held).addrSet = s.addrSet := rfl
@[simp] theorem State.held_slave : (s.held).slave = s.slave := rfl
@[simp] theorem State.held_asks : (s.held).asks = s.asks := rfl
@[simp] theorem State.held_inputs : (s.held).inputs = s.inputs := rfl

/-! ### `State.latchDirection` -/

@[simp] theorem State.latchDirection_msa : (s.latchDirection).msa = s.msa := rfl
@[simp] theorem State.latchDirection_ctl : (s.latchDirection).ctl = s.ctl := rfl
@[simp] theorem State.latchDirection_busy : (s.latchDirection).busy = s.busy := rfl
@[simp] theorem State.latchDirection_error : (s.latchDirection).error = s.error := rfl
@[simp] theorem State.latchDirection_adrack : (s.latchDirection).adrack = s.adrack := rfl
@[simp] theorem State.latchDirection_datack : (s.latchDirection).datack = s.datack := rfl
@[simp] theorem State.latchDirection_mdrTx : (s.latchDirection).mdrTx = s.mdrTx := rfl
@[simp] theorem State.latchDirection_mdrRx : (s.latchDirection).mdrRx = s.mdrRx := rfl
@[simp] theorem State.latchDirection_tpr : (s.latchDirection).tpr = s.tpr := rfl
@[simp] theorem State.latchDirection_mfe : (s.latchDirection).mfe = s.mfe := rfl
@[simp] theorem State.latchDirection_own : (s.latchDirection).own = if msaRead s.msa then .rx else .tx := rfl
@[simp] theorem State.latchDirection_line : (s.latchDirection).line = s.line := rfl
@[simp] theorem State.latchDirection_seq : (s.latchDirection).seq = s.seq := rfl
@[simp] theorem State.latchDirection_rega : (s.latchDirection).rega = s.rega := rfl
@[simp] theorem State.latchDirection_val : (s.latchDirection).val = s.val := rfl
@[simp] theorem State.latchDirection_hi : (s.latchDirection).hi = s.hi := rfl
@[simp] theorem State.latchDirection_lo : (s.latchDirection).lo = s.lo := rfl
@[simp] theorem State.latchDirection_tflags : (s.latchDirection).tflags = s.tflags := rfl
@[simp] theorem State.latchDirection_executing : (s.latchDirection).executing = s.executing := rfl
@[simp] theorem State.latchDirection_rsp : (s.latchDirection).rsp = s.rsp := rfl
@[simp] theorem State.latchDirection_rspValid : (s.latchDirection).rspValid = s.rspValid := rfl
@[simp] theorem State.latchDirection_trace : (s.latchDirection).trace = s.trace := rfl
@[simp] theorem State.latchDirection_addrSet : (s.latchDirection).addrSet = s.addrSet := rfl
@[simp] theorem State.latchDirection_slave : (s.latchDirection).slave = s.slave := rfl
@[simp] theorem State.latchDirection_asks : (s.latchDirection).asks = s.asks := rfl
@[simp] theorem State.latchDirection_inputs : (s.latchDirection).inputs = s.inputs := rfl

/-! ### `State.writeMsa` -/

@[simp] theorem State.writeMsa_msa (v : Word) : (s.writeMsa v).msa = v.setWidth 8 := rfl
@[simp] theorem State.writeMsa_ctl (v : Word) : (s.writeMsa v).ctl = s.ctl := rfl
@[simp] theorem State.writeMsa_busy (v : Word) : (s.writeMsa v).busy = s.busy := rfl
@[simp] theorem State.writeMsa_error (v : Word) : (s.writeMsa v).error = s.error := rfl
@[simp] theorem State.writeMsa_adrack (v : Word) : (s.writeMsa v).adrack = s.adrack := rfl
@[simp] theorem State.writeMsa_datack (v : Word) : (s.writeMsa v).datack = s.datack := rfl
@[simp] theorem State.writeMsa_mdrTx (v : Word) : (s.writeMsa v).mdrTx = s.mdrTx := rfl
@[simp] theorem State.writeMsa_mdrRx (v : Word) : (s.writeMsa v).mdrRx = s.mdrRx := rfl
@[simp] theorem State.writeMsa_tpr (v : Word) : (s.writeMsa v).tpr = s.tpr := rfl
@[simp] theorem State.writeMsa_mfe (v : Word) : (s.writeMsa v).mfe = s.mfe := rfl
@[simp] theorem State.writeMsa_own (v : Word) : (s.writeMsa v).own = s.own := rfl
@[simp] theorem State.writeMsa_line (v : Word) : (s.writeMsa v).line = s.line := rfl
@[simp] theorem State.writeMsa_seq (v : Word) : (s.writeMsa v).seq = s.seq := rfl
@[simp] theorem State.writeMsa_rega (v : Word) : (s.writeMsa v).rega = s.rega := rfl
@[simp] theorem State.writeMsa_val (v : Word) : (s.writeMsa v).val = s.val := rfl
@[simp] theorem State.writeMsa_hi (v : Word) : (s.writeMsa v).hi = s.hi := rfl
@[simp] theorem State.writeMsa_lo (v : Word) : (s.writeMsa v).lo = s.lo := rfl
@[simp] theorem State.writeMsa_tflags (v : Word) : (s.writeMsa v).tflags = s.tflags := rfl
@[simp] theorem State.writeMsa_executing (v : Word) : (s.writeMsa v).executing = s.executing := rfl
@[simp] theorem State.writeMsa_rsp (v : Word) : (s.writeMsa v).rsp = s.rsp := rfl
@[simp] theorem State.writeMsa_rspValid (v : Word) : (s.writeMsa v).rspValid = s.rspValid := rfl
@[simp] theorem State.writeMsa_trace (v : Word) : (s.writeMsa v).trace = s.trace := rfl
@[simp] theorem State.writeMsa_addrSet (v : Word) : (s.writeMsa v).addrSet = s.addrSet := rfl
@[simp] theorem State.writeMsa_slave (v : Word) : (s.writeMsa v).slave = s.slave := rfl
@[simp] theorem State.writeMsa_asks (v : Word) : (s.writeMsa v).asks = s.asks := rfl
@[simp] theorem State.writeMsa_inputs (v : Word) : (s.writeMsa v).inputs = s.inputs := rfl

/-! ### `State.writeMdr` -/

@[simp] theorem State.writeMdr_msa (v : Word) : (s.writeMdr v).msa = s.msa := rfl
@[simp] theorem State.writeMdr_ctl (v : Word) : (s.writeMdr v).ctl = s.ctl := rfl
@[simp] theorem State.writeMdr_busy (v : Word) : (s.writeMdr v).busy = s.busy := rfl
@[simp] theorem State.writeMdr_error (v : Word) : (s.writeMdr v).error = s.error := rfl
@[simp] theorem State.writeMdr_adrack (v : Word) : (s.writeMdr v).adrack = s.adrack := rfl
@[simp] theorem State.writeMdr_datack (v : Word) : (s.writeMdr v).datack = s.datack := rfl
@[simp] theorem State.writeMdr_mdrTx (v : Word) : (s.writeMdr v).mdrTx = v.setWidth 8 := rfl
@[simp] theorem State.writeMdr_mdrRx (v : Word) : (s.writeMdr v).mdrRx = s.mdrRx := rfl
@[simp] theorem State.writeMdr_tpr (v : Word) : (s.writeMdr v).tpr = s.tpr := rfl
@[simp] theorem State.writeMdr_mfe (v : Word) : (s.writeMdr v).mfe = s.mfe := rfl
@[simp] theorem State.writeMdr_own (v : Word) : (s.writeMdr v).own = s.own := rfl
@[simp] theorem State.writeMdr_line (v : Word) : (s.writeMdr v).line = s.line := rfl
@[simp] theorem State.writeMdr_seq (v : Word) : (s.writeMdr v).seq = s.seq := rfl
@[simp] theorem State.writeMdr_rega (v : Word) : (s.writeMdr v).rega = s.rega := rfl
@[simp] theorem State.writeMdr_val (v : Word) : (s.writeMdr v).val = s.val := rfl
@[simp] theorem State.writeMdr_hi (v : Word) : (s.writeMdr v).hi = s.hi := rfl
@[simp] theorem State.writeMdr_lo (v : Word) : (s.writeMdr v).lo = s.lo := rfl
@[simp] theorem State.writeMdr_tflags (v : Word) : (s.writeMdr v).tflags = s.tflags := rfl
@[simp] theorem State.writeMdr_executing (v : Word) : (s.writeMdr v).executing = s.executing := rfl
@[simp] theorem State.writeMdr_rsp (v : Word) : (s.writeMdr v).rsp = s.rsp := rfl
@[simp] theorem State.writeMdr_rspValid (v : Word) : (s.writeMdr v).rspValid = s.rspValid := rfl
@[simp] theorem State.writeMdr_trace (v : Word) : (s.writeMdr v).trace = s.trace := rfl
@[simp] theorem State.writeMdr_addrSet (v : Word) : (s.writeMdr v).addrSet = s.addrSet := rfl
@[simp] theorem State.writeMdr_slave (v : Word) : (s.writeMdr v).slave = s.slave := rfl
@[simp] theorem State.writeMdr_asks (v : Word) : (s.writeMdr v).asks = s.asks := rfl
@[simp] theorem State.writeMdr_inputs (v : Word) : (s.writeMdr v).inputs = s.inputs := rfl

/-! ### `State.writeTpr` -/

@[simp] theorem State.writeTpr_msa (v : Word) : (s.writeTpr v).msa = s.msa := rfl
@[simp] theorem State.writeTpr_ctl (v : Word) : (s.writeTpr v).ctl = s.ctl := rfl
@[simp] theorem State.writeTpr_busy (v : Word) : (s.writeTpr v).busy = s.busy := rfl
@[simp] theorem State.writeTpr_error (v : Word) : (s.writeTpr v).error = s.error := rfl
@[simp] theorem State.writeTpr_adrack (v : Word) : (s.writeTpr v).adrack = s.adrack := rfl
@[simp] theorem State.writeTpr_datack (v : Word) : (s.writeTpr v).datack = s.datack := rfl
@[simp] theorem State.writeTpr_mdrTx (v : Word) : (s.writeTpr v).mdrTx = s.mdrTx := rfl
@[simp] theorem State.writeTpr_mdrRx (v : Word) : (s.writeTpr v).mdrRx = s.mdrRx := rfl
@[simp] theorem State.writeTpr_tpr (v : Word) : (s.writeTpr v).tpr = v.setWidth 7 := rfl
@[simp] theorem State.writeTpr_mfe (v : Word) : (s.writeTpr v).mfe = s.mfe := rfl
@[simp] theorem State.writeTpr_own (v : Word) : (s.writeTpr v).own = s.own := rfl
@[simp] theorem State.writeTpr_line (v : Word) : (s.writeTpr v).line = s.line := rfl
@[simp] theorem State.writeTpr_seq (v : Word) : (s.writeTpr v).seq = s.seq := rfl
@[simp] theorem State.writeTpr_rega (v : Word) : (s.writeTpr v).rega = s.rega := rfl
@[simp] theorem State.writeTpr_val (v : Word) : (s.writeTpr v).val = s.val := rfl
@[simp] theorem State.writeTpr_hi (v : Word) : (s.writeTpr v).hi = s.hi := rfl
@[simp] theorem State.writeTpr_lo (v : Word) : (s.writeTpr v).lo = s.lo := rfl
@[simp] theorem State.writeTpr_tflags (v : Word) : (s.writeTpr v).tflags = s.tflags := rfl
@[simp] theorem State.writeTpr_executing (v : Word) : (s.writeTpr v).executing = s.executing := rfl
@[simp] theorem State.writeTpr_rsp (v : Word) : (s.writeTpr v).rsp = s.rsp := rfl
@[simp] theorem State.writeTpr_rspValid (v : Word) : (s.writeTpr v).rspValid = s.rspValid := rfl
@[simp] theorem State.writeTpr_trace (v : Word) : (s.writeTpr v).trace = s.trace := rfl
@[simp] theorem State.writeTpr_addrSet (v : Word) : (s.writeTpr v).addrSet = s.addrSet := rfl
@[simp] theorem State.writeTpr_slave (v : Word) : (s.writeTpr v).slave = s.slave := rfl
@[simp] theorem State.writeTpr_asks (v : Word) : (s.writeTpr v).asks = s.asks := rfl
@[simp] theorem State.writeTpr_inputs (v : Word) : (s.writeTpr v).inputs = s.inputs := rfl

/-! ### `State.writeMfe` -/

@[simp] theorem State.writeMfe_msa (v : Word) : (s.writeMfe v).msa = s.msa := rfl
@[simp] theorem State.writeMfe_ctl (v : Word) : (s.writeMfe v).ctl = s.ctl := rfl
@[simp] theorem State.writeMfe_busy (v : Word) : (s.writeMfe v).busy = s.busy := rfl
@[simp] theorem State.writeMfe_error (v : Word) : (s.writeMfe v).error = s.error := rfl
@[simp] theorem State.writeMfe_adrack (v : Word) : (s.writeMfe v).adrack = s.adrack := rfl
@[simp] theorem State.writeMfe_datack (v : Word) : (s.writeMfe v).datack = s.datack := rfl
@[simp] theorem State.writeMfe_mdrTx (v : Word) : (s.writeMfe v).mdrTx = s.mdrTx := rfl
@[simp] theorem State.writeMfe_mdrRx (v : Word) : (s.writeMfe v).mdrRx = s.mdrRx := rfl
@[simp] theorem State.writeMfe_tpr (v : Word) : (s.writeMfe v).tpr = s.tpr := rfl
@[simp] theorem State.writeMfe_mfe (v : Word) : (s.writeMfe v).mfe = v.getLsbD 4 := rfl
@[simp] theorem State.writeMfe_own (v : Word) : (s.writeMfe v).own = s.own := rfl
@[simp] theorem State.writeMfe_line (v : Word) : (s.writeMfe v).line = s.line := rfl
@[simp] theorem State.writeMfe_seq (v : Word) : (s.writeMfe v).seq = s.seq := rfl
@[simp] theorem State.writeMfe_rega (v : Word) : (s.writeMfe v).rega = s.rega := rfl
@[simp] theorem State.writeMfe_val (v : Word) : (s.writeMfe v).val = s.val := rfl
@[simp] theorem State.writeMfe_hi (v : Word) : (s.writeMfe v).hi = s.hi := rfl
@[simp] theorem State.writeMfe_lo (v : Word) : (s.writeMfe v).lo = s.lo := rfl
@[simp] theorem State.writeMfe_tflags (v : Word) : (s.writeMfe v).tflags = s.tflags := rfl
@[simp] theorem State.writeMfe_executing (v : Word) : (s.writeMfe v).executing = s.executing := rfl
@[simp] theorem State.writeMfe_rsp (v : Word) : (s.writeMfe v).rsp = s.rsp := rfl
@[simp] theorem State.writeMfe_rspValid (v : Word) : (s.writeMfe v).rspValid = s.rspValid := rfl
@[simp] theorem State.writeMfe_trace (v : Word) : (s.writeMfe v).trace = s.trace := rfl
@[simp] theorem State.writeMfe_addrSet (v : Word) : (s.writeMfe v).addrSet = s.addrSet := rfl
@[simp] theorem State.writeMfe_slave (v : Word) : (s.writeMfe v).slave = s.slave := rfl
@[simp] theorem State.writeMfe_asks (v : Word) : (s.writeMfe v).asks = s.asks := rfl
@[simp] theorem State.writeMfe_inputs (v : Word) : (s.writeMfe v).inputs = s.inputs := rfl

/-! ### `State.accept` -/

@[simp] theorem State.accept_msa : (s.accept).msa = s.msa := rfl
@[simp] theorem State.accept_ctl : (s.accept).ctl = s.ctl := rfl
@[simp] theorem State.accept_busy : (s.accept).busy = s.busy := rfl
@[simp] theorem State.accept_error : (s.accept).error = s.error := rfl
@[simp] theorem State.accept_adrack : (s.accept).adrack = s.adrack := rfl
@[simp] theorem State.accept_datack : (s.accept).datack = s.datack := rfl
@[simp] theorem State.accept_mdrTx : (s.accept).mdrTx = s.mdrTx := rfl
@[simp] theorem State.accept_mdrRx : (s.accept).mdrRx = s.mdrRx := rfl
@[simp] theorem State.accept_tpr : (s.accept).tpr = s.tpr := rfl
@[simp] theorem State.accept_mfe : (s.accept).mfe = s.mfe := rfl
@[simp] theorem State.accept_own : (s.accept).own = s.own := rfl
@[simp] theorem State.accept_line : (s.accept).line = s.line := rfl
@[simp] theorem State.accept_seq : (s.accept).seq = s.seq := rfl
@[simp] theorem State.accept_rega : (s.accept).rega = s.rega := rfl
@[simp] theorem State.accept_val : (s.accept).val = s.val := rfl
@[simp] theorem State.accept_hi : (s.accept).hi = s.hi := rfl
@[simp] theorem State.accept_lo : (s.accept).lo = s.lo := rfl
@[simp] theorem State.accept_tflags : (s.accept).tflags = s.tflags := rfl
@[simp] theorem State.accept_executing : (s.accept).executing = true := rfl
@[simp] theorem State.accept_rsp : (s.accept).rsp = s.rsp := rfl
@[simp] theorem State.accept_rspValid : (s.accept).rspValid = false := rfl
@[simp] theorem State.accept_trace : (s.accept).trace = s.trace := rfl
@[simp] theorem State.accept_addrSet : (s.accept).addrSet = s.addrSet := rfl
@[simp] theorem State.accept_slave : (s.accept).slave = s.slave := rfl
@[simp] theorem State.accept_asks : (s.accept).asks = s.asks := rfl
@[simp] theorem State.accept_inputs : (s.accept).inputs = s.inputs := rfl

/-! ### `State.respond` -/

@[simp] theorem State.respond_msa (r : Response) : (s.respond r).msa = s.msa := rfl
@[simp] theorem State.respond_ctl (r : Response) : (s.respond r).ctl = s.ctl := rfl
@[simp] theorem State.respond_busy (r : Response) : (s.respond r).busy = s.busy := rfl
@[simp] theorem State.respond_error (r : Response) : (s.respond r).error = s.error := rfl
@[simp] theorem State.respond_adrack (r : Response) : (s.respond r).adrack = s.adrack := rfl
@[simp] theorem State.respond_datack (r : Response) : (s.respond r).datack = s.datack := rfl
@[simp] theorem State.respond_mdrTx (r : Response) : (s.respond r).mdrTx = s.mdrTx := rfl
@[simp] theorem State.respond_mdrRx (r : Response) : (s.respond r).mdrRx = s.mdrRx := rfl
@[simp] theorem State.respond_tpr (r : Response) : (s.respond r).tpr = s.tpr := rfl
@[simp] theorem State.respond_mfe (r : Response) : (s.respond r).mfe = s.mfe := rfl
@[simp] theorem State.respond_own (r : Response) : (s.respond r).own = s.own := rfl
@[simp] theorem State.respond_line (r : Response) : (s.respond r).line = s.line := rfl
@[simp] theorem State.respond_seq (r : Response) : (s.respond r).seq = s.seq := rfl
@[simp] theorem State.respond_rega (r : Response) : (s.respond r).rega = s.rega := rfl
@[simp] theorem State.respond_val (r : Response) : (s.respond r).val = s.val := rfl
@[simp] theorem State.respond_hi (r : Response) : (s.respond r).hi = s.hi := rfl
@[simp] theorem State.respond_lo (r : Response) : (s.respond r).lo = s.lo := rfl
@[simp] theorem State.respond_tflags (r : Response) : (s.respond r).tflags = s.tflags := rfl
@[simp] theorem State.respond_executing (r : Response) : (s.respond r).executing = false := rfl
@[simp] theorem State.respond_rsp (r : Response) : (s.respond r).rsp = r.word := rfl
@[simp] theorem State.respond_rspValid (r : Response) : (s.respond r).rspValid = true := rfl
@[simp] theorem State.respond_trace (r : Response) : (s.respond r).trace = s.trace := rfl
@[simp] theorem State.respond_addrSet (r : Response) : (s.respond r).addrSet = s.addrSet := rfl
@[simp] theorem State.respond_slave (r : Response) : (s.respond r).slave = s.slave := rfl
@[simp] theorem State.respond_asks (r : Response) : (s.respond r).asks = s.asks := rfl
@[simp] theorem State.respond_inputs (r : Response) : (s.respond r).inputs = s.inputs := rfl

/-! ### `State.refuse` -/

@[simp] theorem State.refuse_msa : (s.refuse).msa = s.msa := rfl
@[simp] theorem State.refuse_ctl : (s.refuse).ctl = s.ctl := rfl
@[simp] theorem State.refuse_busy : (s.refuse).busy = s.busy := rfl
@[simp] theorem State.refuse_error : (s.refuse).error = s.error := rfl
@[simp] theorem State.refuse_adrack : (s.refuse).adrack = s.adrack := rfl
@[simp] theorem State.refuse_datack : (s.refuse).datack = s.datack := rfl
@[simp] theorem State.refuse_mdrTx : (s.refuse).mdrTx = s.mdrTx := rfl
@[simp] theorem State.refuse_mdrRx : (s.refuse).mdrRx = s.mdrRx := rfl
@[simp] theorem State.refuse_tpr : (s.refuse).tpr = s.tpr := rfl
@[simp] theorem State.refuse_mfe : (s.refuse).mfe = s.mfe := rfl
@[simp] theorem State.refuse_own : (s.refuse).own = s.own := rfl
@[simp] theorem State.refuse_line : (s.refuse).line = s.line := rfl
@[simp] theorem State.refuse_seq : (s.refuse).seq = s.seq := rfl
@[simp] theorem State.refuse_rega : (s.refuse).rega = s.rega := rfl
@[simp] theorem State.refuse_val : (s.refuse).val = s.val := rfl
@[simp] theorem State.refuse_hi : (s.refuse).hi = s.hi := rfl
@[simp] theorem State.refuse_lo : (s.refuse).lo = s.lo := rfl
@[simp] theorem State.refuse_tflags : (s.refuse).tflags = s.tflags := rfl
@[simp] theorem State.refuse_executing : (s.refuse).executing = false := rfl
@[simp] theorem State.refuse_rsp : (s.refuse).rsp = Response.ill.word := rfl
@[simp] theorem State.refuse_rspValid : (s.refuse).rspValid = true := rfl
@[simp] theorem State.refuse_trace : (s.refuse).trace = s.trace := rfl
@[simp] theorem State.refuse_addrSet : (s.refuse).addrSet = s.addrSet := rfl
@[simp] theorem State.refuse_slave : (s.refuse).slave = s.slave := rfl
@[simp] theorem State.refuse_asks : (s.refuse).asks = s.asks := rfl
@[simp] theorem State.refuse_inputs : (s.refuse).inputs = s.inputs := rfl

/-! ### `State.setSeq` -/

@[simp] theorem State.setSeq_msa (q : SeqState) : (s.setSeq q).msa = s.msa := rfl
@[simp] theorem State.setSeq_ctl (q : SeqState) : (s.setSeq q).ctl = s.ctl := rfl
@[simp] theorem State.setSeq_busy (q : SeqState) : (s.setSeq q).busy = s.busy := rfl
@[simp] theorem State.setSeq_error (q : SeqState) : (s.setSeq q).error = s.error := rfl
@[simp] theorem State.setSeq_adrack (q : SeqState) : (s.setSeq q).adrack = s.adrack := rfl
@[simp] theorem State.setSeq_datack (q : SeqState) : (s.setSeq q).datack = s.datack := rfl
@[simp] theorem State.setSeq_mdrTx (q : SeqState) : (s.setSeq q).mdrTx = s.mdrTx := rfl
@[simp] theorem State.setSeq_mdrRx (q : SeqState) : (s.setSeq q).mdrRx = s.mdrRx := rfl
@[simp] theorem State.setSeq_tpr (q : SeqState) : (s.setSeq q).tpr = s.tpr := rfl
@[simp] theorem State.setSeq_mfe (q : SeqState) : (s.setSeq q).mfe = s.mfe := rfl
@[simp] theorem State.setSeq_own (q : SeqState) : (s.setSeq q).own = s.own := rfl
@[simp] theorem State.setSeq_line (q : SeqState) : (s.setSeq q).line = s.line := rfl
@[simp] theorem State.setSeq_seq (q : SeqState) : (s.setSeq q).seq = q := rfl
@[simp] theorem State.setSeq_rega (q : SeqState) : (s.setSeq q).rega = s.rega := rfl
@[simp] theorem State.setSeq_val (q : SeqState) : (s.setSeq q).val = s.val := rfl
@[simp] theorem State.setSeq_hi (q : SeqState) : (s.setSeq q).hi = s.hi := rfl
@[simp] theorem State.setSeq_lo (q : SeqState) : (s.setSeq q).lo = s.lo := rfl
@[simp] theorem State.setSeq_tflags (q : SeqState) : (s.setSeq q).tflags = s.tflags := rfl
@[simp] theorem State.setSeq_executing (q : SeqState) : (s.setSeq q).executing = s.executing := rfl
@[simp] theorem State.setSeq_rsp (q : SeqState) : (s.setSeq q).rsp = s.rsp := rfl
@[simp] theorem State.setSeq_rspValid (q : SeqState) : (s.setSeq q).rspValid = s.rspValid := rfl
@[simp] theorem State.setSeq_trace (q : SeqState) : (s.setSeq q).trace = s.trace := rfl
@[simp] theorem State.setSeq_addrSet (q : SeqState) : (s.setSeq q).addrSet = s.addrSet := rfl
@[simp] theorem State.setSeq_slave (q : SeqState) : (s.setSeq q).slave = s.slave := rfl
@[simp] theorem State.setSeq_asks (q : SeqState) : (s.setSeq q).asks = s.asks := rfl
@[simp] theorem State.setSeq_inputs (q : SeqState) : (s.setSeq q).inputs = s.inputs := rfl

/-! ### `State.symbolView` -/

@[simp] theorem State.symbolView_msa : (s.symbolView).msa = s.msa := rfl
@[simp] theorem State.symbolView_ctl : (s.symbolView).ctl = s.ctl := rfl
@[simp] theorem State.symbolView_busy : (s.symbolView).busy = s.busy := rfl
@[simp] theorem State.symbolView_error : (s.symbolView).error = s.error := rfl
@[simp] theorem State.symbolView_adrack : (s.symbolView).adrack = s.adrack := rfl
@[simp] theorem State.symbolView_datack : (s.symbolView).datack = s.datack := rfl
@[simp] theorem State.symbolView_mdrTx : (s.symbolView).mdrTx = s.mdrTx := rfl
@[simp] theorem State.symbolView_mdrRx : (s.symbolView).mdrRx = s.mdrRx := rfl
@[simp] theorem State.symbolView_tpr : (s.symbolView).tpr = s.tpr := rfl
@[simp] theorem State.symbolView_mfe : (s.symbolView).mfe = s.mfe := rfl
@[simp] theorem State.symbolView_own : (s.symbolView).own = s.own := rfl
@[simp] theorem State.symbolView_line : (s.symbolView).line = Line.reset := rfl
@[simp] theorem State.symbolView_seq : (s.symbolView).seq = s.seq := rfl
@[simp] theorem State.symbolView_rega : (s.symbolView).rega = s.rega := rfl
@[simp] theorem State.symbolView_val : (s.symbolView).val = s.val := rfl
@[simp] theorem State.symbolView_hi : (s.symbolView).hi = s.hi := rfl
@[simp] theorem State.symbolView_lo : (s.symbolView).lo = s.lo := rfl
@[simp] theorem State.symbolView_tflags : (s.symbolView).tflags = s.tflags := rfl
@[simp] theorem State.symbolView_executing : (s.symbolView).executing = s.executing := rfl
@[simp] theorem State.symbolView_rsp : (s.symbolView).rsp = s.rsp := rfl
@[simp] theorem State.symbolView_rspValid : (s.symbolView).rspValid = s.rspValid := rfl
@[simp] theorem State.symbolView_trace : (s.symbolView).trace = s.trace := rfl
@[simp] theorem State.symbolView_addrSet : (s.symbolView).addrSet = s.addrSet := rfl
@[simp] theorem State.symbolView_slave : (s.symbolView).slave = s.slave := rfl
@[simp] theorem State.symbolView_asks : (s.symbolView).asks = s.asks := rfl
@[simp] theorem State.symbolView_inputs : (s.symbolView).inputs = s.inputs := rfl

end Sys2Proof.Machine
end

