-- ==== Sys2Proof/Laws/Ops.lean ====
section
/-! SUPPORT. The shared operations: what each can do, stated once. -/

namespace Sys2Proof.Machine

/-! ### Asking the environment changes nothing of the block (spec/20_memory.md R55) -/

@[simp] theorem State.asked_msa (σ : Symbol) (s : State) : (s.asked σ).msa = s.msa := by
  unfold State.asked; split <;> rfl
@[simp] theorem State.asked_ctl (σ : Symbol) (s : State) : (s.asked σ).ctl = s.ctl := by
  unfold State.asked; split <;> rfl
@[simp] theorem State.asked_busy (σ : Symbol) (s : State) : (s.asked σ).busy = s.busy := by
  unfold State.asked; split <;> rfl
@[simp] theorem State.asked_error (σ : Symbol) (s : State) : (s.asked σ).error = s.error := by
  unfold State.asked; split <;> rfl
@[simp] theorem State.asked_adrack (σ : Symbol) (s : State) : (s.asked σ).adrack = s.adrack := by
  unfold State.asked; split <;> rfl
@[simp] theorem State.asked_datack (σ : Symbol) (s : State) : (s.asked σ).datack = s.datack := by
  unfold State.asked; split <;> rfl
@[simp] theorem State.asked_mdrTx (σ : Symbol) (s : State) : (s.asked σ).mdrTx = s.mdrTx := by
  unfold State.asked; split <;> rfl
@[simp] theorem State.asked_mdrRx (σ : Symbol) (s : State) : (s.asked σ).mdrRx = s.mdrRx := by
  unfold State.asked; split <;> rfl
@[simp] theorem State.asked_tpr (σ : Symbol) (s : State) : (s.asked σ).tpr = s.tpr := by
  unfold State.asked; split <;> rfl
@[simp] theorem State.asked_mfe (σ : Symbol) (s : State) : (s.asked σ).mfe = s.mfe := by
  unfold State.asked; split <;> rfl
@[simp] theorem State.asked_own (σ : Symbol) (s : State) : (s.asked σ).own = s.own := by
  unfold State.asked; split <;> rfl
@[simp] theorem State.asked_line (σ : Symbol) (s : State) : (s.asked σ).line = s.line := by
  unfold State.asked; split <;> rfl
@[simp] theorem State.asked_seq (σ : Symbol) (s : State) : (s.asked σ).seq = s.seq := by
  unfold State.asked; split <;> rfl
@[simp] theorem State.asked_rega (σ : Symbol) (s : State) : (s.asked σ).rega = s.rega := by
  unfold State.asked; split <;> rfl
@[simp] theorem State.asked_val (σ : Symbol) (s : State) : (s.asked σ).val = s.val := by
  unfold State.asked; split <;> rfl
@[simp] theorem State.asked_hi (σ : Symbol) (s : State) : (s.asked σ).hi = s.hi := by
  unfold State.asked; split <;> rfl
@[simp] theorem State.asked_lo (σ : Symbol) (s : State) : (s.asked σ).lo = s.lo := by
  unfold State.asked; split <;> rfl
@[simp] theorem State.asked_tflags (σ : Symbol) (s : State) : (s.asked σ).tflags = s.tflags := by
  unfold State.asked; split <;> rfl
@[simp] theorem State.asked_executing (σ : Symbol) (s : State) : (s.asked σ).executing = s.executing := by
  unfold State.asked; split <;> rfl
@[simp] theorem State.asked_rsp (σ : Symbol) (s : State) : (s.asked σ).rsp = s.rsp := by
  unfold State.asked; split <;> rfl
@[simp] theorem State.asked_rspValid (σ : Symbol) (s : State) : (s.asked σ).rspValid = s.rspValid := by
  unfold State.asked; split <;> rfl
@[simp] theorem State.asked_trace (σ : Symbol) (s : State) : (s.asked σ).trace = s.trace := by
  unfold State.asked; split <;> rfl
@[simp] theorem State.asked_addrSet (σ : Symbol) (s : State) : (s.asked σ).addrSet = s.addrSet := by
  unfold State.asked; split <;> rfl
@[simp] theorem State.asked_inputs (σ : Symbol) (s : State) : (s.asked σ).inputs = s.inputs := by
  unfold State.asked; split <;> rfl

theorem State.asked_eq (σ : Symbol) (s : State) :
    s.asked σ = { s with slave := (s.asked σ).slave, asks := (s.asked σ).asks } := by
  unfold State.asked; split <;> rfl

theorem State.wave_scripted {s : State} {w : Wave} {ws : List Wave} (σ : Symbol)
    (h : s.slave = .scripted (w :: ws)) : s.wave σ = w := by simp [State.wave, h]

theorem State.asked_scripted {s : State} {w : Wave} {ws : List Wave} (σ : Symbol)
    (h : s.slave = .scripted (w :: ws)) : s.asked σ = { s with slave := .scripted ws } := by
  simp [State.asked, h]

theorem State.wave_sensor {s : State} {r : Sensor} (σ : Symbol) (h : s.slave = .sensor r) :
    s.wave σ = r.wave σ := by simp [State.wave, h]

theorem State.asked_sensor {s : State} {r : Sensor} (σ : Symbol) (h : s.slave = .sensor r) :
    s.asked σ = { s with slave := .sensor (r.after σ) } := by simp [State.asked, h]

/-! ### Sequencing -/

@[simp] theorem Run.bind_done {α β : Type} (a : α) (s : State) (k : α → State → Run β) :
    (Run.done a s).bind k = k a s := rfl

@[simp] theorem Run.bind_hang {α β : Type} (s : State) (k : α → State → Run β) :
    (Run.hang s : Run α).bind k = .hang s := rfl

@[simp] theorem Run.bind_undef {α β : Type} (r : Refusal) (k : α → State → Run β) :
    (Run.undef r : Run α).bind k = .undef r := rfl

@[simp] theorem Run.respond_done (r : Response) (s : State) :
    (Run.done r s).respond = .next (s.respond r) := rfl

@[simp] theorem Run.respond_hang (s : State) : (Run.hang s).respond = .next s := rfl

@[simp] theorem Run.respond_undef (r : Refusal) : (Run.undef r).respond = .refused r := rfl

/-- If a bound run ends, its first part ended. -/
theorem Run.bind_eq_done {α β : Type} {m : Run α} {k : α → State → Run β} {b : β} {t : State}
    (h : m.bind k = .done b t) : ∃ a s, m = .done a s ∧ k a s = .done b t := by
  cases m with
  | done a s => exact ⟨a, s, rfl, h⟩
  | hang s => cases h
  | undef r => cases h

/-- If a bound run hangs, its first part hung, or ended and the rest hung. -/
theorem Run.bind_eq_hang {α β : Type} {m : Run α} {k : α → State → Run β} {t : State}
    (h : m.bind k = .hang t) : m = .hang t ∨ ∃ a s, m = .done a s ∧ k a s = .hang t := by
  cases m with
  | done a s => exact .inr ⟨a, s, rfl, h⟩
  | hang s => cases h; exact .inl rfl
  | undef r => cases h

/-! ### The engine registers -/

@[simp] theorem statusBusy_statusWord (s : State) : statusBusy (statusWord s) = s.busy := by
  cases hd : s.datack <;> cases ha : s.adrack <;> cases he : s.error <;> cases hb : s.busy <;>
    simp [statusBusy, statusWord, hd, ha, he, hb]

@[simp] theorem statusErrors_statusWord (s : State) : statusErrors (statusWord s) = s.errors := by
  cases hd : s.datack <;> cases ha : s.adrack <;> cases he : s.error <;> cases hb : s.busy <;>
    simp [statusErrors, statusWord, State.errors, hd, ha, he, hb]

/-- The flag set is 0 exactly when no flag is set. -/
theorem State.errors_eq_zero (s : State) :
    s.errors = 0 ↔ s.datack = false ∧ s.adrack = false ∧ s.error = false := by
  cases hd : s.datack <;> cases ha : s.adrack <;> cases he : s.error <;>
    simp [State.errors, hd, ha, he]

@[simp] theorem memRead_mcs (s : State) : memRead .mcs s = statusWord s := rfl

@[simp] theorem memRead_msa (s : State) : memRead .msa s = s.msa.setWidth 32 := rfl

@[simp] theorem memRead_mdr (s : State) : memRead .mdr s = s.mdrRx.setWidth 32 := rfl

@[simp] theorem memWrite_msa (eng : Engine) (v : Word) (s : State) :
    memWrite eng .msa v s = .done () (s.writeMsa v) := rfl

@[simp] theorem memWrite_mdr (eng : Engine) (v : Word) (s : State) :
    memWrite eng .mdr v s = .done () (s.writeMdr v) := rfl

@[simp] theorem memWrite_tpr (eng : Engine) (v : Word) (s : State) :
    memWrite eng .tpr v s = .done () (s.writeTpr v) := rfl

@[simp] theorem memWrite_mfe (eng : Engine) (v : Word) (s : State) :
    memWrite eng .mfe v s = .done () (s.writeMfe v) := rfl

/-- A control write: refused while `BUSY = 1`, the engine's otherwise (R85, R86). -/
theorem memWrite_mcs (eng : Engine) (v : Word) (s : State) :
    memWrite eng .mcs v s =
      if s.busy then .undef .controlWriteWhileBusy else .done () (eng (v.setWidth 4) s) := rfl

/-- The wait ends exactly when `BUSY = 0` (R125). -/
theorem waitNotBusy_eq (s : State) :
    waitNotBusy s = if s.busy then .hang s else .done () s := by
  simp [waitNotBusy]

theorem byte_through_word (b : Byte) : (b.setWidth 32).setWidth 8 = b := by simp

theorem ctl_through_word (c : Ctl) : (c.setWidth 32).setWidth 4 = c := by simp

/-! ### Waiting and taking a BusError, over any engine -/

/-- The forced STOP (R127). -/
theorem forcedStop_eq (eng : Engine) (s : State) :
    forcedStop eng s =
      if s.busy then .undef .controlWriteWhileBusy
      else if (eng 0x4 s).busy then .hang (eng 0x4 s) else .done () (eng 0x4 s) := by
  unfold forcedStop
  rw [memWrite_mcs]
  by_cases h : s.busy <;> simp [h, waitNotBusy_eq]

/-- Taking a BusError (R154). -/
theorem raiseBusError_eq (eng : Engine) {α : Type} (f : BitVec 3) (s : State) :
    (raiseBusError eng f s : Run (Xfer α)) =
      if s.busy then .undef .controlWriteWhileBusy
      else if (eng 0x4 s).busy then .hang (eng 0x4 s) else .done (.err f) (eng 0x4 s) := by
  unfold raiseBusError
  rw [forcedStop_eq]
  split
  · rfl
  · split <;> rfl

/-- A byte transfer over any engine, whole (R123, R124, R126): the engine's state after the control
write is waited for and tested, and an error forces a Stop. -/
theorem transfer_eq (eng : Engine) {α : Type} (c : Ctl) (k : State → Run (Xfer α)) (s : State) :
    transfer eng c k s =
      if s.busy then .undef .controlWriteWhileBusy
      else if (eng c s).busy then .hang (eng c s)
      else if (eng c s).errors = 0 then k (eng c s)
      else if (eng 0x4 (eng c s)).busy then .hang (eng 0x4 (eng c s))
      else .done (.err (eng c s).errors) (eng 0x4 (eng c s)) := by
  unfold transfer
  rw [memWrite_mcs, ctl_through_word]
  by_cases h : s.busy
  · simp [h]
  · by_cases hb : (eng c s).busy
    · simp [h, hb, waitNotBusy_eq]
    · simp only [h, hb, waitNotBusy_eq, Bool.false_eq_true, if_false, Run.bind_done, errorTest,
        memRead_mcs, statusErrors_statusWord, raiseBusError_eq]

/-! ### The command port -/

/-- A command at the port, whole: not accepted, refused, or run (R14, R76, R177). -/
theorem command_eq (ok : State → Bool) (body : State → Run Response) (s : State) :
    command ok body s =
      if s.executing then .next s
      else if ok s then (body s.accept).respond else .next s.refuse := by
  unfold command State.cmdReady
  cases s.executing <;> simp

/-- A command that answers a next state was not accepted, was refused, ended, or hung. -/
theorem command_next {ok : State → Bool} {body : State → Run Response} {s t : State}
    (h : command ok body s = .next t) :
    (s.executing = true ∧ t = s) ∨
    (s.executing = false ∧ ok s = false ∧ t = s.refuse) ∨
    (s.executing = false ∧ ok s = true ∧
      ((∃ r u, body s.accept = .done r u ∧ t = u.respond r) ∨ body s.accept = .hang t)) := by
  rw [command_eq] at h
  cases he : s.executing <;> simp only [he, if_true, Bool.false_eq_true, if_false] at h
  · cases ho : ok s <;> simp only [ho, if_true, Bool.false_eq_true, if_false] at h
    · exact .inr (.inl ⟨rfl, rfl, by cases h; rfl⟩)
    · refine .inr (.inr ⟨rfl, rfl, ?_⟩)
      cases hb : body s.accept with
      | done r u => rw [hb] at h; cases h; exact .inl ⟨r, u, rfl, rfl⟩
      | hang u => rw [hb] at h; cases h; exact .inr rfl
      | undef r => rw [hb] at h; cases h
  · cases h; exact .inl ⟨rfl, rfl⟩

end Sys2Proof.Machine
end

