-- ==== Sys2Proof/Laws/Engine.lean ====
section
/-! SUPPORT. The bus symbols and the phases of an engine operation: what each can do, and what the
engine leaves unchanged (spec/40_engine.md R86 to R116). -/

namespace Sys2Proof.Machine

/-- The state after a symbol that ended: the environment asked, the lines driven, the event
recorded. -/
def symbolEnd (σ : Symbol) (e : BusEvent) (l : Line) (s : State) : State :=
  State.emit e { s.asked σ with line := l }

/-- The state in which a symbol stalled. -/
def symbolStall (σ : Symbol) (l : Line) (s : State) : State := { s.asked σ with line := l }

/-- `Start` (R109). -/
theorem lineSymbols_start (s : State) :
    lineSymbols.start s =
      if (s.wave .start).proceeds then
        .done () (symbolEnd .start .start
          { s.line with sdaO := false, sclO := false, psc := 0, tickcnt := 1 } s)
      else .stall (symbolStall .start { s.line with psc := 0, tickcnt := 0 } s) := by
  simp only [lineSymbols, lineCond, lineCondition_start]
  by_cases h : (s.wave .start).proceeds = true <;>
    simp only [h, if_true, if_false, Bool.false_eq_true, symbolEnd, symbolStall]

/-- `RepStart` (R110). -/
theorem lineSymbols_repStart (s : State) :
    lineSymbols.repStart s =
      if (s.wave .repStart).proceeds then
        .done () (symbolEnd .repStart .repStart
          { s.line with sdaO := false, sclO := false, psc := 0, tickcnt := 1 } s)
      else .stall (symbolStall .repStart
          { s.line with sdaO := true, sclO := true, psc := 0, tickcnt := 0 } s) := by
  simp only [lineSymbols, lineCond, lineCondition_repStart]
  by_cases h : (s.wave .repStart).proceeds = true <;>
    simp only [h, if_true, if_false, Bool.false_eq_true, symbolEnd, symbolStall]

/-- `Stop` (R111). -/
theorem lineSymbols_stop (s : State) :
    lineSymbols.stop s =
      if (s.wave .stop).proceeds then
        .done () (symbolEnd .stop .stop
          { s.line with sdaO := true, sclO := true, psc := 0, tickcnt := 5 } s)
      else .stall (symbolStall .stop
          { s.line with sdaO := false, sclO := true, psc := 0, tickcnt := 0 } s) := by
  simp only [lineSymbols, lineCond, lineCondition_stop]
  by_cases h : (s.wave .stop).proceeds = true <;>
    simp only [h, if_true, if_false, Bool.false_eq_true, symbolEnd, symbolStall]

/-- `TxByte(v)` (R107): it answers what the slave's wave answers. -/
theorem lineSymbols_tx (v : Byte) (s : State) :
    (∃ a l, lineSymbols.tx v s = .done a (symbolEnd (.tx v) (txEvent v a) l s) ∧
      (s.wave (.tx v)).tx v = some a ∧ (a ≠ .lost → l.sclO = false ∧ l.sdaO = true) ∧
      l.bitcnt.toNat ≤ 8) ∨
    (∃ l, lineSymbols.tx v s = .stall (symbolStall (.tx v) l s) ∧
      (s.wave (.tx v)).tx v = none ∧ l.bitcnt.toNat ≤ 8) := by
  rcases lineTx_result v (s.wave (.tx v)) s.line with ⟨a, l, h, rest⟩ | ⟨l, h, rest⟩
  · exact .inl ⟨a, l, by simp only [lineSymbols, h]; rfl, rest⟩
  · exact .inr ⟨l, by simp only [lineSymbols, h]; rfl, rest⟩

/-- `RxByte(a)` (R108): it receives the byte of the slave's wave. -/
theorem lineSymbols_rx (a : Bool) (s : State) :
    (∃ v l, lineSymbols.rx a s = .done v (symbolEnd .rx (.rxByte v a) l s) ∧
      (s.wave .rx).rx = some v ∧ l.sclO = false ∧ l.bitcnt.toNat ≤ 8) ∨
    (∃ l, lineSymbols.rx a s = .stall (symbolStall .rx l s) ∧
      (s.wave .rx).rx = none ∧ l.bitcnt.toNat ≤ 8) := by
  rcases lineRx_result a (s.wave .rx) s.line with ⟨v, l, h, rest⟩ | ⟨l, h, rest⟩
  · exact .inl ⟨v, l, by simp only [lineSymbols, h]; rfl, rest⟩
  · exact .inr ⟨l, by simp only [lineSymbols, h]; rfl, rest⟩

/-! ### The lines after a byte, exactly -/

/-- The cells of a transmitted byte that is not lost leave SCL low, SDA released and `SHIFT` shifted
through (R107). -/
theorem sendCells_done (n : Nat) (w : Wave) (l : Line) (a : TxAns)
    (h : Wave.txCells n l.shift w = some a) (ha : a ≠ .lost) :
    sendCells n w l = .done a (Line.heldWith (l.shift <<< n)) := by
  induction n generalizing w l with
  | zero =>
    cases hs : w.now.stretch with
    | none => simp [Wave.txCells, hs] at h
    | some k =>
      simp only [Wave.txCells, hs, Option.isNone_some, Bool.false_eq_true, if_false,
        Option.some.injEq] at h
      simp [sendCells, bitCell_eq, hs, h, Line.heldWith]
  | succ n ih =>
    cases hs : w.now.stretch with
    | none => simp [Wave.txCells, hs] at h
    | some k =>
      by_cases hl : l.shift.msb && !w.now.sda
      · rw [Wave.txCells] at h
        simp only [hs, hl, Option.isNone_some, Bool.false_eq_true, if_false, if_true,
          Option.some.injEq] at h
        exact absurd h.symm ha
      · have hl' : (l.shift.msb && !(l.shift.msb && w.now.sda)) = false := by
          revert hl; cases l.shift.msb <;> simp
        rw [Wave.txCells] at h
        simp only [hs, hl, Option.isNone_some, Bool.false_eq_true, if_false] at h
        rw [sendCells, bitCell_eq]
        simp only [hs, Option.isNone_some, Bool.false_eq_true, if_false, Res.bind_done, hl']
        rw [ih _ _ (by simpa using h)]
        simp only [Line.heldWith, Nat.add_comm n 1, BitVec.shiftLeft_add]

/-- The cells of a received byte leave SCL low, SDA as the acknowledge bit drove it, and the byte in
`SHIFT` (R108). -/
theorem receiveCells_done (a : Bool) (n : Nat) (w : Wave) (l : Line) (v : Byte)
    (h : Wave.rxCells n l.shift w = some v) :
    receiveCells a n w l = .done v { Line.heldWith v with sdaO := a } := by
  induction n generalizing w l with
  | zero =>
    cases hs : w.now.stretch with
    | none => simp [Wave.rxCells, hs] at h
    | some k =>
      simp only [Wave.rxCells, hs, Option.isNone_some, Bool.false_eq_true, if_false,
        Option.some.injEq] at h
      simp [receiveCells, bitCell_eq, hs, h, Line.heldWith]
  | succ n ih =>
    cases hs : w.now.stretch with
    | none => simp [Wave.rxCells, hs] at h
    | some k =>
      rw [Wave.rxCells] at h
      simp only [hs, Option.isNone_some, Bool.false_eq_true, if_false] at h
      rw [receiveCells, bitCell_eq]
      simp only [hs, Option.isNone_some, Bool.false_eq_true, if_false, Res.bind_done, Bool.true_and]
      exact ih _ _ (by simpa using h)

/-- A transmitted byte that the slave answers in the ninth cell (R107). -/
theorem lineSymbols_tx_done {v : Byte} {s : State} {a : TxAns}
    (h : (s.wave (.tx v)).tx v = some a) (ha : a ≠ .lost) :
    lineSymbols.tx v s =
      .done a (symbolEnd (.tx v) (txEvent v a) (Line.heldWith 0) s) := by
  have := sendCells_done 8 (s.wave (.tx v)) { s.line with shift := v } a h ha
  simp only [lineSymbols, lineTx, this, symbolEnd]
  congr 4
  exact BitVec.shiftLeft_eq_zero (Nat.le_refl 8)

/-- A transmitted byte that loses arbitration (R107, R115). -/
theorem lineSymbols_tx_lost {v : Byte} {s : State} (h : (s.wave (.tx v)).tx v = some .lost) :
    ∃ l, lineSymbols.tx v s = .done .lost (symbolEnd (.tx v) (.txLost v) l s) := by
  rcases lineSymbols_tx v s with ⟨a, l, e, ha, -⟩ | ⟨l, -, hn, -⟩
  · rw [h] at ha; cases ha; exact ⟨l, e⟩
  · rw [h] at hn; cases hn

/-- A received byte (R108). -/
theorem lineSymbols_rx_done {a : Bool} {s : State} {v : Byte} (h : (s.wave .rx).rx = some v) :
    lineSymbols.rx a s =
      .done v (symbolEnd .rx (.rxByte v a) { Line.heldWith v with sdaO := a } s) := by
  have := receiveCells_done a 8 (s.wave .rx) { s.line with shift := 0 } v h
  simp only [lineSymbols, lineRx, this, symbolEnd]

/-- A symbol that ends, against a scripted slave, takes the first wave of the script. -/
theorem symbolEnd_scripted {s : State} {w : Wave} {ws : List Wave} (σ : Symbol) (e : BusEvent)
    (l : Line) (h : s.slave = .scripted (w :: ws)) :
    symbolEnd σ e l s = { s with line := l, trace := s.trace ++ [e], slave := .scripted ws } := by
  simp [symbolEnd, State.asked_scripted σ h, State.emit]

/-! ### A relation that every update of an operation keeps, the engine keeps -/

/-- A relation between the state before and after: reflexive, transitive, and holding of every
update an engine operation makes. -/
structure EngineRel (R : State → State → Prop) : Prop where
  refl : ∀ s, R s s
  trans : ∀ {s t u}, R s t → R t u → R s u
  ctl : ∀ s c, R s { s with ctl := c }
  symbolEnd : ∀ σ e l s, R s (symbolEnd σ e l s)
  symbolStall : ∀ σ l s, R s (symbolStall σ l s)
  startByteOp : ∀ s, R s s.startByteOp
  startStopOp : ∀ s, R s s.startStopOp
  latchDirection : ∀ s, R s s.latchDirection
  addressNack : ∀ s, R s s.addressNack
  dataNack : ∀ s, R s s.dataNack
  arbitrationLost : ∀ s, R s s.arbitrationLost
  mdrRx : ∀ s v, R s { s with mdrRx := v }
  stopped : ∀ s, R s s.stopped
  held : ∀ s, R s s.held

theorem Res.bind_rel {R : State → State → Prop} {α β : Type} {s : State} {m : Res State α}
    {k : α → State → Res State β} (htrans : ∀ {s t u}, R s t → R t u → R s u)
    (hm : R s m.state) (hk : ∀ a t, R t (k a t).state) : R s (m.bind k).state := by
  cases m with
  | done a t => exact htrans hm (hk a t)
  | stall t => exact hm

namespace EngineRel

variable {R : State → State → Prop} (h : EngineRel R)

include h

theorem start (s : State) : R s (lineSymbols.start s).state := by
  rw [lineSymbols_start]; split
  · exact h.symbolEnd _ _ _ _
  · exact h.symbolStall _ _ _

theorem repStart (s : State) : R s (lineSymbols.repStart s).state := by
  rw [lineSymbols_repStart]; split
  · exact h.symbolEnd _ _ _ _
  · exact h.symbolStall _ _ _

theorem stop (s : State) : R s (lineSymbols.stop s).state := by
  rw [lineSymbols_stop]; split
  · exact h.symbolEnd _ _ _ _
  · exact h.symbolStall _ _ _

theorem tx (v : Byte) (s : State) : R s (lineSymbols.tx v s).state := by
  rcases lineSymbols_tx v s with ⟨a, l, e, -⟩ | ⟨l, e, -⟩ <;> rw [e]
  · exact h.symbolEnd _ _ _ _
  · exact h.symbolStall _ _ _

theorem rx (a : Bool) (s : State) : R s (lineSymbols.rx a s).state := by
  rcases lineSymbols_rx a s with ⟨v, l, e, -⟩ | ⟨l, e, -⟩ <;> rw [e]
  · exact h.symbolEnd _ _ _ _
  · exact h.symbolStall _ _ _

theorem addressPhase (s : State) : R s (addressPhase lineSymbols s).state := by
  refine Res.bind_rel h.trans ?_ fun _ s => ?_
  · split
    · exact h.start s
    · exact h.repStart s
  · refine Res.bind_rel h.trans (h.trans (h.latchDirection s) (h.tx _ _)) fun a s => ?_
    cases a
    · exact h.refl s
    · exact h.addressNack s
    · exact h.arbitrationLost s

theorem dataPhase (c : Ctl) (s : State) : R s (dataPhase lineSymbols c s).state := by
  unfold Machine.dataPhase
  split
  · exact Res.bind_rel h.trans (h.rx _ s) fun v s => h.mdrRx s v
  · refine Res.bind_rel h.trans (h.tx _ s) fun a s => ?_
    cases a
    · exact h.refl s
    · exact h.dataNack s
    · exact h.arbitrationLost s

theorem finishPhase (c : Ctl) (s : State) : R s (finishPhase lineSymbols c s).state := by
  unfold Machine.finishPhase
  split
  · exact Res.bind_rel h.trans (h.stop s) fun _ s => h.stopped s
  · exact h.held s

theorem byteOperation (c : Ctl) (s : State) : R s (byteOperation lineSymbols c s).state := by
  refine Res.bind_rel h.trans ?_ fun a s => ?_
  · split
    · exact h.addressPhase s
    · exact h.refl s
  · cases a
    · refine Res.bind_rel h.trans (h.dataPhase c s) fun a s => ?_
      cases a
      · exact h.finishPhase c s
      · exact h.finishPhase c s
      · exact h.refl s
    · exact h.finishPhase c s
    · exact h.refl s

/-- Whatever every update keeps, a control write keeps. -/
theorem engine (c : Ctl) (s : State) : R s (engine c s) := by
  refine h.trans (h.ctl s c) ?_
  unfold Machine.engine engineWith
  dsimp only
  split
  · exact h.refl _
  · split
    · exact h.refl _
    · split
      · exact h.refl _
      · split
        · exact h.trans (h.startStopOp _)
            (Res.bind_rel h.trans (h.stop _) fun _ s => h.stopped s)
        · exact h.trans (h.startByteOp _) (h.byteOperation c _)

end EngineRel

/-- An engine operation leaves everything but its own state unchanged (R86 to R90). -/
theorem engine_frame (c : Ctl) (s : State) : sameBesidesEngine s (engine c s) := by
  refine EngineRel.engine (R := sameBesidesEngine)
    { refl := fun _ => rfl, trans := ?_, ctl := fun _ _ => rfl,
      symbolEnd := fun σ e l s => ?_, symbolStall := fun σ l s => ?_,
      startByteOp := fun _ => rfl, startStopOp := fun _ => rfl, latchDirection := fun _ => rfl,
      addressNack := fun _ => rfl, dataNack := fun _ => rfl, arbitrationLost := fun _ => rfl,
      mdrRx := fun _ _ => rfl, stopped := fun _ => rfl, held := fun _ => rfl } c s
  · intro s t u h₁ h₂
    unfold sameBesidesEngine at *
    rw [h₂, h₁]
  · unfold sameBesidesEngine Machine.symbolEnd
    rw [State.asked_eq]; rfl
  · unfold sameBesidesEngine Machine.symbolStall
    rw [State.asked_eq]

/-! ### The cases of a control write -/

/-- A control write that starts no operation latches `CTL` and does nothing else (R86 steps 1 to
3). -/
theorem engineWith_idle (P : Symbols) (c : Ctl) (s : State)
    (h : s.mfe = false ∨ (ctlRunBit c = false ∧ (ctlStopBit c = false ∨ s.own = .idle)) ∨
      (ctlStartBit c = false ∧ s.own = .idle)) :
    engineWith P c s = { s with ctl := c } := by
  unfold engineWith
  dsimp only
  split
  · rfl
  · split
    · rfl
    · split
      · rfl
      · exfalso
        rcases h with h | ⟨h₁, h₂⟩ | ⟨h₁, h₂⟩
        · simp_all
        · simp_all
        · cases hr : ctlRunBit c <;> simp_all

/-- A Stop alone while the bus is owned (R86 step 4). -/
theorem engineWith_stop (P : Symbols) (c : Ctl) (s : State) (hm : s.mfe = true)
    (hr : ctlRunBit c = false) (hs : ctlStopBit c = true) (ho : s.own ≠ .idle) :
    engineWith P c s = (stopOperation P ({ s with ctl := c } : State).startStopOp).state := by
  simp [engineWith, hm, hr, hs, ho]

/-- An operation that runs a byte (R86 step 5). -/
theorem engineWith_byte (P : Symbols) (c : Ctl) (s : State) (hm : s.mfe = true)
    (hr : ctlRunBit c = true) (ho : ctlStartBit c = true ∨ s.own ≠ .idle) :
    engineWith P c s = (byteOperation P c ({ s with ctl := c } : State).startByteOp).state := by
  rcases ho with ho | ho <;> simp [engineWith, hm, hr, ho]

end Sys2Proof.Machine
end

