-- ==== Sys2Proof/Laws/Outcome.lean ====
section
/-! SUPPORT. Everything a control write can do, stated once, whatever the slave does: it starts nothing,
or releases the bus, or runs to the finish, or loses arbitration, or stalls (spec/40_engine.md R86 to
R90, R114, R115). -/

namespace Sys2Proof.Machine

/-! ### What the symbols take from the slave (spec/20_memory.md R55) -/

/-- A slave that answers `n` more symbols and never holds SCL low for ever meanwhile. -/
def Slave.answersFor (n : Nat) : Slave → Prop
  | .unknown => False
  | .scripted ws => n ≤ ws.length ∧ ∀ w ∈ ws, ∀ p ∈ w, p.stretch.isSome = true
  | .sensor _ => True

/-- From `a` to `b` the slave has answered `n` symbols: what it could still answer, it can but for
those. -/
def Consumed (a : Slave) (n : Nat) (b : Slave) : Prop :=
  ∀ k, a.answersFor (n + k) → b.answersFor k

theorem Consumed.zero (a : Slave) : Consumed a 0 a := fun k h => by simpa using h

theorem Consumed.trans {a b c : Slave} {m n : Nat} (h : Consumed a m b) (h' : Consumed b n c) :
    Consumed a (m + n) c := fun k hk => h' k (h (n + k) (by rwa [← Nat.add_assoc]))

theorem Consumed.asked (σ : Symbol) (s : State) : Consumed s.slave 1 (s.asked σ).slave := by
  intro k h
  unfold State.asked
  cases hs : s.slave with
  | unknown => rw [hs] at h; exact h.elim
  | sensor r => exact trivial
  | scripted ws =>
    rw [hs] at h
    cases ws with
    | nil => simp [Slave.answersFor] at h
    | cons w ws =>
      simp only [Slave.answersFor, List.length_cons, List.mem_cons, forall_eq_or_imp] at h ⊢
      exact ⟨by omega, h.2.2⟩

/-- A wave none of whose pulses is stuck lets every condition and every byte through. -/
theorem Wave.proceeds_of_all {w : Wave} (h : ∀ p ∈ w, p.stretch.isSome = true) :
    w.proceeds = true := by
  cases w with
  | nil => rfl
  | cons p w => simpa [Wave.proceeds, Wave.now] using h p (by simp)

theorem Wave.now_isNone_of_all {w : Wave} (h : ∀ p ∈ w, p.stretch.isSome = true) :
    w.now.stretch.isNone = false := by
  have := Wave.proceeds_of_all h
  unfold Wave.proceeds at this
  rw [← Option.not_isSome, this]; rfl

theorem Wave.txCells_of_all {n : Nat} {v : Byte} {w : Wave}
    (h : ∀ p ∈ w, p.stretch.isSome = true) : Wave.txCells n v w ≠ none := by
  induction n generalizing v w with
  | zero => simp [Wave.txCells, Wave.now_isNone_of_all h]
  | succ n ih =>
    rw [Wave.txCells, if_neg (by simp [Wave.now_isNone_of_all h])]
    split
    · simp
    · exact ih fun p hp => h p (List.mem_of_mem_tail hp)

theorem Wave.rxCells_of_all {n : Nat} {v : Byte} {w : Wave}
    (h : ∀ p ∈ w, p.stretch.isSome = true) : Wave.rxCells n v w ≠ none := by
  induction n generalizing v w with
  | zero => simp [Wave.rxCells, Wave.now_isNone_of_all h]
  | succ n ih =>
    rw [Wave.rxCells, if_neg (by simp [Wave.now_isNone_of_all h])]
    exact ih fun p hp => h p (List.mem_of_mem_tail hp)

/-- The wave of a slave that still answers has no stuck pulse. -/
theorem Slave.wave_of_answers {s : State} (σ : Symbol) (h : s.slave.answersFor 1) :
    ∀ p ∈ s.wave σ, p.stretch.isSome = true := by
  unfold State.wave
  cases hs : s.slave with
  | unknown => rw [hs] at h; exact h.elim
  | sensor r =>
    cases σ with
    | start => simp [Sensor.wave, Wave.quiet]
    | repStart => simp [Sensor.wave, Wave.quiet]
    | stop => simp [Sensor.wave, Wave.quiet]
    | tx v =>
      simp only [Sensor.wave]
      split <;> simp [Wave.quiet, Wave.acks, Pulse.released, Pulse.low]
    | rx => simp [Sensor.wave, Wave.supplies]
  | scripted ws =>
    rw [hs] at h
    cases ws with
    | nil => simp [Slave.answersFor] at h
    | cons w ws => exact h.2 w (by simp)

/-! ### The state a piece of an operation leaves -/

/-- The state with what an operation writes besides `CTL` and `BUSY`, `es` the events it added. -/
def moved (s : State) (o : Own) (e a k : Bool) (v : Byte) (l : Line) (es : List BusEvent)
    (sl : Slave) (n : Nat) : State :=
  { s with own := o, error := e, adrack := a, datack := k, mdrRx := v, line := l,
           trace := s.trace ++ es, slave := sl, asks := n }

theorem moved_moved (s : State) (o o' : Own) (e a k e' a' k' : Bool) (v v' : Byte) (l l' : Line)
    (es es' : List BusEvent) (sl sl' : Slave) (n n' : Nat) :
    moved (moved s o e a k v l es sl n) o' e' a' k' v' l' es' sl' n' =
      moved s o' e' a' k' v' l' (es ++ es') sl' n' := by
  simp [moved]

theorem symbolEnd_eq (σ : Symbol) (e : BusEvent) (l : Line) (s : State) :
    symbolEnd σ e l s = moved s s.own s.error s.adrack s.datack s.mdrRx l [e]
      (s.asked σ).slave (s.asked σ).asks := by
  unfold symbolEnd moved
  rw [State.asked_eq]; rfl

theorem symbolStall_eq (σ : Symbol) (l : Line) (s : State) :
    symbolStall σ l s = moved s s.own s.error s.adrack s.datack s.mdrRx l []
      (s.asked σ).slave (s.asked σ).asks := by
  unfold symbolStall moved
  rw [State.asked_eq]; simp

/-- The direction an address byte latches (R87). -/
def latched (s : State) : Own := if msaRead s.msa then .rx else .tx

theorem latchDirection_moved (s : State) (o : Own) (e a k : Bool) (v : Byte) (l : Line)
    (es : List BusEvent) (sl : Slave) (n : Nat) :
    (moved s o e a k v l es sl n).latchDirection = moved s (latched s) e a k v l es sl n := rfl

theorem latched_startByteOp (c : Ctl) (s : State) :
    latched ({ s with ctl := c } : State).startByteOp = latched s := rfl

/-- `BITCNT` stays in its range. -/
def cellsKept (s : State) (l : Line) : Prop := s.line.bitcnt.toNat ≤ 8 → l.bitcnt.toNat ≤ 8

/-- Everything the address phase can do (R87). -/
inductive AddressOutcome (s : State) : Res State TxAns → Prop where
  | ack (sl n) : Consumed s.slave 2 sl →
      AddressOutcome s (.done .ack (moved s (latched s) s.error s.adrack s.datack s.mdrRx
        (Line.heldWith 0) [startEvent s.own, .txByte s.msa false] sl n))
  | nack (sl n) : Consumed s.slave 2 sl →
      AddressOutcome s (.done .nack (moved s (latched s) true true s.datack s.mdrRx
        (Line.heldWith 0) [startEvent s.own, .txByte s.msa true] sl n))
  | lost (l sl n) : Consumed s.slave 2 sl → l.sclO = true → l.sdaO = true → l.bitcnt.toNat ≤ 8 →
      AddressOutcome s (.done .lost { moved s .idle true s.adrack s.datack s.mdrRx l
        [startEvent s.own, .txLost s.msa] sl n with busy := false })
  | stall (o l es sl n) :
      (es = [] ∧ o = s.own ∧ ¬ s.slave.answersFor 1) ∨
        (es = [startEvent s.own] ∧ o = latched s ∧ ¬ s.slave.answersFor 2) →
      cellsKept s l →
      AddressOutcome s (.stall (moved s o s.error s.adrack s.datack s.mdrRx l es sl n))

theorem start_outcome (s : State) :
    (∃ l sl n, (if s.own = .idle then lineSymbols.start s else lineSymbols.repStart s) =
        .done () (moved s s.own s.error s.adrack s.datack s.mdrRx l [startEvent s.own] sl n) ∧
        Consumed s.slave 1 sl) ∨
    (∃ l sl n, (if s.own = .idle then lineSymbols.start s else lineSymbols.repStart s) =
        .stall (moved s s.own s.error s.adrack s.datack s.mdrRx l [] sl n) ∧
        ¬ s.slave.answersFor 1 ∧ cellsKept s l) := by
  by_cases ho : s.own = .idle
  · simp only [if_pos ho, lineSymbols_start]
    by_cases hp : (s.wave .start).proceeds = true
    · left
      rw [if_pos hp, symbolEnd_eq]
      exact ⟨_, _, _, by rw [startEvent, if_pos ho], Consumed.asked _ _⟩
    · right
      rw [if_neg hp, symbolStall_eq]
      exact ⟨_, _, _, rfl, fun h => hp (Wave.proceeds_of_all (Slave.wave_of_answers _ h)),
        fun h => h⟩
  · simp only [if_neg ho, lineSymbols_repStart]
    by_cases hp : (s.wave .repStart).proceeds = true
    · left
      rw [if_pos hp, symbolEnd_eq]
      exact ⟨_, _, _, by rw [startEvent, if_neg ho], Consumed.asked _ _⟩
    · right
      rw [if_neg hp, symbolStall_eq]
      exact ⟨_, _, _, rfl, fun h => hp (Wave.proceeds_of_all (Slave.wave_of_answers _ h)),
        fun h => h⟩

/-- A transmitted byte, whatever the slave does (R107). -/
theorem tx_outcome (v : Byte) (s : State) :
    (∃ (k : Bool) (sl : Slave) (n : Nat), lineSymbols.tx v s = .done (if k then .nack else .ack)
        (moved s s.own s.error s.adrack s.datack s.mdrRx (Line.heldWith 0) [.txByte v k] sl n) ∧
        Consumed s.slave 1 sl) ∨
    (∃ l sl n, lineSymbols.tx v s = .done .lost
        (moved s s.own s.error s.adrack s.datack s.mdrRx l [.txLost v] sl n) ∧
        Consumed s.slave 1 sl ∧ l.bitcnt.toNat ≤ 8) ∨
    (∃ l sl n, lineSymbols.tx v s =
        .stall (moved s s.own s.error s.adrack s.datack s.mdrRx l [] sl n) ∧
        ¬ s.slave.answersFor 1 ∧ l.bitcnt.toNat ≤ 8) := by
  rcases lineSymbols_tx v s with ⟨a, l, e, ha, -, hb⟩ | ⟨l, e, hn, hb⟩
  · cases a with
    | ack =>
      left
      rw [lineSymbols_tx_done ha (by simp), symbolEnd_eq]
      exact ⟨false, _, _, rfl, Consumed.asked (.tx v) s⟩
    | nack =>
      left
      rw [lineSymbols_tx_done ha (by simp), symbolEnd_eq]
      exact ⟨true, _, _, rfl, Consumed.asked (.tx v) s⟩
    | lost =>
      right; left
      rw [e, symbolEnd_eq]
      exact ⟨l, _, _, rfl, Consumed.asked (.tx v) s, hb⟩
  · right; right
    rw [e, symbolStall_eq]
    exact ⟨l, _, _, rfl,
      fun h => Wave.txCells_of_all (Slave.wave_of_answers _ h) hn, hb⟩

/-- A received byte, whatever the slave does (R108). -/
theorem rx_outcome (a : Bool) (s : State) :
    (∃ v sl n, lineSymbols.rx a s = .done v
        (moved s s.own s.error s.adrack s.datack s.mdrRx { Line.heldWith v with sdaO := a }
          [.rxByte v a] sl n) ∧ Consumed s.slave 1 sl) ∨
    (∃ l sl n, lineSymbols.rx a s =
        .stall (moved s s.own s.error s.adrack s.datack s.mdrRx l [] sl n) ∧
        ¬ s.slave.answersFor 1 ∧ l.bitcnt.toNat ≤ 8) := by
  rcases lineSymbols_rx a s with ⟨v, l, e, hv, -, -⟩ | ⟨l, e, hn, hb⟩
  · left
    rw [lineSymbols_rx_done hv, symbolEnd_eq]
    exact ⟨v, _, _, rfl, Consumed.asked .rx s⟩
  · right
    rw [e, symbolStall_eq]
    exact ⟨l, _, _, rfl,
      fun h => Wave.rxCells_of_all (Slave.wave_of_answers _ h) hn, hb⟩

theorem addressPhase_outcome (s : State) :
    AddressOutcome s (addressPhase lineSymbols s) := by
  unfold addressPhase
  rcases start_outcome s with ⟨l, sl, n, e, hc⟩ | ⟨l, sl, n, e, hn, hk⟩
  · rw [e]
    simp only [Res.bind_done]
    have hm : (moved s s.own s.error s.adrack s.datack s.mdrRx l [startEvent s.own] sl n).msa
        = s.msa := rfl
    rcases tx_outcome s.msa
      (moved s (latched s) s.error s.adrack s.datack s.mdrRx l [startEvent s.own] sl n) with
      ⟨k, sl', n', e', hc'⟩ | ⟨l', sl', n', e', hc', hb⟩ | ⟨l', sl', n', e', hn', hb⟩
    · rw [hm, latchDirection_moved, e', moved_moved]
      cases k with
      | false => exact AddressOutcome.ack (s := s) sl' n' (hc.trans hc')
      | true => exact AddressOutcome.nack (s := s) sl' n' (hc.trans hc')
    · rw [hm, latchDirection_moved, e', moved_moved]
      exact AddressOutcome.lost (s := s) l'.release sl' n' (hc.trans hc') rfl rfl hb
    · rw [hm, latchDirection_moved, e', moved_moved]
      exact AddressOutcome.stall (s := s) (latched s) l' [startEvent s.own] sl' n'
        (.inr ⟨rfl, rfl, fun h => hn' (hc 1 h)⟩) (fun _ => hb)
  · rw [e]
    exact AddressOutcome.stall _ _ _ _ _ (.inl ⟨rfl, rfl, hn⟩) hk

/-- Everything the data phase can do (R88, R89). -/
inductive DataOutcome (c : Ctl) (s : State) : Res State TxAns → Prop where
  | sent (k sl n) : s.own ≠ .rx → Consumed s.slave 1 sl →
      DataOutcome c s (.done (if k then .nack else .ack) (moved s s.own (s.error || k) s.adrack
        (s.datack || k) s.mdrRx (Line.heldWith 0) [.txByte s.mdrTx k] sl n))
  | received (v b sl n) : s.own = .rx → Consumed s.slave 1 sl →
      DataOutcome c s (.done .ack (moved s s.own s.error s.adrack s.datack v
        { Line.heldWith v with sdaO := b } [.rxByte v (!ctlAckBit c)] sl n))
  | lost (l sl n) : s.own ≠ .rx → Consumed s.slave 1 sl → l.sclO = true → l.sdaO = true →
      l.bitcnt.toNat ≤ 8 →
      DataOutcome c s (.done .lost { moved s .idle true s.adrack s.datack s.mdrRx l
        [.txLost s.mdrTx] sl n with busy := false })
  | stall (l sl n) : ¬ s.slave.answersFor 1 → l.bitcnt.toNat ≤ 8 →
      DataOutcome c s (.stall (moved s s.own s.error s.adrack s.datack s.mdrRx l [] sl n))

theorem dataPhase_outcome (c : Ctl) (s : State) : DataOutcome c s (dataPhase lineSymbols c s) := by
  unfold dataPhase
  by_cases ho : s.own = .rx
  · rw [if_pos ho, receivePhase]
    rcases rx_outcome (!ctlAckBit c) s with ⟨v, sl, n, e, hc⟩ | ⟨l, sl, n, e, hn, hb⟩
    · rw [e]; exact DataOutcome.received v _ sl n ho hc
    · rw [e]; exact DataOutcome.stall l sl n hn hb
  · rw [if_neg ho, transmitPhase]
    rcases tx_outcome s.mdrTx s with
      ⟨k, sl, n, e, hc⟩ | ⟨l, sl, n, e, hc, hb⟩ | ⟨l, sl, n, e, hn, hb⟩
    · rw [e]
      have := DataOutcome.sent (c := c) k sl n ho hc
      cases k
      · simpa using this
      · simpa [State.dataNack, moved] using this
    · rw [e]; exact DataOutcome.lost l.release sl n ho hc rfl rfl hb
    · rw [e]; exact DataOutcome.stall l sl n hn hb

/-- Everything the finish can do after a byte, which left SCL low (R90). -/
theorem finishPhase_outcome (c : Ctl) (s : State) (sh : Byte)
    (hl : ∃ b, s.line = { Line.heldWith sh with sdaO := b }) :
    (∃ sl n, finishPhase lineSymbols c s = .done () { moved s (if ctlStopBit c then .idle else s.own)
        s.error s.adrack s.datack s.mdrRx
        (if ctlStopBit c then Line.stoppedWith sh else Line.heldWith sh)
        (if ctlStopBit c then [.stop] else []) sl n with busy := false } ∧
        Consumed s.slave (if ctlStopBit c then 1 else 0) sl) ∨
    (∃ l sl n, finishPhase lineSymbols c s =
        .stall (moved s s.own s.error s.adrack s.datack s.mdrRx l [] sl n) ∧ ctlStopBit c = true ∧
        ¬ s.slave.answersFor 1 ∧ l.bitcnt.toNat ≤ 8) := by
  obtain ⟨b, hl⟩ := hl
  unfold finishPhase
  cases hc : ctlStopBit c
  · left
    refine ⟨s.slave, s.asks, ?_, Consumed.zero _⟩
    simp [State.held, hl, Line.hold, moved, Line.heldWith]
  · simp only [if_true]
    rw [lineSymbols_stop]
    by_cases hp : (s.wave .stop).proceeds = true
    · left
      rw [if_pos hp, symbolEnd_eq]
      refine ⟨(s.asked .stop).slave, (s.asked .stop).asks, ?_, Consumed.asked .stop s⟩
      simp only [Res.bind_done, State.stopped, moved, hl, Line.heldWith, Line.stoppedWith]
    · right
      rw [if_neg hp, symbolStall_eq]
      refine ⟨_, _, _, rfl, trivial,
        fun h => hp (Wave.proceeds_of_all (Slave.wave_of_answers _ h)), ?_⟩
      simp [hl, Line.heldWith]

/-! ### The whole operation -/

/-- The data byte of an operation: in the direction `d`, `k` whether it was not acknowledged, `v` what
`MDR_RX` is after it (R88, R89). -/
inductive DataByte (c : Ctl) (s : State) : Own → BusEvent → Bool → Byte → Prop where
  | sent (d : Own) (k : Bool) : d ≠ .rx → DataByte c s d (.txByte s.mdrTx k) k s.mdrRx
  | received (v : Byte) : DataByte c s .rx (.rxByte v (!ctlAckBit c)) false v

/-- The events before the data byte (R87). -/
def openingEvents (c : Ctl) (s : State) : List BusEvent :=
  if ctlStartBit c then [startEvent s.own, .txByte s.msa false] else []

/-- The direction of the data byte (R87). -/
def dataDirection (c : Ctl) (s : State) : Own := if ctlStartBit c then latched s else s.own

/-- How an operation comes to its finish: the direction it leaves, its events, its flags and
`MDR_RX`. -/
inductive ByteEnd (c : Ctl) (s : State) : Own → List BusEvent → Bool → Bool → Byte → Prop where
  | addressNack : ctlStartBit c = true →
      ByteEnd c s (latched s) [startEvent s.own, .txByte s.msa true] true false s.mdrRx
  | data (e k v) : DataByte c s (dataDirection c s) e k v →
      ByteEnd c s (dataDirection c s) (openingEvents c s ++ [e]) false k v

/-- How an operation loses arbitration (R115). -/
inductive ByteLost (c : Ctl) (s : State) : List BusEvent → Prop where
  | address : ctlStartBit c = true → ByteLost c s [startEvent s.own, .txLost s.msa]
  | data : dataDirection c s ≠ .rx → ByteLost c s (openingEvents c s ++ [.txLost s.mdrTx])

/-- Where an operation stalls: the direction it leaves and its events (R114). -/
inductive ByteStall (c : Ctl) (s : State) : Own → List BusEvent → Prop where
  | start : ctlStartBit c = true → ByteStall c s s.own []
  | address : ctlStartBit c = true → ByteStall c s (latched s) [startEvent s.own]
  | data : ByteStall c s (dataDirection c s) (openingEvents c s)
  | stop (d es a k v) : ByteEnd c s d es a k v → ctlStopBit c = true → ByteStall c s d es

/-- Everything a control write can do. -/
inductive EngineOutcome (c : Ctl) (s : State) : State → Prop where
  /-- It starts no operation (R86 steps 1 to 3). -/
  | nothing : s.mfe = false ∨ (ctlRunBit c = false ∧ (ctlStopBit c = false ∨ s.own = .idle)) ∨
        (ctlStartBit c = false ∧ s.own = .idle) →
      EngineOutcome c s { s with ctl := c }
  /-- A Stop alone (R86 step 4). -/
  | stop (sl n) : s.mfe = true → ctlRunBit c = false → ctlStopBit c = true → s.own ≠ .idle →
      Consumed s.slave 1 sl →
      EngineOutcome c s { moved s .idle s.error s.adrack s.datack s.mdrRx
        { s.line with sdaO := true, sclO := true, psc := 0, tickcnt := 5 } [.stop] sl n with
        ctl := c, busy := false }
  /-- A Stop alone that stalls. -/
  | stopStall (l sl n) : s.mfe = true → ctlRunBit c = false → ctlStopBit c = true →
      s.own ≠ .idle → ¬ s.slave.answersFor 1 → cellsKept s l →
      EngineOutcome c s { moved s s.own s.error s.adrack s.datack s.mdrRx l [] sl n with
        ctl := c, busy := true }
  /-- An operation that runs a byte to its finish (R86 step 5, R90). -/
  | ended (d es a k v sh sl n) : s.mfe = true → ctlRunBit c = true →
      ctlStartBit c = true ∨ s.own ≠ .idle → ByteEnd c s d es a k v →
      Consumed s.slave (es.length + if ctlStopBit c then 1 else 0) sl →
      EngineOutcome c s { moved s (if ctlStopBit c then .idle else d) (a || k) a k v
        (if ctlStopBit c then Line.stoppedWith sh else Line.heldWith sh)
        (es ++ if ctlStopBit c then [.stop] else []) sl n with ctl := c, busy := false }
  /-- An operation that loses arbitration (R115). -/
  | lost (es l sl n) : s.mfe = true → ctlRunBit c = true →
      ctlStartBit c = true ∨ s.own ≠ .idle → ByteLost c s es → Consumed s.slave es.length sl →
      l.sclO = true → l.sdaO = true → l.bitcnt.toNat ≤ 8 →
      EngineOutcome c s { moved s .idle true false false s.mdrRx l es sl n with
        ctl := c, busy := false }
  /-- An operation that runs a byte and stalls (R114). -/
  | stalled (o e a k v l es sl n) : s.mfe = true → ctlRunBit c = true →
      ctlStartBit c = true ∨ s.own ≠ .idle → ByteStall c s o es →
      ¬ s.slave.answersFor (es.length + 1) → (a && k) = false → e = (a || k) → cellsKept s l →
      EngineOutcome c s { moved s o e a k v l es sl n with ctl := c, busy := true }

theorem finish_ended {c : Ctl} {s u : State} {d : Own} {es : List BusEvent} {a k : Bool} {v sh : Byte}
    {b : Bool} {sl : Slave} {n : Nat} (hm : s.mfe = true) (hr : ctlRunBit c = true)
    (ho : ctlStartBit c = true ∨ s.own ≠ .idle) (he : ByteEnd c s d es a k v)
    (hak : (a && k) = false)
    (hu : u = { moved s d (a || k) a k v { Line.heldWith sh with sdaO := b } es sl n with
      ctl := c, busy := true }) (hc : Consumed s.slave es.length sl) :
    EngineOutcome c s (finishPhase lineSymbols c u).state := by
  rcases finishPhase_outcome c u sh ⟨b, by rw [hu]; rfl⟩ with
    ⟨sl', n', e, hc'⟩ | ⟨l', sl', n', e, hs, hn, hb⟩
  · rw [e, Res.state_done]
    rw [hu] at hc' ⊢
    have := EngineOutcome.ended d es a k v sh sl' n' hm hr ho he (hc.trans hc')
    simpa [moved] using this
  · rw [e, Res.state_stall]
    rw [hu] at hn ⊢
    have := EngineOutcome.stalled d (a || k) a k v l' es sl' n' hm hr ho (.stop _ _ _ _ _ he hs)
      (fun h => hn (hc 1 h)) hak rfl (fun _ => hb)
    simpa [moved] using this

/-- The data phase and the finish of an operation that has come to its data phase. -/
theorem data_ended {c : Ctl} {s u : State} {l : Line} {sl : Slave} {n : Nat} (hm : s.mfe = true)
    (hr : ctlRunBit c = true) (ho : ctlStartBit c = true ∨ s.own ≠ .idle)
    (hu : u = { moved s (dataDirection c s) false false false s.mdrRx l (openingEvents c s) sl n with
      ctl := c, busy := true }) (hc : Consumed s.slave (openingEvents c s).length sl) :
    EngineOutcome c s ((dataPhase lineSymbols c u).bind fun a s =>
      match a with
      | .lost => .done () s
      | .nack => finishPhase lineSymbols c s
      | .ack => finishPhase lineSymbols c s).state := by
  have hsl : u.slave = sl := by rw [hu]; rfl
  have hown : u.own = dataDirection c s := by rw [hu]; rfl
  have hlen : ∀ e : BusEvent, (openingEvents c s ++ [e]).length = (openingEvents c s).length + 1 :=
    fun e => by simp
  have h := dataPhase_outcome c u
  generalize dataPhase lineSymbols c u = r at h
  cases h with
  | sent k sl' n' hrx hc' =>
    rw [hsl] at hc'
    have := finish_ended (u := moved u u.own (u.error || k) u.adrack (u.datack || k) u.mdrRx
      (Line.heldWith 0) [.txByte u.mdrTx k] sl' n') (sh := 0) (b := true) (sl := sl') (n := n')
      hm hr ho (.data (.txByte s.mdrTx k) k s.mdrRx (.sent _ k (by rwa [hown] at hrx))) rfl
      (by rw [hu]; simp [moved, Line.heldWith]) (by rw [hlen]; exact hc.trans hc')
    cases k <;> exact this
  | received v b sl' n' hrx hc' =>
    rw [hsl] at hc'
    rw [hown] at hrx
    exact finish_ended (u := moved u u.own u.error u.adrack u.datack v
      { Line.heldWith v with sdaO := b } [.rxByte v (!ctlAckBit c)] sl' n') (sh := v) (b := b)
      (sl := sl') (n := n') hm hr ho
      (.data (.rxByte v (!ctlAckBit c)) false v (by rw [hrx]; exact .received v)) rfl
      (by rw [hu]; simp [moved]) (by rw [hlen]; exact hc.trans hc')
  | lost l' sl' n' hrx hc' h1 h2 hb =>
    rw [hsl] at hc'
    rw [hown] at hrx
    have := EngineOutcome.lost (openingEvents c s ++ [.txLost s.mdrTx]) l' sl' n' hm hr ho
      (.data hrx) (by rw [hlen]; exact hc.trans hc') h1 h2 hb
    rw [hu]
    simpa [moved] using this
  | stall l' sl' n' hn hb =>
    rw [hsl] at hn
    have := EngineOutcome.stalled (dataDirection c s) false false false s.mdrRx l'
      (openingEvents c s) sl' n' hm hr ho .data (fun h => hn (hc 1 h)) rfl rfl (fun _ => hb)
    rw [hu]
    simpa [moved] using this

/-- Everything a control write can do, whatever the slave does. -/
theorem engine_outcome (c : Ctl) (s : State) : EngineOutcome c s (engine c s) := by
  unfold engine
  by_cases hi : s.mfe = false ∨ (ctlRunBit c = false ∧ (ctlStopBit c = false ∨ s.own = .idle)) ∨
      (ctlStartBit c = false ∧ s.own = .idle)
  · rw [engineWith_idle _ _ _ hi]; exact .nothing hi
  · simp only [not_or, not_and] at hi
    obtain ⟨h1, h2, h3⟩ := hi
    have hm : s.mfe = true := by simpa using h1
    cases hr : ctlRunBit c
    · have hs : ctlStopBit c = true := by simpa using (h2 hr).1
      have ho := (h2 hr).2
      rw [engineWith_stop _ _ _ hm hr hs ho, stopOperation, lineSymbols_stop]
      split
      · rw [symbolEnd_eq]
        exact EngineOutcome.stop (c := c) (s := s) _ _ hm hr hs ho
          (Consumed.asked .stop ({ s with ctl := c } : State).startStopOp)
      · rename_i hp
        rw [symbolStall_eq]
        exact EngineOutcome.stopStall (c := c) (s := s) _ _ _ hm hr hs ho
          (fun h => hp (Wave.proceeds_of_all
            (Slave.wave_of_answers (s := ({ s with ctl := c } : State).startStopOp) .stop h)))
          (fun h => h)
    · have ho : ctlStartBit c = true ∨ s.own ≠ .idle := by
        cases hst : ctlStartBit c
        · exact .inr (h3 hst)
        · exact .inl rfl
      rw [engineWith_byte _ _ _ hm hr ho, byteOperation]
      cases hst : ctlStartBit c
      · simp only [Bool.false_eq_true, if_false, Res.bind_done]
        exact data_ended hm hr ho (l := { s.line with psc := 0, tickcnt := 0 }) (sl := s.slave)
          (n := s.asks)
          (by simp [State.startByteOp, moved, dataDirection, openingEvents, hst])
          (by simp only [openingEvents, hst]; exact Consumed.zero _)
      · simp only [if_true]
        have h := addressPhase_outcome ({ s with ctl := c } : State).startByteOp
        generalize addressPhase lineSymbols ({ s with ctl := c } : State).startByteOp = r at h
        cases h with
        | ack sl n hc =>
          exact data_ended hm hr ho (l := Line.heldWith 0) (sl := sl) (n := n)
            (by simp only [latched_startByteOp, dataDirection, openingEvents, hst, if_true]; rfl)
            (by simp only [openingEvents, hst]; exact hc)
        | nack sl n hc =>
          exact finish_ended (sh := 0) (b := true) (sl := sl) (n := n) hm hr ho (.addressNack hst) rfl
            (by simp only [latched_startByteOp]; rfl) hc
        | lost l sl n hc h1 h2 hb =>
          have := EngineOutcome.lost (c := c) (s := s) [startEvent s.own, .txLost s.msa] l sl n hm hr
            ho (.address hst) hc h1 h2 hb
          simpa [moved, State.startByteOp] using this
        | stall o l es sl n hes hk =>
          have hs : ByteStall c s o es := by
            rcases hes with ⟨rfl, rfl, -⟩ | ⟨rfl, rfl, -⟩
            · exact .start hst
            · exact .address hst
          have hn : ¬ s.slave.answersFor (es.length + 1) := by
            rcases hes with ⟨rfl, -, hn⟩ | ⟨rfl, -, hn⟩ <;> exact hn
          have := EngineOutcome.stalled (c := c) (s := s) o false false false s.mdrRx l es sl n hm hr
            ho hs hn rfl rfl hk
          simpa [moved, State.startByteOp] using this

end Sys2Proof.Machine
end

