-- ==== Sys2Proof/Laws/PerInstr.lean ====
section
/-! SUPPORT. Statements about every instruction as syntax, one lemma for each constructor. -/

namespace Sys2Proof

/-! ### The fields of a command word (spec/30_encoding.md R63) -/

@[simp] theorem opField_commandWord (op : BitVec 4) (c : Ctl) (a : Byte) (v : Half) :
    opField (commandWord op c a v) = op := by
  apply BitVec.eq_of_getLsbD_eq
  intro i hi
  simp [opField, commandWord, hi, show 28 + i < 32 by omega,
    BitVec.getLsbD_of_ge c (28 + i - 24) (by omega), BitVec.getLsbD_of_ge a (28 + i - 16) (by omega),
    BitVec.getLsbD_of_ge v (28 + i) (by omega)]

@[simp] theorem condField_commandWord (op : BitVec 4) (c : Ctl) (a : Byte) (v : Half) :
    condField (commandWord op c a v) = c := by
  apply BitVec.eq_of_getLsbD_eq
  intro i hi
  simp [condField, commandWord, hi, show 24 + i < 28 by omega, show 24 + i < 32 by omega,
    BitVec.getLsbD_of_ge a (24 + i - 16) (by omega), BitVec.getLsbD_of_ge v (24 + i) (by omega)]

@[simp] theorem aField_commandWord (op : BitVec 4) (c : Ctl) (a : Byte) (v : Half) :
    aField (commandWord op c a v) = a := by
  apply BitVec.eq_of_getLsbD_eq
  intro i hi
  simp [aField, commandWord, hi, show 16 + i < 28 by omega, show 16 + i < 24 by omega,
    show 16 + i < 32 by omega]

@[simp] theorem vField_commandWord (op : BitVec 4) (c : Ctl) (a : Byte) (v : Half) :
    vField (commandWord op c a v) = v := by
  apply BitVec.eq_of_getLsbD_eq
  intro i hi
  simp [vField, commandWord, hi, show i < 28 by omega, show i < 24 by omega,
    show i < 32 by omega]

end Sys2Proof

namespace Sys2Proof.Laws.RoundTrip

/-- Decoding the word of a well-formed instruction gives the instruction back. -/
def Statement (i : Instr) : Prop := i.wf = true → decode (encode i) = .ok i

theorem init : Statement .init := fun _ => by
  simp [encode, decode, decodeCommand, require]

theorem setDir (d : Direction) : Statement (.setDir d) := fun _ => by
  cases d <;> simp [encode, decode, decodeCommand, require, Direction.toBit]

theorem setAddr (a : Byte) : Statement (.setAddr a) := fun h => by
  have h' : addrOperandOk a = true := h
  simp [encode, decode, decodeCommand, require, h']

theorem sendByte (d : Byte) (c : Ctl) : Statement (.sendByte d c) := fun _ => by
  simp [encode, decode, decodeCommand, require]

theorem recvByte (c : Ctl) : Statement (.recvByte c) := fun _ => by
  simp [encode, decode, decodeCommand, require]

theorem readReg (r : Byte) : Statement (.readReg r) := fun _ => by
  simp [encode, decode, decodeCommand, require]

theorem writeReg16 (r : Byte) (v : Half) : Statement (.writeReg16 r v) := fun _ => by
  simp [encode, decode, decodeCommand, require]

theorem decodeTemp (v : Half) : Statement (.decodeTemp v) := fun _ => by
  simp [encode, decode, decodeCommand, require]

theorem ctlNone : Statement .ctlNone := fun _ => rfl

theorem ctlRun : Statement .ctlRun := fun _ => rfl

theorem ctlStart : Statement .ctlStart := fun _ => rfl

theorem ctlStartRun : Statement .ctlStartRun := fun _ => rfl

theorem ctlStop : Statement .ctlStop := fun _ => rfl

theorem ctlStopRun : Statement .ctlStopRun := fun _ => rfl

theorem ctlStopStart : Statement .ctlStopStart := fun _ => rfl

theorem ctlStopStartRun : Statement .ctlStopStartRun := fun _ => rfl

theorem ctlAck : Statement .ctlAck := fun _ => rfl

theorem ctlAckRun : Statement .ctlAckRun := fun _ => rfl

theorem ctlAckStart : Statement .ctlAckStart := fun _ => rfl

theorem ctlAckStartRun : Statement .ctlAckStartRun := fun _ => rfl

theorem ctlAckStop : Statement .ctlAckStop := fun _ => rfl

theorem ctlAckStopRun : Statement .ctlAckStopRun := fun _ => rfl

theorem ctlAckStopStart : Statement .ctlAckStopStart := fun _ => rfl

theorem ctlAckStopStartRun : Statement .ctlAckStopStartRun := fun _ => rfl

end Sys2Proof.Laws.RoundTrip
end

