-- ==== Sys2Proof/Laws/Units.lean ====
section
/-! SUPPORT. The byte-transfer unit and the sequencer: what each shared operation can do, over any
engine (spec/41_byte_transfer.md, spec/42_sequencer.md). -/

namespace Sys2Proof.Machine

/-! ### The address register's merges -/

/-- SET_DIR's merge keeps the address and replaces the direction bit (R121). -/
theorem mergeDir_fields (m : Byte) (d : Bool) :
    msaAddr (mergeDir m d) = msaAddr m ∧ msaRead (mergeDir m d) = d := by
  revert m; cases d <;> decide

/-- SET_ADDR's merge of a 7-bit address keeps the direction bit and replaces the address (R122). -/
theorem mergeAddr_fields (m a : Byte) :
    msaAddr (mergeAddr m a) = a.setWidth 7 ∧ msaRead (mergeAddr m a) = msaRead m := by
  constructor
  · apply BitVec.eq_of_getLsbD_eq
    intro i hi
    have : i = 0 ∨ i = 1 ∨ i = 2 ∨ i = 3 ∨ i = 4 ∨ i = 5 ∨ i = 6 := by omega
    rcases this with h | h | h | h | h | h | h <;> subst h <;> simp [mergeAddr, msaAddr]
  · simp [mergeAddr, msaRead]

/-- The body of SET_DIR writes `MSA` alone (R121). -/
theorem dirOp_eq (d : Bool) (s : State) : dirOp d s = { s with msa := mergeDir s.msa d } := by
  simp [dirOp, State.writeMsa]

/-- The body of SET_ADDR writes `MSA` alone, and the model's note that it has run (R122). -/
theorem addrOp_eq (a : Byte) (s : State) :
    addrOp a s = { s with msa := mergeAddr s.msa a, addrSet := true } := by
  simp [addrOp, State.writeMsa]

/-! ### The byte transfers -/

/-- The body of SEND_BYTE over any engine, whole (R123). -/
theorem sendOp_eq (eng : Engine) (d : Byte) (c : Ctl) (s : State) :
    sendOp eng d c s =
      if s.busy then .undef .controlWriteWhileBusy
      else if (eng c { s with mdrTx := d }).busy then .hang (eng c { s with mdrTx := d })
      else if (eng c { s with mdrTx := d }).errors = 0 then
        .done (.ok ()) (eng c { s with mdrTx := d })
      else if (eng 0x4 (eng c { s with mdrTx := d })).busy then
        .hang (eng 0x4 (eng c { s with mdrTx := d }))
      else .done (.err (eng c { s with mdrTx := d }).errors)
        (eng 0x4 (eng c { s with mdrTx := d })) := by
  unfold sendOp
  rw [memWrite_mdr, Run.bind_done, transfer_eq]
  simp only [State.writeMdr, byte_through_word]

/-- The body of RECV_BYTE over any engine, whole (R124). -/
theorem recvOp_eq (eng : Engine) (c : Ctl) (s : State) :
    recvOp eng c s =
      if s.busy then .undef .controlWriteWhileBusy
      else if (eng c s).busy then .hang (eng c s)
      else if (eng c s).errors = 0 then .done (.ok (eng c s).mdrRx) (eng c s)
      else if (eng 0x4 (eng c s)).busy then .hang (eng 0x4 (eng c s))
      else .done (.err (eng c s).errors) (eng 0x4 (eng c s)) := by
  unfold recvOp
  rw [transfer_eq]
  simp only [memRead_mdr, byte_through_word]

/-- A control word given to the engine directly, whole (R85, R86). -/
theorem controlStep_eq (c : Ctl) (s : State) :
    controlStep c s =
      if s.busy then .refused .controlWriteWhileBusy else .next (engine c s) := by
  unfold controlStep
  rw [memWrite_mcs, ctl_through_word]
  cases s.busy <;> rfl

/-! ### The sequences -/

/-- The end of READ_REG, whole (R132). -/
theorem readRegEnd_eq (s : State) :
    readRegEnd s = .done (.ok (regValue s.hi s.lo)) { s with seq := .idle } := rfl

@[simp] theorem seqStep_ok {α β : Type} (a : α) (s : State) (k : α → State → Run (Xfer β)) :
    seqStep (.done (.ok a) s) k = k a s := rfl

@[simp] theorem seqStep_err {α β : Type} (f : BitVec 3) (s : State)
    (k : α → State → Run (Xfer β)) :
    seqStep (.done (.err f) s) k = .done (.err f) (s.setSeq .idle) := rfl

@[simp] theorem seqStep_hang {α β : Type} (s : State) (k : α → State → Run (Xfer β)) :
    seqStep (.hang s) k = .hang s := rfl

@[simp] theorem seqStep_undef {α β : Type} (r : Refusal) (k : α → State → Run (Xfer β)) :
    seqStep (.undef r) k = .undef r := rfl

end Sys2Proof.Machine
end

