-- ==== Sys2Proof/Machine/Assembler.lean ====
section
/-! DEFINITION. The textual commands of spec/30_encoding.md R80 to R82, read to their operands: the
operand ranges, the condition lists and the pseudo-instructions. Nothing in the block uses them. -/

namespace Sys2Proof.Machine

/-- The names of a condition list (R82). -/
inductive CondName where
  | run
  | start
  | stop
  | ack
  deriving DecidableEq, Repr

/-- The bit a condition name stands for (R70, R82). -/
def CondName.bit : CondName → Ctl
  | .run => 0x1
  | .start => 0x2
  | .stop => 0x4
  | .ack => 0x8

/-- The value of a condition list: the OR of its names' bits, the list `0` being empty (R82). -/
def condValue (names : List CondName) : Ctl := names.foldr (fun n c => n.bit ||| c) 0

/-- A line of the textual form: a mnemonic of R64 or a pseudo-instruction of R81 with its operands,
numbers as written. -/
inductive AsmLine where
  | init
  | setDir (d : Direction)
  | setAddr (a : Nat)
  | sendByte (d : Nat) (c : List CondName)
  | recvByte (c : List CondName)
  | readReg (r : Nat)
  | writeReg16 (r v : Nat)
  | decodeTemp (v : Nat)
  | sessionInit
  | abort
  deriving DecidableEq, Repr

/-- The commands of a line, or none if an operand is out of its range (R80, R81). -/
def assemble : AsmLine → Option (List Instr)
  | .init => some [.init]
  | .setDir d => some [.setDir d]
  | .setAddr a => if a ≤ 0x7F then some [.setAddr (BitVec.ofNat 8 a)] else none
  | .sendByte d c => if d ≤ 0xFF then some [.sendByte (BitVec.ofNat 8 d) (condValue c)] else none
  | .recvByte c => some [.recvByte (condValue c)]
  | .readReg r => if r ≤ 0xFF then some [.readReg (BitVec.ofNat 8 r)] else none
  | .writeReg16 r v =>
    if r ≤ 0xFF ∧ v ≤ 0xFFFF then some [.writeReg16 (BitVec.ofNat 8 r) (BitVec.ofNat 16 v)] else none
  | .decodeTemp v => if v ≤ 0xFFFF then some [.decodeTemp (BitVec.ofNat 16 v)] else none
  | .sessionInit => some [.init, .setAddr (Config.sensorAddr.setWidth 8)]
  | .abort => some [.sendByte 0x00 (condValue [.stop])]

/-- READ_TEMP's first command, `READ_REG 0x05` (R81). -/
def readTempFirst : Instr := .readReg Config.regTAmbient

/-- READ_TEMP's second command, which the host makes from the first one's response (R81). -/
def readTempThen : Response → Option Instr
  | .ok _ v => some (.decodeTemp v)
  | .err _ => none
  | .ill => none

end Sys2Proof.Machine
end

