-- ==== Sys2Proof/Tests/Slice0.lean ====
section
/-! SUPPORT. Tests on fixed values, their expected results from spec/95_test_vectors.md (the vector's name
stands in the comment) or from the rule named there, and a witness for the hypotheses of every
statement of Certificates/Slice0/Obligations.lean that has any. -/

namespace Sys2Proof.Machine

/-! ### The states the tests start from -/

/-- After INIT and SET_ADDR 0x18, no transaction open, against a scripted slave. -/
def testIdle (ws : List Wave) : State :=
  { State.reset with mfe := true, tpr := 7, msa := 0x30, addrSet := true, slave := .scripted ws }

/-- The same, with a transaction addressed for write open. -/
def testTx (ws : List Wave) : State :=
  { testIdle ws with own := .tx, line := Line.heldWith 0, trace := [.start, .txByte 0x30 false] }

/-- The same, with a transaction addressed for read open. -/
def testRx (ws : List Wave) : State :=
  { testIdle ws with msa := 0x31, own := .rx, line := Line.heldWith 0,
                     trace := [.start, .txByte 0x31 false] }

/-- The registers and the stale flags of the T-E vectors. -/
def testWord (s : State) : State :=
  { s with mdrTx := 0xA7, mdrRx := 0x99, error := true, datack := true }

/-- The wave of a device that wins arbitration in the first 1 bit. -/
def testWins : Wave := List.replicate 9 Pulse.low

/-- The wave of a slave that never lets SCL rise. -/
def testStuck : Wave := [Pulse.stuck]

/-- Does the step answer a next state that `p` holds of? -/
def answers (r : StepResult) (p : State → Bool) : Bool :=
  match r with
  | .next t => p t
  | .fault _ => false
  | .refused _ => false

/-- A property of the next state, found by evaluation. -/
theorem next_of_answers {r : StepResult} {p : State → Bool} (h : answers r p = true) :
    ∃ t, r = .next t ∧ p t = true := by
  cases r with
  | next t => exact ⟨t, rfl, h⟩
  | fault f => cases h
  | refused f => cases h

/-- A T-E row: the events added, `OWN`, the flags `ERROR ADRACK DATACK`, and `MDR_RX`. -/
def row (s : State) (i : Instr) (es : List BusEvent) (o : Own) (e a k : Bool) (v : Byte) : Bool :=
  answers (exec i s) fun t =>
    newEvents s t == es && t.own == o && t.error == e && t.adrack == a && t.datack == k &&
      t.mdrRx == v && !t.busy

/-- A T-B or T-Q row: the events added, the response, `OWN`, `MSA`. -/
def reply (s : State) (i : Instr) (es : List BusEvent) (w : Word) (o : Own) (m : Byte) : Bool :=
  answers (exec i s) fun t =>
    newEvents s t == es && t.rsp == w && t.rspValid && !t.executing && t.own == o && t.msa == m &&
      t.seq == .idle

/-! ### Well-formedness and decoding -/

/-- R66: an address of eight bits is no operand. -/
theorem test_wf_refuses_wide_address : Instr.wf (.setAddr 0x80) = false := by decide

/-- R66: 0x7F is one. -/
theorem test_wf_takes_narrow_address : Instr.wf (.setAddr 0x7F) = true := by decide

/-- R64, R84: the command words, written out field by field. -/
theorem test_decode_commands :
    [0x10000000, 0x20000000, 0x20010000, 0x307F0000, 0x43050000, 0x5B000000, 0x80050000, 0x900201E0,
      0xA0001EC0].map (decodeTableWord 32) =
    [some .init, some (.setDir .write), some (.setDir .read), some (.setAddr 0x7F),
      some (.sendByte 0x05 0x3), some (.recvByte 0xB), some (.readReg 0x05),
      some (.writeReg16 0x02 0x01E0), some (.decodeTemp 0x1EC0)] := by decide

/-- R70: the control words, bit 3 ACK, bit 2 STOP, bit 1 START, bit 0 RUN. -/
theorem test_decode_control_words :
    (List.range 16).map (decodeTableWord 8) =
    [some .ctlNone, some .ctlRun, some .ctlStart, some .ctlStartRun, some .ctlStop, some .ctlStopRun,
      some .ctlStopStart, some .ctlStopStartRun, some .ctlAck, some .ctlAckRun, some .ctlAckStart,
      some .ctlAckStartRun, some .ctlAckStop, some .ctlAckStopRun, some .ctlAckStopStart,
      some .ctlAckStopStartRun] := by decide

/-- T-C7 to T-C15: refused, and by which test of R76. -/
theorem test_decode_refuses :
    [0x00000000, 0x60000000, 0xF0000000, 0x10000001, 0x21000000, 0x20020000, 0x30800000, 0x50010000,
      0x80050001, 0xA0010000].map decodeCommand =
    [.error (.badOp 0x0), .error (.badOp 0x6), .error (.badOp 0xF), .error .operandVNotZero,
      .error .condNotZero, .error .operandANotZero, .error .operandANotZero, .error .operandANotZero,
      .error .operandVNotZero, .error .operandANotZero] := by decide

/-! ### The commands -/

/-- T-C1: but for `TPR`, whose value the system clock gives. -/
theorem test_init : answers (exec .init State.reset) (fun t => t.mfe && t.rsp == 0) = true := by decide

/-- T-C16: refused while a transaction is open. -/
theorem test_init_refused : reply (testTx []) .init [] 0x40000000 .tx 0x30 = true := by decide

/-- R121's example. -/
theorem test_setDir : reply (testIdle []) (.setDir .read) [] 0 .idle 0x31 = true := by decide

/-- R122's example: the direction survives. -/
theorem test_setAddr :
    reply { State.reset with msa := 0x01 } (.setAddr 0x18) [] 0 .idle 0x31 = true := by decide

/-- T-B1. -/
theorem test_sendByte : reply (testIdle [.quiet, .acks, .acks]) (.sendByte 0x05 0x3)
    [.start, .txByte 0x30 false, .txByte 0x05 false] 0 .tx 0x30 = true := by decide

/-- T-B6: the Stop is the operation's own, and the forced one adds none. -/
theorem test_sendByte_fails : reply (testTx [.quiet, .quiet]) (.sendByte 0xE0 0x5)
    [.txByte 0xE0 true, .stop] 0x85000000 .idle 0x30 = true := by decide

/-- T-B2. -/
theorem test_recvByte : reply { testTx [.quiet, .acks, .supplies 0x01] with msa := 0x31 }
    (.recvByte 0xB) [.repStart, .txByte 0x31 false, .rxByte 0x01 false] 0x00000001 .rx 0x31
    = true := by decide

/-- T-B8. -/
theorem test_recvByte_fails : reply { testTx [.quiet, .quiet, .quiet] with msa := 0x31 }
    (.recvByte 0xB) [.repStart, .txByte 0x31 true, .stop] 0x83000000 .idle 0x31 = true := by decide

/-- T-Q12. -/
theorem test_readReg : reply (testIdle [.quiet, .acks, .acks, .quiet, .acks, .supplies 0xAB,
      .supplies 0xCD, .quiet]) (.readReg 0xFF)
    [.start, .txByte 0x30 false, .txByte 0xFF false, .repStart, .txByte 0x31 false,
      .rxByte 0xAB false, .rxByte 0xCD true, .stop] 0x0000ABCD .idle 0x31 = true := by decide

/-- T-Q11: the bus lost at the second address byte, and no Stop. -/
theorem test_readReg_lost : reply (testIdle [.quiet, .acks, .acks, .quiet, testWins]) (.readReg 0x05)
    [.start, .txByte 0x30 false, .txByte 0x05 false, .repStart, .txLost 0x31] 0x81000000 .idle 0x31
    = true := by decide

/-- T-Q9. -/
theorem test_writeReg16 : reply (testIdle [.quiet, .acks, .acks, .acks, .acks, .quiet])
    (.writeReg16 0x02 0x01E0) [.start, .txByte 0x30 false, .txByte 0x02 false, .txByte 0x01 false,
      .txByte 0xE0 false, .stop] 0 .idle 0x30 = true := by decide

/-- T-Q5, P5: the last byte not acknowledged; one Stop. -/
theorem test_writeReg16_fails : reply (testIdle [.quiet, .acks, .acks, .acks, .quiet, .quiet])
    (.writeReg16 0x02 0x01E0) [.start, .txByte 0x30 false, .txByte 0x02 false, .txByte 0x01 false,
      .txByte 0xE0 true, .stop] 0x85000000 .idle 0x30 = true := by decide

/-- T-D4, T-D10, T-D13, T-D20, T-D23: flags, the ends of the range, a negative tie. -/
theorem test_decodeTemp :
    [0xE100, 0xFFFF, 0x1000, 0x1E98, 0x1C70].map (fun v => answers (exec (.decodeTemp v) State.reset)
      fun t => t.rsp == (if v = 0xE100 then 0x0007003D else if v = 0xFFFF then 0x00070020
        else if v = 0x1000 then 0x0000FE53 else if v = 0x1E98 then 0x0000FFF7 else 0x0000FFB9)) =
    [true, true, true, true, true] := by decide

/-- T-D12, T-D15, T-D16, T-D18, T-D28. -/
theorem test_tempData : [0x0FFF, 0x0028, 0x0078, 0x1FD8, 0xC190].map tempData =
    [493, 37, 46, 28, 77] := by decide

/-! ### The control words (T-E) -/

theorem test_ctlNone : row (testWord (testTx [])) .ctlNone [] .tx true false true 0x99 = true := by
  decide

theorem test_ctlRun : row (testWord (testRx [.supplies 0x5A])) .ctlRun [.rxByte 0x5A true] .rx
    false false false 0x5A = true := by decide

theorem test_ctlStart : row (testWord (testTx [])) .ctlStart [] .tx true false true 0x99 = true := by
  decide

/-- The row "0x3, `OWN_RX`, W". -/
theorem test_ctlStartRun : row (testWord { testRx [.quiet, .acks, .acks] with msa := 0x30 })
    .ctlStartRun [.repStart, .txByte 0x30 false, .txByte 0xA7 false] .tx false false false 0x99
    = true := by decide

/-- T-E4. -/
theorem test_ctlStartRun_lost : row { testIdle [.quiet, .acks, testWins] with mdrTx := 0xA7 }
    .ctlStartRun [.start, .txByte 0x30 false, .txLost 0xA7] .idle true false false 0x00 = true := by
  decide

theorem test_ctlStop : row (testWord (testRx [.quiet])) .ctlStop [.stop] .idle true false true 0x99
    = true := by decide

/-- T-E11. -/
theorem test_ctlStopRun_lost : row { testTx [testWins] with mdrTx := 0xA7 } .ctlStopRun
    [.txLost 0xA7] .idle true false false 0x00 = true := by decide

theorem test_ctlStopRun : row (testWord (testRx [.supplies 0x5A, .quiet])) .ctlStopRun
    [.rxByte 0x5A true, .stop] .idle false false false 0x5A = true := by decide

theorem test_ctlStopStart : row (testWord (testTx [.quiet])) .ctlStopStart [.stop] .idle true false
    true 0x99 = true := by decide

/-- T-E5. -/
theorem test_ctlStopStartRun : row { testIdle [.quiet, .quiet, .quiet] with mdrTx := 0xA7 }
    .ctlStopStartRun [.start, .txByte 0x30 true, .stop] .idle true true false 0x00 = true := by decide

theorem test_ctlAck : row (testWord (testRx [])) .ctlAck [] .rx true false true 0x99 = true := by
  decide

theorem test_ctlAckRun : row (testWord (testRx [.supplies 0x5A])) .ctlAckRun [.rxByte 0x5A false] .rx
    false false false 0x5A = true := by decide

theorem test_ctlAckStart : row (testWord (testIdle [])) .ctlAckStart [] .idle true false true 0x99
    = true := by decide

theorem test_ctlAckStartRun : row (testWord { testIdle [.quiet, .acks, .supplies 0x5A] with
      msa := 0x31 }) .ctlAckStartRun [.start, .txByte 0x31 false, .rxByte 0x5A false] .rx
    false false false 0x5A = true := by decide

theorem test_ctlAckStop : row (testWord (testTx [.quiet])) .ctlAckStop [.stop] .idle true false true
    0x99 = true := by decide

theorem test_ctlAckStopRun : row (testWord (testRx [.supplies 0x5A, .quiet])) .ctlAckStopRun
    [.rxByte 0x5A false, .stop] .idle false false false 0x5A = true := by decide

theorem test_ctlAckStopStart : row (testWord (testRx [.quiet])) .ctlAckStopStart [.stop] .idle
    true false true 0x99 = true := by decide

theorem test_ctlAckStopStartRun : row (testWord (testTx [.quiet, .acks, .acks, .quiet]))
    .ctlAckStopStartRun [.repStart, .txByte 0x30 false, .txByte 0xA7 false, .stop] .idle
    false false false 0x99 = true := by decide

/-! ### Lines, time, the sensor and the textual form -/

/-- T-L2: the Stop's line changes. -/
theorem test_timeline_stop : timeline 0 stopSteps (Line.heldWith 0) =
    [(0, false, false), (5, true, false), (9, true, true)] := by decide

/-- T-L1: the Start's line changes, and SCL in the first cell of the address byte. -/
theorem test_timeline_start : timeline 0 (startSteps ++ bitCellSteps false) Line.reset =
    [(0, true, true), (0, true, false), (4, false, false), (5, false, false), (10, true, false),
      (12, true, false), (14, false, false)] := by decide

/-- T-L1, R184, P3: 185 ticks, 484 of READ_REG, 379 of WRITE_REG16, 109 of an unanswered attempt. -/
theorem test_durations :
    [eventsTicks [.start, .txByte 0x30 false, .txByte 0x05 false],
      eventsTicks [.start, .txByte 0x30 false, .txByte 0x05 false, .repStart, .txByte 0x31 false,
        .rxByte 1 false, .rxByte 0 true, .stop],
      eventsTicks [.start, .txByte 0x30 false, .txByte 2 false, .txByte 1 false, .txByte 0xE0 false,
        .stop], eventsTicks [.start, .txByte 0x30 true, .stop]] = [185, 484, 379, 109] := by decide

/-- T-L5. -/
theorem test_divider : [16000000, 50000000, 80000000, 1000000, 12000000, 25000000, 256000000,
    258000000].map tprInit = [7, 24, 39, 0, 5, 12, 127, 128] := by decide

/-- T-L4: a stretch of 37 ticks changes no event and no result. -/
theorem test_stretch : row { testIdle [.quiet,
      List.replicate 8 Pulse.released ++ [Pulse.mk (some 37) false], .acks] with mdrTx := 0x05 }
    .ctlStartRun [.start, .txByte 0x30 false, .txByte 0x05 false] .tx false false false 0x00
    = true := by decide

/-- T-L4, T-B17: a slave that never releases SCL. -/
theorem test_hang : answers (exec (.readReg 0x05) (testIdle [testStuck])) (fun t =>
    t.busy && t.executing && !t.rspValid && t.trace == []) = true := by decide

/-- The fixture of P1. -/
def testSensor : Sensor := Sensor.initial 0x0000 0x0000 0x0000 0x0100

/-- P1, step 3, and the fixture after it. -/
theorem test_sensor_read : answers (exec (.readReg 0x05) { testIdle [] with
      slave := .sensor testSensor }) (fun t => t.rsp == 0x00000100 &&
      t.slave == .sensor { testSensor with ptr := 0x05 }) = true := by decide

/-- P2, step 3: the fixture after a write. -/
theorem test_sensor_write : answers (exec (.writeReg16 0x02 0x01E0) { testIdle [] with
      slave := .sensor testSensor }) (fun t => t.rsp == 0 &&
      t.slave == .sensor { testSensor with ptr := 0x02, tUpper := 0x01E0, whi := 0x01 }) = true := by
  decide

/-- R151: the classes of the flag sets. -/
theorem test_classes : [0b011, 0b101, 0b001, 0b100].map classify = [.addressNotAcknowledged,
    .dataNotAcknowledged, .otherBusError, .dataNotAcknowledged] := by decide

/-- R80 to R82: ranges, the condition list, the pseudo-instructions. -/
theorem test_assemble :
    [.setAddr 0x80, .sendByte 0x05 [.start, .run], .recvByte [.start, .run, .ack], .sessionInit,
      .abort].map assemble =
    [none, some [.sendByte 0x05 0x3], some [.recvByte 0xB], some [.init, .setAddr 0x18],
      some [.sendByte 0x00 0x4]] ∧
    readTempFirst = .readReg 0x05 ∧ readTempThen (.ok 0 0x0100) = some (.decodeTemp 0x0100) := by
  decide

/-! ### Witnesses: states and operands that meet the hypotheses of the statements

One theorem for each statement that has hypotheses, with a part for each clause of it. -/

/-- The state of the T-B vectors as INIT left it, with the divider value of this system clock. -/
def testInit (ws : List Wave) : State := { testIdle ws with tpr := tprInitValue }

/-- An engine that does nothing, but that reports ADRACK after the control word `bad`. -/
def testEngine (bad : Ctl) : Engine := fun c s => if c = bad then s.addressNack else s

/-- Does a unit end with `Err(f)`? -/
def failsWith {α : Type} (f : BitVec 3) : Run (Xfer α) → Bool
  | .done (.err g) _ => g == f
  | .done (.ok _) _ => false
  | .hang _ => false
  | .undef _ => false

theorem witness_DecodeOfEncode : Instr.wf (.setAddr 0x7F) = true ∧ Instr.wf (.setAddr 0x00) = true ∧
    Instr.wf .ctlAckStopStartRun = true := by decide

theorem witness_EncodeOfDecodedCommand : decodeCommand 0x307F0000 = .ok (.setAddr 0x7F) ∧
    decodeCommand 0x4FFF0000 = .ok (.sendByte 0xFF 0xF) := by decide

theorem witness_StepRunsDecodedInstruction :
    let s := { testIdle [] with inputs := [.word (.command 0x20010000), .idle] }
    s.inputs = .word (.command 0x20010000) :: [.idle] ∧
    decode (.command 0x20010000) = .ok (.setDir .read) ∧
    decode (.control 0xFFFFFFF4) = .ok .ctlStop := by decide

theorem witness_StepOnIllegalWord :
    let s := { testIdle [] with inputs := [.word (.command 0x30800000)] }
    s.inputs = .word (.command 0x30800000) :: [] ∧ s.executing = false ∧
    decodeCommand 0x30800000 = .error .operandANotZero ∧
    ({ s with executing := true, busy := true } : State).executing = true := by decide

theorem witness_IllegalInThisState :
    (State.reset.executing = false ∧ isBusCommand (.recvByte 0x5) = true ∧
      State.reset.mfe = false) ∧
    ((testTx []).executing = false ∧ (testTx []).own ≠ .idle) ∧
    (128 ≤ (0x80 : Byte).toNat ∧ 128 ≤ (0xFF : Byte).toNat) := by decide

theorem witness_NoCommandWhileExecuting : isCommand (.readReg 0x05) = true ∧
    ({ testIdle [] with executing := true, busy := true } : State).executing = true := by decide

theorem witness_ResetFromAnyState :
    ({ testTx [.acks] with inputs := [.rst, .idle] } : State).inputs = .rst :: [.idle] := by decide

theorem witness_EngineRegisterMap : (testTx []).busy = false := by decide

theorem witness_InitResult : (testIdle []).executing = false ∧ (testIdle []).own = .idle := by decide

theorem witness_DividerValue : (1 ≤ 1 ∧ 1 ≤ 256000000) ∧ (1 ≤ 256000000 ∧ 256000000 ≤ 256000000) ∧
    2000000 ≤ 100000 * (20 * (0 + 1)) := by decide

theorem witness_SetDirResult : (testTx []).executing = false ∧ msaRead (testTx []).msa = false ∧
    ctlStartBit 0xD = false ∧ ctlRunBit 0x3 = true ∧ ctlStartBit 0x3 = true ∧
    (testTx [.quiet, .acks, .acks]).mfe = true ∧
    (newEvents (testTx [.quiet, .acks, .acks]) (engine 0x3 (testTx [.quiet, .acks, .acks])))[1]? =
      some (.txByte 0x30 false) := by decide

theorem witness_SetAddrResult : (testTx []).executing = false ∧ (0x7F : Byte).toNat < 128 ∧
    (0x00 : Byte).toNat < 128 ∧ 128 ≤ (0x80 : Byte).toNat := by decide

theorem witness_DirectionToggleKeepsAddress : (testIdle []).executing = false ∧
    (0x7F : Byte).toNat < 128 := by decide

theorem witness_DecodeTempResult : (testIdle []).executing = false := by decide

/-- T-D15 and T-D20: two ties. -/
theorem witness_RoundsHalfAwayFromZero :
    |((fahrenheit 40 : ℚ) - ((40 : Int) / 16 * 9 / 5 + 32))| = 1 / 2 ∧
    |((fahrenheit (-360) : ℚ) - ((-360 : Int) / 16 * 9 / 5 + 32))| = 1 / 2 := by
  have h₁ : fahrenheit 40 = 37 := by decide
  have h₂ : fahrenheit (-360) = -9 := by decide
  rw [h₁, h₂]
  norm_num

theorem witness_DecodeOfEncodedTemperature : (-4096 ≤ (-4096 : Int) ∧ (-4096 : Int) ≤ 4095) ∧
    (-4096 ≤ (4095 : Int) ∧ (4095 : Int) ≤ 4095) := by decide

theorem witness_ControlWordWithNothingToDo :
    (controlWordOf .ctlStartRun = some 0x3 ∧ State.reset.busy = false ∧ State.reset.mfe = false) ∧
    (controlWordOf .ctlAckStart = some 0xA ∧ (testTx []).busy = false ∧ ctlRunBit 0xA = false ∧
      ctlStopBit 0xA = false) ∧
    (controlWordOf .ctlStop = some 0x4 ∧ ctlRunBit 0x4 = false ∧ (testIdle []).own = .idle) ∧
    (controlWordOf .ctlAckStopRun = some 0xD ∧ ctlStartBit 0xD = false ∧
      (testIdle []).own = .idle ∧ (testIdle []).busy = false) := by decide

theorem witness_ControlWriteRefusedWhileBusy : controlWordOf .ctlNone = some 0x0 ∧
    ({ testTx [] with busy := true } : State).busy = true ∧
    exec .ctlNone { testTx [] with busy := true } = .refused .controlWriteWhileBusy ∧
    isBusCommand (.readReg 0x05) = true ∧ (testTx []).executing = false ∧ (testTx []).mfe = true :=
  ⟨by decide, by decide, rfl, by decide⟩

theorem witness_StopWordReleasesBus :
    [(Instr.ctlStop, (0x4 : Ctl)), (.ctlStopStart, 0x6), (.ctlAckStop, 0xC),
      (.ctlAckStopStart, 0xE)].all (fun p => controlWordOf p.1 == some p.2 && !ctlRunBit p.2 &&
        ctlStopBit p.2) = true ∧
    (testTx [.quiet]).busy = false ∧ (testTx [.quiet]).mfe = true ∧ (testTx [.quiet]).own ≠ .idle ∧
    (testTx [.quiet]).slave = .scripted (Wave.quiet :: []) ∧ Wave.quiet.proceeds = true := by decide

theorem witness_RunWordTransmits :
    [(Instr.ctlRun, (0x1 : Ctl)), (.ctlStopRun, 0x5), (.ctlAckRun, 0x9), (.ctlAckStopRun, 0xD)].all
      (fun p => controlWordOf p.1 == some p.2 && ctlRunBit p.2 && !ctlStartBit p.2 &&
        stopProceeds p.2 [Wave.quiet]) = true ∧
    (testTx []).busy = false ∧ (testTx []).mfe = true ∧ (testTx []).own = .tx ∧
    (testTx [.acks, .quiet]).slave = .scripted (Wave.acks :: [Wave.quiet]) ∧
    Wave.acks.tx (testTx []).mdrTx = some .ack ∧ Wave.quiet.tx (testTx []).mdrTx = some .nack := by
  decide

theorem witness_RunWordReceives :
    controlWordOf .ctlAckStopRun = some 0xD ∧ ctlRunBit 0xD = true ∧ ctlStartBit 0xD = false ∧
    (testRx []).busy = false ∧ (testRx []).mfe = true ∧ (testRx []).own = .rx ∧
    (testRx [.supplies 0x5A, .quiet]).slave = .scripted (Wave.supplies 0x5A :: [Wave.quiet]) ∧
    (Wave.supplies 0x5A).rx = some 0x5A ∧ stopProceeds 0xD [Wave.quiet] = true ∧
    stopProceeds 0x1 [] = true := by decide

theorem witness_StartWordTransmits :
    [(Instr.ctlStartRun, (0x3 : Ctl)), (.ctlStopStartRun, 0x7), (.ctlAckStartRun, 0xB),
      (.ctlAckStopStartRun, 0xF)].all (fun p => controlWordOf p.1 == some p.2 && ctlRunBit p.2 &&
        ctlStartBit p.2 && stopProceeds p.2 [Wave.quiet]) = true ∧
    (testIdle []).busy = false ∧ (testIdle []).mfe = true ∧ msaRead (testIdle []).msa = false ∧
    Wave.quiet.proceeds = true ∧ Wave.acks.tx (testIdle []).msa = some .ack ∧
    Wave.acks.tx (testIdle []).mdrTx = some .ack ∧ Wave.quiet.tx (testIdle []).mdrTx = some .nack ∧
    (testIdle [.quiet, .acks, .quiet, .quiet]).slave =
      .scripted (Wave.quiet :: Wave.acks :: Wave.quiet :: [Wave.quiet]) := by decide

theorem witness_StartWordReceives :
    controlWordOf .ctlAckStopStartRun = some 0xF ∧ ctlRunBit 0xF = true ∧ ctlStartBit 0xF = true ∧
    (testRx []).busy = false ∧ (testRx []).mfe = true ∧ msaRead (testRx []).msa = true ∧
    (testRx [.quiet, .acks, .supplies 0xFF, .quiet]).slave =
      .scripted (Wave.quiet :: Wave.acks :: Wave.supplies 0xFF :: [Wave.quiet]) ∧
    Wave.quiet.proceeds = true ∧ Wave.acks.tx (testRx []).msa = some .ack ∧
    (Wave.supplies 0xFF).rx = some 0xFF ∧ stopProceeds 0xF [Wave.quiet] = true := by decide

theorem witness_StartWordAddressNack :
    controlWordOf .ctlStopStartRun = some 0x7 ∧ ctlRunBit 0x7 = true ∧ ctlStartBit 0x7 = true ∧
    (testIdle []).busy = false ∧ (testIdle []).mfe = true ∧
    (testIdle [.quiet, .quiet, .quiet]).slave =
      .scripted (Wave.quiet :: Wave.quiet :: [Wave.quiet]) ∧
    Wave.quiet.proceeds = true ∧ Wave.quiet.tx (testIdle []).msa = some .nack ∧
    stopProceeds 0x7 [Wave.quiet] = true := by decide

theorem witness_ArbitrationLoss :
    (controlWordOf .ctlStartRun = some 0x3 ∧ ctlRunBit 0x3 = true ∧ ctlStartBit 0x3 = true ∧
      (testIdle []).busy = false ∧ (testIdle []).mfe = true ∧
      (testIdle [.quiet, testWins]).slave = .scripted (Wave.quiet :: testWins :: []) ∧
      Wave.quiet.proceeds = true ∧ testWins.tx (testIdle []).msa = some .lost) ∧
    (let s := testWord (testIdle [.quiet, .acks, testWins])
     s.busy = false ∧ s.mfe = true ∧ msaRead s.msa = false ∧
     s.slave = .scripted (Wave.quiet :: Wave.acks :: testWins :: []) ∧
     Wave.acks.tx s.msa = some .ack ∧ testWins.tx s.mdrTx = some .lost) ∧
    (controlWordOf .ctlStopRun = some 0x5 ∧ ctlRunBit 0x5 = true ∧ ctlStartBit 0x5 = false ∧
      (testWord (testTx [testWins])).busy = false ∧ (testWord (testTx [testWins])).mfe = true ∧
      (testWord (testTx [testWins])).own = .tx ∧
      (testWord (testTx [testWins])).slave = .scripted (testWins :: []) ∧
      testWins.tx (testWord (testTx [testWins])).mdrTx = some .lost) := by decide

theorem witness_WhichBytesCanLose : (0x01 : Byte) ≠ 0 ∧ testWins.tx 0x01 = some .lost ∧
    testWins.tx 0x80 = some .lost := by decide

theorem witness_SendByteOpensTransaction :
    let s := testIdle [.quiet, .acks, .acks, .quiet]
    s.ready = true ∧ ctlRunBit 0x7 = true ∧ ctlStartBit 0x7 = true ∧ msaRead s.msa = false ∧
    s.slave = .scripted (Wave.quiet :: Wave.acks :: Wave.acks :: [Wave.quiet]) ∧
    Wave.quiet.proceeds = true ∧ Wave.acks.tx s.msa = some .ack ∧ Wave.acks.tx 0x05 = some .ack ∧
    stopProceeds 0x7 [Wave.quiet] = true := by decide

theorem witness_SendByteContinues :
    (let s := testTx [.acks, .quiet]
     s.ready = true ∧ ctlRunBit 0x5 = true ∧ ctlStartBit 0x5 = false ∧ s.own = .tx ∧
     s.slave = .scripted (Wave.acks :: [Wave.quiet]) ∧ Wave.acks.tx 0xFF = some .ack ∧
     stopProceeds 0x5 [Wave.quiet] = true) ∧
    (let s := testTx [.quiet]
     let t := testWord (testRx [.quiet])
     s.ready = true ∧ t.ready = true ∧ ctlRunBit 0x4 = false ∧ ctlStopBit 0x4 = true ∧
     ctlRunBit 0xE = false ∧ ctlStopBit 0xE = true ∧ s.own ≠ .idle ∧ t.own ≠ .idle ∧
     s.errors = 0 ∧ t.errors ≠ 0 ∧ s.slave = .scripted (Wave.quiet :: []) ∧
     t.slave = .scripted (Wave.quiet :: []) ∧ Wave.quiet.proceeds = true) := by decide

theorem witness_RecvByteReceives :
    (let s := testRx [.quiet, .acks, .supplies 0x1E]
     s.ready = true ∧ ctlRunBit 0xB = true ∧ ctlStartBit 0xB = true ∧ msaRead s.msa = true ∧
     s.slave = .scripted (Wave.quiet :: Wave.acks :: Wave.supplies 0x1E :: []) ∧
     Wave.quiet.proceeds = true ∧ Wave.acks.tx s.msa = some .ack ∧
     (Wave.supplies 0x1E).rx = some 0x1E ∧ stopProceeds 0xB [] = true) ∧
    (let s := testRx [.supplies 0xC0, .quiet]
     s.ready = true ∧ ctlRunBit 0x5 = true ∧ ctlStartBit 0x5 = false ∧ s.own = .rx ∧
     s.slave = .scripted (Wave.supplies 0xC0 :: [Wave.quiet]) ∧
     (Wave.supplies 0xC0).rx = some 0xC0 ∧ stopProceeds 0x5 [Wave.quiet] = true) := by decide

theorem witness_ByteCommandAddressNack :
    let s := testIdle [.quiet, .quiet, .quiet]
    s.ready = true ∧ ctlRunBit 0x3 = true ∧ ctlStartBit 0x3 = true ∧
    s.slave = .scripted (Wave.quiet :: Wave.quiet :: Wave.quiet :: []) ∧
    Wave.quiet.proceeds = true ∧ Wave.quiet.tx s.msa = some .nack := by decide

theorem witness_SendByteDataNack :
    (let s := testIdle [.quiet, .acks, .quiet, .quiet]
     s.ready = true ∧ ctlRunBit 0x3 = true ∧ ctlStartBit 0x3 = true ∧ msaRead s.msa = false ∧
     s.slave = .scripted (Wave.quiet :: Wave.acks :: Wave.quiet :: Wave.quiet :: []) ∧
     Wave.quiet.proceeds = true ∧ Wave.acks.tx s.msa = some .ack ∧
     Wave.quiet.tx 0x05 = some .nack ∧ Wave.quiet.tx s.mdrTx = some .nack) ∧
    (let s := testTx [.quiet, .quiet]
     s.ready = true ∧ ctlRunBit 0x5 = true ∧ ctlStartBit 0x5 = false ∧ s.own = .tx ∧
     s.slave = .scripted (Wave.quiet :: Wave.quiet :: []) ∧ Wave.quiet.tx 0xE0 = some .nack ∧
     Wave.quiet.tx s.mdrTx = some .nack ∧ Wave.quiet.proceeds = true) := by decide

theorem witness_ByteCommandArbitrationLoss :
    (let s := testIdle [.quiet, testWins]
     s.ready = true ∧ ctlRunBit 0x3 = true ∧ ctlStartBit 0x3 = true ∧
     s.slave = .scripted (Wave.quiet :: testWins :: []) ∧ Wave.quiet.proceeds = true ∧
     testWins.tx s.msa = some .lost) ∧
    (let s := testWord (testIdle [.quiet, .acks, testWins])
     s.ready = true ∧ ctlRunBit 0x7 = true ∧ ctlStartBit 0x7 = true ∧ msaRead s.msa = false ∧
     s.slave = .scripted (Wave.quiet :: Wave.acks :: testWins :: []) ∧
     Wave.acks.tx s.msa = some .ack ∧ testWins.tx 0x01 = some .lost ∧
     testWins.tx s.mdrTx = some .lost) ∧
    (let s := testWord (testTx [testWins])
     s.ready = true ∧ ctlRunBit 0x1 = true ∧ ctlStartBit 0x1 = false ∧ s.own = .tx ∧
     s.slave = .scripted (testWins :: []) ∧ testWins.tx 0xE0 = some .lost ∧
     testWins.tx s.mdrTx = some .lost) := by decide

/-- An idle and an owned bus, with flags and without; the control words 0x4, 0x5, 0x0 and 0xA. -/
theorem witness_ByteCommandWithNothingToDo :
    let s := testIdle []
    let t := { testIdle [] with error := true, adrack := true }
    let u := testTx []
    let v := testWord (testRx [.quiet])
    (s.ready = true ∧ s.own = .idle ∧ ctlRunBit 0x4 = false ∧ s.errors = 0) ∧
    (t.ready = true ∧ t.own = .idle ∧ ctlStartBit 0x5 = false ∧ t.errors ≠ 0) ∧
    (u.ready = true ∧ ctlRunBit 0x0 = false ∧ ctlStopBit 0x0 = false ∧ u.errors = 0) ∧
    (v.ready = true ∧ ctlRunBit 0xA = false ∧ ctlStopBit 0xA = false ∧ v.errors ≠ 0 ∧
      v.own ≠ .idle ∧ v.slave = .scripted (Wave.quiet :: []) ∧ Wave.quiet.proceeds = true) := by decide

theorem witness_MisnamedTransfers :
    (let s := testRx [.supplies 0x00]
     s.ready = true ∧ ctlRunBit 0x1 = true ∧ ctlStartBit 0x1 = false ∧ s.own = .rx ∧
     s.slave = .scripted (Wave.supplies 0x00 :: []) ∧ (Wave.supplies 0x00).rx = some 0x00 ∧
     stopProceeds 0x1 [] = true) ∧
    (let s := testRx [.quiet, .acks, .supplies 0x00]
     s.ready = true ∧ ctlRunBit 0x3 = true ∧ ctlStartBit 0x3 = true ∧ msaRead s.msa = true ∧
     s.slave = .scripted (Wave.quiet :: Wave.acks :: Wave.supplies 0x00 :: []) ∧
     Wave.quiet.proceeds = true ∧ Wave.acks.tx s.msa = some .ack ∧
     stopProceeds 0x3 [] = true) ∧
    (let s := testTx [.acks]
     s.ready = true ∧ ctlRunBit 0x1 = true ∧ ctlStartBit 0x1 = false ∧ s.own = .tx ∧
     s.slave = .scripted (Wave.acks :: []) ∧ Wave.acks.tx s.mdrTx = some .ack) ∧
    (let s := testIdle [.quiet, .acks, .acks, .quiet]
     s.ready = true ∧ ctlRunBit 0xF = true ∧ ctlStartBit 0xF = true ∧ msaRead s.msa = false ∧
     s.slave = .scripted (Wave.quiet :: Wave.acks :: Wave.acks :: [Wave.quiet]) ∧
     Wave.quiet.proceeds = true ∧ Wave.acks.tx s.msa = some .ack ∧
     Wave.acks.tx s.mdrTx = some .ack ∧ stopProceeds 0xF [Wave.quiet] = true) := by decide

/-- T-S6: an engine that reports a flag after one control word; and one that never ends after another. -/
theorem witness_ErrorTestOverAnyEngine :
    let s := testIdle []
    let d := { s with mdrTx := 0x5A }
    let hangs (c : Ctl) : Engine := fun w s => if w = c then { s with busy := true } else s.addressNack
    s.busy = false ∧
    (hangs 0xB 0xB s).busy = true ∧ (hangs 0xB 0xB d).busy = true ∧
    ((testEngine 0xB 0x5 s).busy = false ∧ (testEngine 0xB 0x5 s).errors = 0 ∧
      (testEngine 0xB 0x5 d).errors = 0) ∧
    ((testEngine 0xB 0xB s).busy = false ∧ (testEngine 0xB 0xB s).errors ≠ 0 ∧
      (testEngine 0xB 0x4 (testEngine 0xB 0xB s)).busy = false ∧
      (testEngine 0xB 0xB d).errors ≠ 0 ∧
      (testEngine 0xB 0x4 (testEngine 0xB 0xB d)).busy = false) ∧
    ((hangs 0x4 0xB s).busy = false ∧ (hangs 0x4 0xB s).errors ≠ 0 ∧
      (hangs 0x4 0x4 (hangs 0x4 0xB s)).busy = true ∧ (hangs 0x4 0xB d).errors ≠ 0 ∧
      (hangs 0x4 0x4 (hangs 0x4 0xB d)).busy = true) := by decide

theorem witness_ReadRegResult :
    let s := testTx [.quiet, .acks, .acks, .quiet, .acks, .supplies 0x01, .supplies 0x00, .quiet]
    s.ready = true ∧ s.slave = .scripted (Wave.quiet :: Wave.acks :: Wave.acks :: Wave.quiet ::
      Wave.acks :: Wave.supplies 0x01 :: Wave.supplies 0x00 :: Wave.quiet :: []) ∧
    Wave.quiet.proceeds = true ∧ Wave.acks.tx (s.msa &&& 0xFE) = some .ack ∧
    Wave.acks.tx 0xFF = some .ack ∧ Wave.acks.tx (s.msa ||| 0x01) = some .ack ∧
    (Wave.supplies 0x01).rx = some 0x01 ∧ (Wave.supplies 0x00).rx = some 0x00 := by decide

theorem witness_WriteReg16Result :
    let s := testIdle [.quiet, .acks, .acks, .acks, .acks, .quiet]
    s.ready = true ∧ s.slave = .scripted (Wave.quiet :: Wave.acks :: Wave.acks :: Wave.acks ::
      Wave.acks :: Wave.quiet :: []) ∧
    Wave.quiet.proceeds = true ∧ Wave.acks.tx (s.msa &&& 0xFE) = some .ack ∧
    Wave.acks.tx 0x02 = some .ack ∧ Wave.acks.tx ((0x01E0 : Half).extractLsb' 8 8) = some .ack ∧
    Wave.acks.tx ((0x01E0 : Half).extractLsb' 0 8) = some .ack := by decide

/-- One engine for each step that can fail, and one under which the command fails. -/
theorem witness_ErrorCollapse :
    let s := testIdle []
    let t := { s with rega := 5, msa := mergeDir s.msa false, mdrTx := 5 }
    let d := { t with msa := mergeDir t.msa true, seq := SeqState.directionSwitched }
    sendOp (testEngine 0x3) 5 0x3 { s with rega := 5, msa := mergeDir s.msa false } =
      .done (.err 0b011) t.addressNack ∧
    sendOp (testEngine 0xB) 5 0x3 { s with rega := 5, msa := mergeDir s.msa false } =
      .done (.ok ()) t ∧
    recvOp (testEngine 0xB) 0xB d = .done (.err 0b011) d.addressNack ∧
    recvOp (testEngine 0x5) 0xB d = .done (.ok 0) d ∧
    recvOp (testEngine 0x5) 0x5 { d with hi := 0, seq := .msbReceived } =
      .done (.err 0b011) (State.addressNack { d with hi := 0, seq := .msbReceived }) ∧
    (let w := { s with rega := 5, val := 0x01E0, msa := mergeDir s.msa false }
     let u := { w with mdrTx := 5, seq := SeqState.wAddressWritten }
     sendOp (testEngine 0x3) 5 0x3 w = .done (.err 0b011) (State.addressNack { w with mdrTx := 5 }) ∧
     sendOp (testEngine 0x1) 5 0x3 w = .done (.ok ()) { w with mdrTx := 5 } ∧
     sendOp (testEngine 0x1) 0x01 0x1 u = .done (.err 0b011) (State.addressNack { u with mdrTx := 1 }) ∧
     sendOp (testEngine 0x5) 0x01 0x1 u = .done (.ok ()) { u with mdrTx := 1 } ∧
     sendOp (testEngine 0x5) 0xE0 0x5 { u with mdrTx := 1, seq := .wMsbSent } =
       .done (.err 0b011) (State.addressNack { u with mdrTx := 0xE0, seq := .wMsbSent })) ∧
    (let a := { testIdle [.quiet, .quiet, .quiet] with executing := true, rspValid := false }
     (testIdle [.quiet, .quiet, .quiet]).ready = true ∧
     failsWith 0b011 (readRegOp engine 5 a) = true ∧
     failsWith 0b011 (writeRegOp engine 5 0x01E0 a) = true) := by decide

theorem witness_StopPairing :
    (testIdle [.quiet, .quiet, .quiet]).ready = true ∧
    (testIdle [.quiet, .quiet, .quiet]).own = .idle ∧
    (∃ t, exec (.readReg 0x05) (testIdle [.quiet, .quiet, .quiet]) = .next t ∧
      (!t.executing) = true) ∧
    (∃ t, exec (.writeReg16 0x02 0x01E0) (testIdle [.quiet, testWins]) = .next t ∧
      (!t.executing) = true) :=
  ⟨by decide, by decide, next_of_answers (by decide), next_of_answers (by decide)⟩

theorem testInit_inv (ws : List Wave) : (testInit ws).Inv := by
  refine ⟨rfl, rfl, ?_, rfl, rfl, rfl⟩
  simp [enableOk, testInit, testIdle]

theorem witness_ErrorResponses :
    (testInit [.quiet, .acks, .quiet, .quiet]).Inv ∧
    (testInit [.quiet, .acks, .quiet, .quiet]).ready = true ∧
    isBusCommand (.sendByte 0x05 0x3) = true ∧
    ∃ t, exec (.sendByte 0x05 0x3) (testInit [.quiet, .acks, .quiet, .quiet]) = .next t ∧
      (!t.executing && t.rsp.getLsbD 31) = true :=
  ⟨testInit_inv _, by decide, by decide, next_of_answers (by decide)⟩

theorem witness_ByteLevelAbort :
    ((testWord (testTx [])).busy = false ∧ (testWord (testTx [])).errors ≠ 0) ∧
    ((testInit [.quiet, .quiet, .quiet]).Inv ∧ (testInit [.quiet, .quiet, .quiet]).ready = true ∧
      (∃ t, exec (.sendByte 0x05 0x3) (testInit [.quiet, .quiet, .quiet]) = .next t ∧
        (!t.executing && t.rsp.getLsbD 31) = true) ∧
      (∃ t, exec (.recvByte 0x3) (testInit [.quiet, .quiet, .quiet]) = .next t ∧
        (!t.executing && t.rsp.getLsbD 31) = true)) ∧
    ((testTx []).mfe = true ∧ ctlRunBit 0x5 = true ∧ (testTx []).own ≠ .idle ∧
      ctlStartBit 0x3 = true) :=
  ⟨by decide, ⟨testInit_inv _, by decide, next_of_answers (by decide), next_of_answers (by decide)⟩,
    by decide⟩

theorem witness_Hang :
    ((testIdle [.quiet, testStuck]).ready = true ∧ isBusCommand (.recvByte 0x3) = true ∧
      ∃ t, exec (.recvByte 0x3) (testIdle [.quiet, testStuck]) = .next t ∧ t.busy = true) ∧
    ((testIdle [testStuck]).ready = true ∧ ctlRunBit 0x3 = true ∧ ctlStartBit 0x3 = true ∧
      (testIdle [testStuck]).slave = .scripted (testStuck :: []) ∧ testStuck.proceeds = false) :=
  ⟨⟨by decide, by decide, next_of_answers (by decide)⟩, by decide⟩

theorem witness_EndsUnlessTheSlaveStalls :
    (testIdle (List.replicate 8 Wave.quiet)).ready = true ∧ isBusCommand (.readReg 0x05) = true ∧
    (testIdle (List.replicate 8 Wave.quiet)).slave.answers = true ∧
    (Slave.sensor testSensor).answers = true := by decide

theorem witness_StepKeepsInvariant :
    (testInit [.quiet, testStuck]).Inv ∧
    ({ testInit [.quiet, testStuck] with inputs := [.word (.command 0x43050000)] } : State).Inv ∧
    ∃ t, step { testInit [.quiet, testStuck] with inputs := [.word (.command 0x43050000)] } =
      .next t ∧ (t.executing && t.trace == [.start]) = true :=
  ⟨testInit_inv _, testInit_inv [.quiet, testStuck], next_of_answers (by decide)⟩

theorem witness_StopsNeverExceedStarts :
    traceOk [.start, .txByte 0x30 false, .repStart, .txByte 0x31 true, .stop] = true ∧
    State.Inv { testInit [] with trace := [.start, .txByte 0x30 true, .stop] } :=
  ⟨by decide, rfl, rfl, (testInit_inv []).2.2.1, rfl, rfl, rfl⟩

theorem witness_WhoWritesWhat :
    (∃ t, exec .init State.reset = .next t ∧ t.mfe = true) ∧
    (∃ t, exec (.setAddr 0x18) State.reset = .next t ∧ (t.msa == 0x30) = true) ∧
    (∃ t, exec (.readReg 0x05) (testIdle [.quiet, .quiet, .quiet]) = .next t ∧
      (t.rega == 0x05) = true) ∧
    (∃ t, exec .ctlStop (testTx [.quiet]) = .next t ∧ (t.own == .idle) = true) :=
  ⟨next_of_answers (by decide), next_of_answers (by decide), next_of_answers (by decide),
    next_of_answers (by decide)⟩

theorem witness_AdvisedUseMovesTheByte :
    (let s := testIdle [.quiet, .acks, .acks]
     s.ready = true ∧ s.advised (.sendByte 0x05 0x3) = true ∧ ctlRunBit 0x3 = true ∧
     ∃ t, exec (.sendByte 0x05 0x3) s = .next t ∧ (!t.executing && t.rsp == 0) = true) ∧
    (let s := testRx [.supplies 0xC0, .quiet]
     s.ready = true ∧ s.advised (.recvByte 0x5) = true ∧
     ∃ t, exec (.recvByte 0x5) s = .next t ∧ (!t.executing && !t.rsp.getLsbD 31) = true) :=
  ⟨⟨by decide, by decide, by decide, next_of_answers (by decide)⟩, by decide, by decide,
    next_of_answers (by decide)⟩

theorem witness_TicksOfTheDivider : Line.reset.psc = 0 := by decide

theorem witness_SensorKeepsWhatIsWritten :
    let s := { testIdle [] with slave := .sensor testSensor }
    s.ready = true ∧ s.own = .idle ∧ msaAddr s.msa = 0x18 ∧ s.slave = .sensor testSensor := by decide

end Sys2Proof.Machine
end

