-- ==== Sys2Proof/Proofs/Divider.lean ====
section
/-! PROOFS. The clock divider INIT programs (spec/00_scope.md R7, spec/40_engine.md R113).

`ceilDiv` is the lower adjoint of multiplication, which makes `tprInit f` the least divider that keeps
SCL at or below 100 kHz: every bound on `tprInit` below is read off that one equivalence. -/

namespace Sys2Proof.Machine

theorem ceilDiv_le_iff {a b q : Nat} (hb : 0 < b) : ceilDiv a b ≤ q ↔ a ≤ b * q := by
  unfold ceilDiv
  by_cases hmod : a % b = 0
  · have hexact : b * (a / b) = a := Nat.mul_div_cancel' (Nat.dvd_of_mod_eq_zero hmod)
    rw [if_pos hmod, Nat.add_zero, ← Nat.mul_le_mul_left_iff hb, hexact]
  · have hne : a ≠ b * q := fun h => hmod (h ▸ Nat.mul_mod_right b q)
    rw [if_neg hmod, Nat.succ_le_iff, Nat.div_lt_iff_lt_mul hb, Nat.mul_comm q b, Nat.lt_iff_le_and_ne]
    exact and_iff_left hne

/-- A divider `t` keeps SCL, which is `f / (20 * (t + 1))` (R113), at or below 100 kHz exactly when it is
at least `tprInit f`. -/
theorem tprInit_le_iff {f t : Nat} : tprInit f ≤ t ↔ f ≤ 100000 * (20 * (t + 1)) := by
  rw [tprInit, Config.fSclHz, Nat.sub_le_iff_le_add, ceilDiv_le_iff (by decide)]
  omega

theorem le_scl_tprInit (f : Nat) : f ≤ 100000 * (20 * (tprInit f + 1)) :=
  tprInit_le_iff.mp le_rfl

/-- The seven bits of `TPR` hold the divider of every clock R113 admits. -/
theorem tprInit_le_127 {f : Nat} (hf : f ≤ 256000000) : tprInit f ≤ 127 :=
  tprInit_le_iff.mpr hf

/-- SCL runs at 100 kHz exactly when 2 MHz divides the clock; the clock is positive, since a stopped one
is a multiple of 2 MHz too. -/
theorem scl_tprInit_exact_iff {f : Nat} (hf : 1 ≤ f) :
    f = 100000 * (20 * (tprInit f + 1)) ↔ 2000000 ∣ f := by
  constructor
  · intro hexact
    exact ⟨tprInit f + 1, by omega⟩
  · rintro ⟨k, hk⟩
    have hlow : f ≤ 100000 * (20 * (tprInit f + 1)) := le_scl_tprInit f
    have hleast : tprInit f ≤ k - 1 := tprInit_le_iff.mpr (by omega)
    omega

theorem fSysHz_le : Config.fSysHz ≤ 256000000 := Config.fSysIndex.isLt

theorem tprInitValue_toNat : tprInitValue.toNat = tprInit Config.fSysHz := by
  rw [tprInitValue, BitVec.toNat_ofNat]
  exact Nat.mod_eq_of_lt (Nat.lt_succ_of_le (tprInit_le_127 fSysHz_le))

/-- Settles O15: the bounds are instances of `tprInit_le_iff`, at 127, at `tprInit f` itself, and at every
other divider that keeps the rate. -/
theorem dividerValue : Obligations.DividerValue :=
  ⟨fun f hpos hmax => ⟨tprInit_le_127 hmax, le_scl_tprInit f, fun _ => tprInit_le_iff.mpr,
      scl_tprInit_exact_iff hpos⟩,
    by decide, tprInitValue_toNat⟩

end Sys2Proof.Machine
end

