-- ==== Sys2Proof/Proofs/Port.lean ====
section
/-! PROOFS. The decoder of control writes, the port, the engine registers and the clock divider. -/

namespace Sys2Proof.Machine

/-! ### Which instructions go through the command port (spec/30_encoding.md R64, R70) -/

/-- A control word is one control write, whatever its constructor (R85, R91 to R106). -/
theorem exec_control {i : Instr} {c : Ctl} (h : controlWordOf i = some c) (s : State) :
    exec i s = controlStep c s := by
  cases i <;> cases h <;> rfl

theorem encode_control {i : Instr} {c : Ctl} (h : controlWordOf i = some c) :
    encode i = .control (c.setWidth 32) := by
  cases i <;> cases h <;> rfl

/-- To settle a statement about every instruction: the eight commands one by one, the control words by
the word they write. -/
theorem Instr.commandOrControl {motive : Instr → Prop} (init : motive .init)
    (setDir : ∀ d, motive (.setDir d)) (setAddr : ∀ a, motive (.setAddr a))
    (sendByte : ∀ d c, motive (.sendByte d c)) (recvByte : ∀ c, motive (.recvByte c))
    (readReg : ∀ r, motive (.readReg r)) (writeReg16 : ∀ r v, motive (.writeReg16 r v))
    (decodeTemp : ∀ v, motive (.decodeTemp v))
    (control : ∀ i c, controlWordOf i = some c → motive i) (i : Instr) : motive i := by
  cases i with
  | init => exact init
  | setDir d => exact setDir d
  | setAddr a => exact setAddr a
  | sendByte d c => exact sendByte d c
  | recvByte c => exact recvByte c
  | readReg r => exact readReg r
  | writeReg16 r v => exact writeReg16 r v
  | decodeTemp v => exact decodeTemp v
  | _ => exact control _ _ rfl

theorem isCommand_of_control {i : Instr} {c : Ctl} (h : controlWordOf i = some c) :
    isCommand i = false := by
  simp [isCommand, h]

/-- Every command goes through the one port (R14). -/
theorem exec_command {i : Instr} (h : isCommand i = true) :
    ∃ ok body, ∀ s, exec i s = command ok body s := by
  cases i using Instr.commandOrControl with
  | control i c hc => simp [isCommand_of_control hc] at h
  | init => exact ⟨_, _, fun _ => by rw [exec, execInit]⟩
  | setDir d => exact ⟨_, _, fun _ => by rw [exec, execSetDir]⟩
  | setAddr a => exact ⟨_, _, fun _ => by rw [exec, execSetAddr]⟩
  | sendByte d c => exact ⟨_, _, fun _ => by rw [exec, execSendByte]⟩
  | recvByte c => exact ⟨_, _, fun _ => by rw [exec, execRecvByte]⟩
  | readReg r => exact ⟨_, _, fun _ => by rw [exec, execReadReg]⟩
  | writeReg16 r v => exact ⟨_, _, fun _ => by rw [exec, execWriteReg16]⟩
  | decodeTemp v => exact ⟨_, _, fun _ => by rw [exec, execDecodeTemp]⟩

/-- Settles O9: every command goes through the port, which takes nothing while `EXEC = 1`. -/
theorem noCommandWhileExecuting : Obligations.NoCommandWhileExecuting := by
  intro i s hi hexec
  obtain ⟨ok, body, hport⟩ := exec_command hi
  rw [hport, command_eq, if_pos hexec]

/-- Settles O6: what `serve` does with a word that decodes. -/
theorem stepRunsDecodedInstruction : Obligations.StepRunsDecodedInstruction := by
  intro s p i rest hin hdec
  simp only [step, serve, hin, hdec]

/-! ### The decoder of control writes (R17, R70, R77) -/

theorem decodeControl_low_bits (v : Word) :
    decodeControl ((v.setWidth 4).setWidth 32) = decodeControl v := by
  simp [decodeControl]

theorem controlWordOf_decodeControl_of_ctl (c : Ctl) :
    controlWordOf (decodeControl (c.setWidth 32)) = some c := by
  revert c; decide

theorem controlWordOf_decodeControl (v : Word) :
    controlWordOf (decodeControl v) = some (v.setWidth 4) := by
  rw [← decodeControl_low_bits, controlWordOf_decodeControl_of_ctl]

theorem low_bits_eq_mask (v : Word) : (v.setWidth 4).setWidth 32 = v &&& 0xF := by
  apply BitVec.eq_of_toNat_eq
  have hmask : v.toNat &&& 15 = v.toNat % 16 := Nat.and_two_pow_sub_one_eq_mod v.toNat 4
  have hlow : v.toNat % 16 < 2 ^ 32 := by omega
  rw [BitVec.toNat_and, BitVec.toNat_setWidth, BitVec.toNat_setWidth]
  exact (Nat.mod_eq_of_lt hlow).trans hmask.symm

/-- Settles O3: the decoder sees the four low bits alone, and on those it inverts the table of R70. -/
theorem controlWriteReadsFourBits : Obligations.ControlWriteReadsFourBits := by
  intro v
  have hword := controlWordOf_decodeControl v
  exact ⟨by rw [encode_control hword, low_bits_eq_mask], hword⟩

/-! ### The engine registers (spec/20_memory.md R42, spec/30_encoding.md R71) -/

theorem memRead_mfe_toNat (s : State) : (memRead .mfe s).toNat = 16 * s.mfe.toNat := by
  cases h : s.mfe <;> simp [memRead, h]

theorem statusWord_toNat (s : State) :
    (statusWord s).toNat =
      s.busy.toNat + 2 * s.error.toNat + 4 * s.adrack.toNat + 8 * s.datack.toNat := by
  unfold statusWord
  generalize s.busy = b, s.error = e, s.adrack = a, s.datack = k
  revert b e a k
  decide

/-- Settles O12: the writes are the definition of `memWrite`, the reads the numbers of the words. -/
theorem engineRegisterMap : Obligations.EngineRegisterMap := by
  refine ⟨fun eng v s => ⟨rfl, rfl, rfl, rfl, fun hbusy => ?_⟩, fun s => ⟨?_, ?_, ?_, ?_, ?_⟩⟩
  · rw [memWrite_mcs, hbusy, if_neg Bool.false_ne_true]
  · exact BitVec.toNat_setWidth_of_le (by decide)
  · exact BitVec.toNat_setWidth_of_le (by decide)
  · exact BitVec.toNat_setWidth_of_le (by decide)
  · exact memRead_mfe_toNat s
  · exact statusWord_toNat s

end Sys2Proof.Machine
end

