-- ==== Sys2Proof/Proofs/Clock.lean ====
section
/-! PROOFS. The edges of `clk` that make a tick (spec/10_state.md R29, spec/40_engine.md R113). -/

namespace Sys2Proof.Machine

theorem Line.clkEdges_add (tpr : BitVec 7) (m n : Nat) (l : Line) :
    Line.clkEdges tpr (m + n) l = Line.clkEdges tpr n (Line.clkEdges tpr m l) := by
  induction m generalizing l with
  | zero => rw [Nat.zero_add]; rfl
  | succ m ih => rw [Nat.succ_add]; exact ih _

theorem Line.clkEdges_succ (tpr : BitVec 7) (n : Nat) (l : Line) :
    Line.clkEdges tpr (n + 1) l = (Line.clkEdges tpr n l).clkEdge tpr :=
  Line.clkEdges_add tpr n 1 l

/-- `PSC` has room for the longest tick, that of `TPR = 127`. -/
theorem tickPeriods_le (tpr : BitVec 7) : tickPeriods tpr ≤ 256 := by
  unfold tickPeriods
  omega

/-- Short of a tick the edges only count up `PSC`. -/
theorem Line.clkEdges_within_tick {tpr : BitVec 7} {l : Line} (hpsc : l.psc = 0) {k : Nat}
    (hk : k < tickPeriods tpr) : Line.clkEdges tpr k l = { l with psc := BitVec.ofNat 8 k } := by
  induction k with
  | zero => exact congrArg (fun p => ({ l with psc := p } : Line)) hpsc
  | succ k ih =>
    have hroom := tickPeriods_le tpr
    have hcount : (BitVec.ofNat 8 k).toNat = k := by simp; omega
    rw [Line.clkEdges_succ, ih (by omega), Line.clkEdge, hcount, if_neg (by omega), BitVec.ofNat_add]
    rfl

/-- The last edge of a tick wraps `PSC` and counts the tick. -/
theorem Line.clkEdges_tick {tpr : BitVec 7} {l : Line} (hpsc : l.psc = 0) :
    Line.clkEdges tpr (tickPeriods tpr) l = { l with psc := 0, tickcnt := l.tickcnt + 1 } := by
  obtain ⟨k, hk⟩ : ∃ k, tickPeriods tpr = k + 1 := ⟨2 * tpr.toNat + 1, rfl⟩
  have hroom := tickPeriods_le tpr
  have hcount : (BitVec.ofNat 8 k).toNat = k := by simp; omega
  rw [hk, Line.clkEdges_succ, Line.clkEdges_within_tick hpsc (by omega), Line.clkEdge, hcount,
    if_pos hk.symm]

/-- Settles O59, by induction on the number of ticks. -/
theorem ticksOfTheDivider : Obligations.TicksOfTheDivider := by
  intro tpr n l hpsc
  change Line.clkEdges tpr (n * tickPeriods tpr) l = _
  induction n generalizing l with
  | zero => simp [Line.clkEdges]
  | succ n ih =>
    rw [Nat.succ_mul, Nat.add_comm, Line.clkEdges_add, Line.clkEdges_tick hpsc, ih _ rfl]
    simp only [BitVec.add_assoc, ← hpsc, Nat.add_comm n 1, BitVec.ofNat_add]
    rfl

end Sys2Proof.Machine
end

