-- ==== Sys2Proof/Proofs/Runs.lean ====
section
/-! PROOFS. What the units above the engine and the command port keep, stated once: a property of the
state that the engine and the few register writes of a unit keep holds wherever the unit ends
(spec/41_byte_transfer.md R123 to R127, spec/42_sequencer.md R132, R133, R141). -/

namespace Sys2Proof.Machine

/-- Where a run may leave the block: in `D` when it ends, in `H` when it hangs. -/
def Run.Leaves {α : Type} (D H : State → Prop) : Run α → Prop
  | .done _ s => D s
  | .hang s => H s
  | .undef _ => True

section
variable {α β : Type} {D D' H : State → Prop}

theorem Run.Leaves.bind {m : Run α} {k : α → State → Run β} (hm : m.Leaves D H)
    (hk : ∀ a s, D s → (k a s).Leaves D' H) : (m.bind k).Leaves D' H := by
  cases m with
  | done a s => exact hk a s hm
  | hang s => exact hm
  | undef r => trivial

theorem Run.Leaves.mono {m : Run α} (hm : m.Leaves D H) (hD : ∀ s, D s → D' s) : m.Leaves D' H := by
  cases m with
  | done a s => exact hD s hm
  | hang s => exact hm
  | undef r => trivial

/-- A step of a sequence: on an error the sequence collapses to Idle (R141). -/
theorem Run.Leaves.seqStep {m : Run (Xfer α)} {k : α → State → Run (Xfer β)} (hm : m.Leaves D H)
    (herr : ∀ s, D s → D' (s.setSeq .idle)) (hk : ∀ a s, D s → (k a s).Leaves D' H) :
    (seqStep m k).Leaves D' H :=
  hm.bind fun x s hs => by
    cases x with
    | ok a => exact hk a s hs
    | err f => exact herr s hs

end

/-- A control write accepted in `D` leaves the block in `D` when the operation ends, and in `H` when it
never does. -/
structure KeptByEngine (eng : Engine) (D H : State → Prop) : Prop where
  ended : ∀ c s, D s → s.busy = false → (eng c s).busy = false → D (eng c s)
  stalled : ∀ c s, D s → s.busy = false → (eng c s).busy = true → H (eng c s)

/-- The writes that both sequences make keep `D` too. -/
structure KeptBySequence (eng : Engine) (D H : State → Prop) : Prop extends
    KeptByEngine eng D H where
  writeMdr : ∀ v s, D s → D (s.writeMdr v)
  setSeq : ∀ q s, D s → D (s.setSeq q)
  dirOp : ∀ d s, D s → D (dirOp d s)

section
variable {eng : Engine} {D H : State → Prop} {s : State}

theorem transfer_leaves {α : Type} {k : State → Run (Xfer α)} (h : KeptByEngine eng D H)
    (hk : ∀ s, D s → (k s).Leaves D H) (c : Ctl) (hs : D s) : (transfer eng c k s).Leaves D H := by
  rw [transfer_eq]
  split
  · trivial
  next hidle =>
  rw [Bool.not_eq_true] at hidle
  split
  next hstall => exact h.stalled c s hs hidle hstall
  next hend =>
  rw [Bool.not_eq_true] at hend
  have hD := h.ended c s hs hidle hend
  split
  · exact hk _ hD
  split
  next hstall => exact h.stalled 0x4 _ hD hend hstall
  next hstop => exact h.ended 0x4 _ hD hend (Bool.not_eq_true _ ▸ hstop)

theorem sendOp_leaves (h : KeptByEngine eng D H) (hmdr : ∀ v s, D s → D (s.writeMdr v)) (d : Byte)
    (c : Ctl) (hs : D s) : (sendOp eng d c s).Leaves D H :=
  transfer_leaves (k := fun s => .done (.ok ()) s) h (fun _ hs => hs) c (hmdr _ s hs)

theorem recvOp_leaves (h : KeptByEngine eng D H) (c : Ctl) (hs : D s) :
    (recvOp eng c s).Leaves D H :=
  transfer_leaves (k := fun s => .done (.ok ((memRead .mdr s).setWidth 8)) s) h
    (fun _ hs => hs) c hs

/-- A sequence ends, with its result or on an error, by putting `SEQ` at Idle (R30, R141). -/
theorem KeptBySequence.collapse (h : KeptBySequence eng D H) (hs : D s) :
    D (s.setSeq .idle) ∧ (s.setSeq .idle).seq = .idle :=
  ⟨h.setSeq _ s hs, rfl⟩

theorem readRegOp_leaves (h : KeptBySequence eng D H) {r : Byte}
    (hrega : ∀ s, D s → D { s with rega := r }) (hhi : ∀ b s, D s → D { s with hi := b })
    (hlo : ∀ b s, D s → D { s with lo := b }) (hs : D s) :
    (readRegOp eng r s).Leaves (fun t => D t ∧ t.seq = .idle) H := by
  refine (sendOp_leaves h.toKeptByEngine h.writeMdr r 0x3 (h.dirOp false _ (hrega s hs))).seqStep
    (fun _ => h.collapse) fun _ s hs => ?_
  refine (recvOp_leaves h.toKeptByEngine 0xB
    (h.setSeq _ _ (h.dirOp true _ (h.setSeq _ s hs)))).seqStep (fun _ => h.collapse) fun b s hs => ?_
  refine (recvOp_leaves h.toKeptByEngine 0x5 (hhi b _ (h.setSeq _ s hs))).seqStep
    (fun _ => h.collapse) fun b s hs => ?_
  exact h.collapse (h.setSeq _ _ (hlo b s hs))

theorem writeRegOp_leaves (h : KeptBySequence eng D H) {r : Byte} {v : Half}
    (hoperands : ∀ s, D s → D { s with rega := r, val := v }) (hs : D s) :
    (writeRegOp eng r v s).Leaves (fun t => D t ∧ t.seq = .idle) H := by
  refine (sendOp_leaves h.toKeptByEngine h.writeMdr r 0x3
    (h.dirOp false _ (hoperands s hs))).seqStep (fun _ => h.collapse) fun _ s hs => ?_
  refine (sendOp_leaves h.toKeptByEngine h.writeMdr (hiByte s.val) 0x1
    (h.setSeq _ s hs)).seqStep (fun _ => h.collapse) fun _ s hs => ?_
  refine (sendOp_leaves h.toKeptByEngine h.writeMdr (loByte s.val) 0x5
    (h.setSeq _ s hs)).seqStep (fun _ => h.collapse) fun _ s hs => ?_
  exact h.collapse (h.setSeq _ s hs)

end

/-- What holds after a command at the port: it was not accepted, it was refused, or its body ended with
a response or hung (R14, R157, R160). -/
theorem command_keeps {P : State → Prop} {ok : State → Bool} {body : State → Run Response}
    {s t : State} (h : command ok body s = .next t) (hs : P s)
    (hrefuse : s.executing = false → P s.refuse)
    (hbody : s.executing = false → ok s = true →
      (body s.accept).Leaves (fun u => ∀ r, P (u.respond r)) P) : P t := by
  rcases command_next h with ⟨-, rfl⟩ | ⟨he, -, rfl⟩ | ⟨he, hok, ⟨r, u, hrun, rfl⟩ | hrun⟩
  · exact hs
  · exact hrefuse he
  · have hleaves := hbody he hok
    rw [hrun] at hleaves
    exact hleaves r
  · have hleaves := hbody he hok
    rwa [hrun] at hleaves

end Sys2Proof.Machine
end

