-- ==== Sys2Proof/Proofs/Invariant.lean ====
section
/-! PROOFS. Every step keeps the invariant of the block. Apart from the port's part, which speaks of
`EXEC`, `rsp_valid` and `SEQ`, it is an invariant of the engine, kept by every control write. -/

namespace Sys2Proof.Machine

/-! ### Where an operation leaves the trace (spec/40_engine.md R118) -/

/-- Where the trace stands while the engine is not busy. -/
def ownPhase (o : Own) : BusPhase := if o = .idle then .idle else .opened

theorem ownPhase_of_ne_idle {o : Own} (h : o ≠ .idle) : ownPhase o = .opened := if_neg h

theorem ownPhase_ne_broken (o : Own) : ownPhase o ≠ .broken := by cases o <;> decide

theorem phaseAfter_append (p : BusPhase) (es es' : List BusEvent) :
    phaseAfter p (es ++ es') = phaseAfter (phaseAfter p es) es' := List.foldl_append

theorem tracePhase_append (t es : List BusEvent) :
    tracePhase (t ++ es) = phaseAfter (tracePhase t) es := phaseAfter_append _ _ _

theorem phaseAfter_startEvent (o : Own) : phaseAfter (ownPhase o) [startEvent o] = .addressing := by
  cases o <;> rfl

theorem latched_ne_idle (s : State) : latched s ≠ .idle := by
  unfold latched
  split <;> decide

section
variable {c : Ctl} {s : State}

theorem phaseAfter_address {e : BusEvent} {p : BusPhase} (he : BusPhase.next .addressing e = p) :
    phaseAfter (ownPhase s.own) [startEvent s.own, e] = p := by
  rw [← he, ← phaseAfter_startEvent s.own]
  rfl

theorem phaseAfter_openingEvents (ho : ctlStartBit c = true ∨ s.own ≠ .idle) :
    phaseAfter (ownPhase s.own) (openingEvents c s) = .opened := by
  unfold openingEvents
  split
  · exact phaseAfter_address rfl
  next hstart => exact ownPhase_of_ne_idle (ho.resolve_left hstart)

theorem phaseAfter_openingEvents_append (ho : ctlStartBit c = true ∨ s.own ≠ .idle) (e : BusEvent) :
    phaseAfter (ownPhase s.own) (openingEvents c s ++ [e]) = BusPhase.next .opened e := by
  rw [phaseAfter_append, phaseAfter_openingEvents ho]
  rfl

theorem dataDirection_ne_idle (ho : ctlStartBit c = true ∨ s.own ≠ .idle) :
    dataDirection c s ≠ .idle := by
  unfold dataDirection
  split
  · exact latched_ne_idle s
  next hstart => exact ho.resolve_left hstart

variable {d : Own} {e : BusEvent} {es : List BusEvent} {a k : Bool} {v : Byte}

theorem DataByte.next_opened (h : DataByte c s d e k v) : BusPhase.next .opened e = .opened := by
  cases h <;> rfl

theorem ByteEnd.own_ne_idle (ho : ctlStartBit c = true ∨ s.own ≠ .idle) (h : ByteEnd c s d es a k v) :
    d ≠ .idle := by
  cases h with
  | addressNack => exact latched_ne_idle s
  | data => exact dataDirection_ne_idle ho

/-- One byte at most is not acknowledged: after the address byte the data byte does not follow. -/
theorem ByteEnd.one_cause (h : ByteEnd c s d es a k v) : (a && k) = false := by
  cases h <;> rfl

theorem ByteEnd.phase (ho : ctlStartBit c = true ∨ s.own ≠ .idle) (h : ByteEnd c s d es a k v) :
    phaseAfter (ownPhase s.own) es = .opened := by
  cases h with
  | addressNack => exact phaseAfter_address rfl
  | data e k v hbyte => rw [phaseAfter_openingEvents_append ho, hbyte.next_opened]

theorem ByteLost.phase (ho : ctlStartBit c = true ∨ s.own ≠ .idle) (h : ByteLost c s es) :
    phaseAfter (ownPhase s.own) es = .idle := by
  cases h with
  | address => exact phaseAfter_address rfl
  | data => exact phaseAfter_openingEvents_append ho _

theorem ByteStall.phase_ne_broken (ho : ctlStartBit c = true ∨ s.own ≠ .idle)
    (h : ByteStall c s d es) : phaseAfter (ownPhase s.own) es ≠ .broken := by
  cases h with
  | start => exact ownPhase_ne_broken _
  | address => rw [phaseAfter_startEvent]; decide
  | data => rw [phaseAfter_openingEvents ho]; decide
  | stop d es a k v hend => rw [hend.phase ho]; decide

end

/-! ### The engine's part of the invariant -/

/-- The invariant but for the port's part. -/
structure EngineInv (s : State) : Prop where
  lines : linesOk s = true
  flags : flagsOk s = true
  enable : enableOk s = true
  bus : busOk s = true
  cells : cellsOk s = true

theorem State.inv_iff (s : State) : s.Inv ↔ EngineInv s ∧ portOk s = true := by
  constructor
  · rintro ⟨lines, flags, enable, port, bus, cells⟩
    exact ⟨⟨lines, flags, enable, bus, cells⟩, port⟩
  · rintro ⟨⟨lines, flags, enable, bus, cells⟩, port⟩
    exact ⟨lines, flags, enable, port, bus, cells⟩

/-- The engine's part reads nothing of what its units and its port write. -/
theorem EngineInv.frame {s : State} (h : EngineInv s) (msa mdrTx mdrRx rega hi lo : Byte) (ctl : Ctl)
    (seq : SeqState) (val : Half) (tflags : BitVec 3) (executing rspValid addrSet : Bool) (rsp : Word) :
    EngineInv { s with msa, mdrTx, mdrRx, rega, hi, lo, ctl, seq, val, tflags, executing, rspValid,
                       addrSet, rsp } :=
  ⟨h.lines, h.flags, h.enable, h.bus, h.cells⟩

theorem linesOk_of_busy {s : State} (h : s.busy = true) : linesOk s = true := by
  simp [linesOk, h]

theorem busOk_iff_of_busy {s : State} (h : s.busy = true) :
    busOk s = true ↔ tracePhase s.trace ≠ .broken := by
  simp [busOk, h, traceOk]

theorem busOk_iff_of_not_busy {s : State} (h : s.busy = false) :
    busOk s = true ↔ tracePhase s.trace = ownPhase s.own := by
  simp [busOk, h, ownPhase]

/-- An engine that is enabled already stays as INIT left it. -/
theorem enableOk_of_enabled {s t : State} (hs : enableOk s = true) (hm : s.mfe = true)
    (htm : t.mfe = s.mfe) (ht : t.tpr = s.tpr) : enableOk t = true := by
  simpa [enableOk, hm, htm, ht] using hs

theorem flagsOk_of_one_cause {s : State} (h : (s.adrack && s.datack) = false)
    (he : s.error = (s.adrack || s.datack)) : flagsOk s = true := by
  rw [flagsOk, h, he]
  cases s.adrack <;> cases s.datack <;> rfl

theorem cellsOk_of_kept {s t : State} (hs : cellsOk s = true) (hk : cellsKept s t.line) :
    cellsOk t = true :=
  decide_eq_true (hk (of_decide_eq_true hs))

/-- The finish leaves the lines in step with the ownership (R37, R90). -/
theorem linesOk_finish {c : Ctl} {d : Own} {sh : Byte} (hd : d ≠ .idle) {t : State}
    (ho : t.own = if ctlStopBit c then .idle else d)
    (hl : t.line = if ctlStopBit c then Line.stoppedWith sh else Line.heldWith sh) :
    linesOk t = true := by
  rw [linesOk, ho, hl]
  split <;> simp [Line.stoppedWith, Line.heldWith, hd]

theorem phaseAfter_finish {c : Ctl} {d : Own} (hd : d ≠ .idle) :
    phaseAfter .opened (if ctlStopBit c then [.stop] else []) =
      ownPhase (if ctlStopBit c then .idle else d) := by
  split
  · rfl
  · exact (ownPhase_of_ne_idle hd).symm

theorem EngineInv.engine {s : State} (h : EngineInv s) (hidle : s.busy = false) (c : Ctl) :
    EngineInv (engine c s) := by
  have hphase : tracePhase s.trace = ownPhase s.own := (busOk_iff_of_not_busy hidle).mp h.bus
  have hout := engine_outcome c s
  generalize Machine.engine c s = t at hout
  cases hout with
  | nothing _ => exact h.frame ..
  | stop sl n hm _ _ ho _ =>
    refine ⟨rfl, h.flags, enableOk_of_enabled h.enable hm rfl rfl, ?_, h.cells⟩
    rw [busOk_iff_of_not_busy rfl]
    simp only [moved, tracePhase_append, hphase, ownPhase_of_ne_idle ho]
    rfl
  | stopStall l sl n hm _ _ _ _ hcells =>
    refine ⟨linesOk_of_busy rfl, h.flags, enableOk_of_enabled h.enable hm rfl rfl, ?_, ?_⟩
    · rw [busOk_iff_of_busy rfl]
      simp only [moved, List.append_nil, hphase]
      exact ownPhase_ne_broken _
    · exact cellsOk_of_kept h.cells hcells
  | ended d es a k v sh sl n hm _ ho hend _ =>
    refine ⟨?_, flagsOk_of_one_cause hend.one_cause rfl, enableOk_of_enabled h.enable hm rfl rfl,
      ?_, ?_⟩
    · exact linesOk_finish (hend.own_ne_idle ho) rfl rfl
    · rw [busOk_iff_of_not_busy rfl]
      simp only [moved, tracePhase_append, hphase, phaseAfter_append, hend.phase ho]
      exact phaseAfter_finish (hend.own_ne_idle ho)
    · simp only [cellsOk, moved]
      split <;> rfl
  | lost es l sl n hm _ ho hlost _ hscl hsda hcells =>
    refine ⟨by simp [linesOk, moved, hscl, hsda], rfl, enableOk_of_enabled h.enable hm rfl rfl, ?_,
      decide_eq_true hcells⟩
    rw [busOk_iff_of_not_busy rfl]
    simp only [moved, tracePhase_append, hphase]
    exact hlost.phase ho
  | stalled o e a k v l es sl n hm _ ho hstall _ hak he hcells =>
    refine ⟨linesOk_of_busy rfl, flagsOk_of_one_cause hak he,
      enableOk_of_enabled h.enable hm rfl rfl, ?_, cellsOk_of_kept h.cells hcells⟩
    rw [busOk_iff_of_busy rfl]
    simp only [moved, tracePhase_append, hphase]
    exact hstall.phase_ne_broken ho

/-! ### The port's part -/

/-- What holds while the body of a command runs. -/
structure Accepted (s : State) : Prop where
  engine : EngineInv s
  executing : s.executing = true
  rspValid : s.rspValid = false

theorem Accepted.accept {s : State} (h : EngineInv s) : Accepted s.accept :=
  ⟨h.frame .., rfl, rfl⟩

/-- A command that hangs. -/
theorem Accepted.inv_of_busy {s : State} (h : Accepted s) (hbusy : s.busy = true) : s.Inv :=
  s.inv_iff.mpr ⟨h.engine, by simp [portOk, h.executing, h.rspValid, hbusy]⟩

/-- A command that ends. -/
theorem EngineInv.inv_respond {s : State} (h : EngineInv s) (hseq : s.seq = .idle) (r : Response) :
    (s.respond r).Inv :=
  (State.inv_iff _).mpr ⟨h.frame .., by simp [portOk, hseq]⟩

theorem engine_executing (c : Ctl) (s : State) : (engine c s).executing = s.executing := by
  have h : engine c s = _ := engine_frame c s
  rw [h]

theorem engine_rspValid (c : Ctl) (s : State) : (engine c s).rspValid = s.rspValid := by
  have h : engine c s = _ := engine_frame c s
  rw [h]

theorem engine_seq (c : Ctl) (s : State) : (engine c s).seq = s.seq := by
  have h : engine c s = _ := engine_frame c s
  rw [h]

theorem Accepted.engine_step {s : State} (h : Accepted s) (hidle : s.busy = false) (c : Ctl) :
    Accepted (Machine.engine c s) :=
  ⟨h.engine.engine hidle c, (engine_executing c s).trans h.executing,
    (engine_rspValid c s).trans h.rspValid⟩

/-- The registers of the units above the engine are no part of the invariant, but for `SEQ`. -/
theorem Accepted.unitWrite {s : State} (h : Accepted s) (msa mdrTx rega hi lo : Byte) (seq : SeqState)
    (val : Half) : Accepted { s with msa, mdrTx, rega, hi, lo, seq, val } :=
  ⟨h.engine.frame .., h.executing, h.rspValid⟩

theorem accepted_keptBySequence : KeptBySequence Machine.engine Accepted State.Inv where
  ended c _ hs hidle _ := hs.engine_step hidle c
  stalled c _ hs hidle hbusy := (hs.engine_step hidle c).inv_of_busy hbusy
  writeMdr _ _ hs := hs.unitWrite ..
  setSeq _ _ hs := hs.unitWrite ..
  dirOp _ _ hs := hs.unitWrite ..

/-- The byte commands leave `SEQ` alone (R30). -/
theorem accepted_idle_keptByEngine :
    KeptByEngine Machine.engine (fun s => Accepted s ∧ s.seq = .idle) State.Inv where
  ended c s hs hidle _ := ⟨hs.1.engine_step hidle c, (engine_seq c s).trans hs.2⟩
  stalled c _ hs hidle hbusy := (hs.1.engine_step hidle c).inv_of_busy hbusy

theorem portOk_iff_of_not_executing {s : State} (h : s.executing = false) :
    portOk s = true ↔ s.seq = .idle := by
  simp [portOk, h]

theorem State.Inv.refuse {s : State} (hs : s.Inv) (he : s.executing = false) : s.refuse.Inv := by
  obtain ⟨heng, hport⟩ := s.inv_iff.mp hs
  exact (Accepted.accept heng).engine.inv_respond ((portOk_iff_of_not_executing he).mp hport) .ill

/-- A command keeps the invariant when its body, run from an accepted state with `SEQ` at Idle, ends with
the engine's part and `SEQ` at Idle, or hangs in a state of the invariant. -/
theorem State.Inv.command {ok : State → Bool} {body : State → Run Response} {s t : State} (hs : s.Inv)
    (h : command ok body s = .next t)
    (hbody : ok s = true → Accepted s.accept ∧ s.accept.seq = .idle →
      (body s.accept).Leaves (fun u => EngineInv u ∧ u.seq = .idle) State.Inv) : t.Inv := by
  obtain ⟨heng, hport⟩ := s.inv_iff.mp hs
  refine command_keeps h hs hs.refuse fun he hok => ?_
  have hleaves := hbody hok ⟨Accepted.accept heng, (portOk_iff_of_not_executing he).mp hport⟩
  exact hleaves.mono fun u hu r => hu.1.inv_respond hu.2 r

/-- A control word keeps the invariant: with `BUSY = 0` no command executes, so the port's part asks for
`SEQ` alone, which the engine does not write. -/
theorem State.Inv.controlStep {c : Ctl} {s t : State} (hs : s.Inv) (h : controlStep c s = .next t) :
    t.Inv := by
  obtain ⟨heng, hport⟩ := s.inv_iff.mp hs
  rw [controlStep_eq] at h
  split at h
  · cases h
  next hidle =>
  rw [Bool.not_eq_true] at hidle
  cases h
  have he : s.executing = false := by
    cases he : s.executing
    · rfl
    · simp [portOk, he, hidle] at hport
  refine (State.inv_iff _).mpr ⟨heng.engine hidle c, ?_⟩
  rw [portOk_iff_of_not_executing ((engine_executing c s).trans he), engine_seq]
  exact (portOk_iff_of_not_executing he).mp hport

/-- INIT with no transaction open: the engine's part holds of the values it programs (R120). -/
theorem EngineInv.init {s : State} (h : EngineInv s) :
    EngineInv { s with mfe := true, tpr := tprInitValue } :=
  ⟨h.lines, h.flags, by simp [enableOk], h.bus, h.cells⟩

theorem initOp_eq (s : State) :
    (s.writeMfe 0x00000010).writeTpr (tprInitValue.setWidth 32) =
      { s with mfe := true, tpr := tprInitValue } := by
  simp [State.writeMfe, State.writeTpr]

theorem State.Inv.exec {i : Instr} {s t : State} (hs : s.Inv) (h : exec i s = .next t) : t.Inv := by
  cases i using Instr.commandOrControl with
  | init =>
    rw [Machine.exec, execInit] at h
    refine hs.command h fun _ hacc => ?_
    rw [initOp_eq]
    exact ⟨hacc.1.engine.init, hacc.2⟩
  | setDir d =>
    rw [Machine.exec, execSetDir] at h
    exact hs.command h fun _ hacc => ⟨hacc.1.engine.frame .., hacc.2⟩
  | setAddr a =>
    rw [Machine.exec, execSetAddr] at h
    exact hs.command h fun _ hacc => ⟨hacc.1.engine.frame .., hacc.2⟩
  | decodeTemp v =>
    rw [Machine.exec, execDecodeTemp] at h
    exact hs.command h fun _ hacc => ⟨hacc.1.engine.frame .., hacc.2⟩
  | sendByte d c =>
    rw [Machine.exec, execSendByte] at h
    refine hs.command h fun _ hacc => (sendOp_leaves accepted_idle_keptByEngine
      (fun _ _ hs => ⟨accepted_keptBySequence.writeMdr _ _ hs.1, hs.2⟩) d c hacc).bind ?_
    exact fun _ _ hend => ⟨hend.1.engine, hend.2⟩
  | recvByte c =>
    rw [Machine.exec, execRecvByte] at h
    refine hs.command h fun _ hacc => (recvOp_leaves accepted_idle_keptByEngine c hacc).bind ?_
    exact fun _ _ hend => ⟨hend.1.engine, hend.2⟩
  | readReg r =>
    rw [Machine.exec, execReadReg] at h
    refine hs.command h fun _ hacc => (readRegOp_leaves accepted_keptBySequence
      (fun _ hs => hs.unitWrite ..) (fun _ _ hs => hs.unitWrite ..)
      (fun _ _ hs => hs.unitWrite ..) hacc.1).bind ?_
    exact fun _ _ hend => ⟨hend.1.engine, hend.2⟩
  | writeReg16 r v =>
    rw [Machine.exec, execWriteReg16] at h
    refine hs.command h fun _ hacc => (writeRegOp_leaves accepted_keptBySequence
      (fun _ hs => hs.unitWrite ..) hacc.1).bind ?_
    exact fun _ _ hend => ⟨hend.1.engine, hend.2⟩
  | control i c hc =>
    rw [exec_control hc] at h
    exact hs.controlStep h

/-! ### The step -/

theorem State.Inv.resetBlock (rest : List PortInput) (s : State) : (s.resetBlock rest).Inv :=
  ⟨rfl, rfl, rfl, rfl, rfl, rfl⟩

theorem State.Inv.inputs {s : State} (hs : s.Inv) (rest : List PortInput) :
    ({ s with inputs := rest } : State).Inv := hs

theorem State.Inv.illegalCommand {s t : State} (hs : s.Inv) (h : illegalCommand s = .next t) :
    t.Inv := by
  unfold Machine.illegalCommand State.cmdReady at h
  split at h
  next hready =>
    cases h
    exact hs.refuse (by simpa using hready)
  · cases h
    exact hs

/-- Settles O52: of what the ports can carry, nothing and `rst` are immediate, a word that is no command
ends in `Ill`, and an instruction keeps the invariant by `State.Inv.exec`. -/
theorem stepKeepsInvariant : Obligations.StepKeepsInvariant := by
  intro s t hs h
  unfold step serve at h
  split at h
  · cases h
    exact hs
  · cases h
    exact hs.inputs _
  · cases h
    exact State.Inv.resetBlock _ s
  · split at h
    · exact (hs.inputs _).exec h
    · exact (hs.inputs _).illegalCommand h

end Sys2Proof.Machine
end

