-- ==== Sys2Proof/Proofs/Frame.lean ====
section
/-! PROOFS. Which instructions write which registers (spec/10_state.md R13 to R36). `Writes i` relates
two states when all that differs between them is what the instruction `i` may write; it is reflexive and
transitive and holds of every update that `i` makes, so it holds of the whole instruction. -/

namespace Sys2Proof.Machine

/-- What differs from `s` to `t` the instruction `i` may write. -/
structure Writes (i : Instr) (s t : State) : Prop where
  inputs : t.inputs = s.inputs
  trace : s.trace <+: t.trace
  mfe : i ≠ .init → t.mfe = s.mfe
  tpr : i ≠ .init → t.tpr = s.tpr
  tflags : (∀ v, i ≠ .decodeTemp v) → t.tflags = s.tflags
  hi : (∀ r, i ≠ .readReg r) → t.hi = s.hi
  lo : (∀ r, i ≠ .readReg r) → t.lo = s.lo
  val : (∀ r v, i ≠ .writeReg16 r v) → t.val = s.val
  rega : (∀ r, i ≠ .readReg r) → (∀ r v, i ≠ .writeReg16 r v) → t.rega = s.rega
  seq : (∀ r, i ≠ .readReg r) → (∀ r v, i ≠ .writeReg16 r v) → t.seq = s.seq
  mdrTx : (∀ d c, i ≠ .sendByte d c) → (∀ r, i ≠ .readReg r) → (∀ r v, i ≠ .writeReg16 r v) →
    t.mdrTx = s.mdrTx
  address : (∀ a, i ≠ .setAddr a) → msaAddr t.msa = msaAddr s.msa
  addrSet : (∀ a, i ≠ .setAddr a) → t.addrSet = s.addrSet
  direction : (∀ d, i ≠ .setDir d) → (∀ r, i ≠ .readReg r) → (∀ r v, i ≠ .writeReg16 r v) →
    msaRead t.msa = msaRead s.msa

section
variable {i : Instr} {s t u : State}

theorem Writes.refl (i : Instr) (s : State) : Writes i s s := by
  constructor <;> simp

theorem Writes.trans (h : Writes i s t) (h' : Writes i t u) : Writes i s u where
  inputs := h'.inputs.trans h.inputs
  trace := h.trace.trans h'.trace
  mfe hi := (h'.mfe hi).trans (h.mfe hi)
  tpr hi := (h'.tpr hi).trans (h.tpr hi)
  tflags hi := (h'.tflags hi).trans (h.tflags hi)
  hi hr := (h'.hi hr).trans (h.hi hr)
  lo hr := (h'.lo hr).trans (h.lo hr)
  val hw := (h'.val hw).trans (h.val hw)
  rega hr hw := (h'.rega hr hw).trans (h.rega hr hw)
  seq hr hw := (h'.seq hr hw).trans (h.seq hr hw)
  mdrTx hs hr hw := (h'.mdrTx hs hr hw).trans (h.mdrTx hs hr hw)
  address hi := (h'.address hi).trans (h.address hi)
  addrSet hi := (h'.addrSet hi).trans (h.addrSet hi)
  direction hd hr hw := (h'.direction hd hr hw).trans (h.direction hd hr hw)

/-! ### What every instruction may write: the engine's state and the port's -/

theorem trace_prefix_engine (c : Ctl) (s : State) : s.trace <+: (engine c s).trace :=
  EngineRel.engine (R := fun s t => s.trace <+: t.trace)
    { refl := fun _ => List.prefix_rfl
      trans := List.IsPrefix.trans
      ctl := fun _ _ => List.prefix_rfl
      symbolEnd := fun _ _ _ _ => by simp [symbolEnd]
      symbolStall := fun _ _ _ => by simp [symbolStall]
      startByteOp := fun _ => List.prefix_rfl
      startStopOp := fun _ => List.prefix_rfl
      latchDirection := fun _ => List.prefix_rfl
      addressNack := fun _ => List.prefix_rfl
      dataNack := fun _ => List.prefix_rfl
      arbitrationLost := fun _ => List.prefix_rfl
      mdrRx := fun _ _ => List.prefix_rfl
      stopped := fun _ => List.prefix_rfl
      held := fun _ => List.prefix_rfl } c s

theorem Writes.of_sameBesidesEngine (i : Instr) (h : sameBesidesEngine s t)
    (htrace : s.trace <+: t.trace) : Writes i s t := by
  rw [sameBesidesEngine] at h
  rw [h]
  constructor <;> simp [htrace]

theorem Writes.engine (i : Instr) (c : Ctl) (s : State) : Writes i s (engine c s) :=
  .of_sameBesidesEngine i (engine_frame c s) (trace_prefix_engine c s)

theorem writes_keptByEngine (i : Instr) (s : State) :
    KeptByEngine Machine.engine (Writes i s) (Writes i s) where
  ended c t ht _ _ := ht.trans (.engine i c t)
  stalled c t ht _ _ := ht.trans (.engine i c t)

theorem Writes.port (i : Instr) (s : State) (executing rspValid : Bool) (rsp : Word) :
    Writes i s { s with executing, rspValid, rsp } := by
  constructor <;> simp

/-- A command writes what its body writes, and the port's registers. -/
theorem Writes.command {ok : State → Bool} {body : State → Run Response}
    (h : command ok body s = .next t)
    (hbody : Writes i s s.accept → (body s.accept).Leaves (Writes i s) (Writes i s)) :
    Writes i s t :=
  command_keeps h (.refl i s) (fun _ => .port i s ..) fun _ _ =>
    (hbody (.port i s ..)).mono fun u hu _ => hu.trans (.port i u ..)

/-! ### What the sequences may write -/

/-- The registers that READ_REG and WRITE_REG16 both write; of `MSA` only the direction bit (R132,
R133). -/
theorem Writes.sequence (hi : (∀ r, i ≠ .readReg r) → ¬ ∀ r v, i ≠ .writeReg16 r v) (s : State)
    {msa : Byte} (hmsa : msaAddr msa = msaAddr s.msa) (mdrTx rega : Byte) (seq : SeqState) :
    Writes i s { s with msa, mdrTx, rega, seq } where
  inputs := rfl
  trace := List.prefix_rfl
  mfe _ := rfl
  tpr _ := rfl
  tflags _ := rfl
  hi _ := rfl
  lo _ := rfl
  val _ := rfl
  rega hr hw := absurd hw (hi hr)
  seq hr hw := absurd hw (hi hr)
  mdrTx _ hr hw := absurd hw (hi hr)
  address _ := hmsa
  addrSet _ := rfl
  direction _ hr hw := absurd hw (hi hr)

theorem writes_keptBySequence (hi : (∀ r, i ≠ .readReg r) → ¬ ∀ r v, i ≠ .writeReg16 r v)
    (s : State) : KeptBySequence Machine.engine (Writes i s) (Writes i s) where
  toKeptByEngine := writes_keptByEngine i s
  writeMdr _ t ht := ht.trans (.sequence hi t rfl ..)
  setSeq _ t ht := ht.trans (.sequence hi t rfl ..)
  dirOp d t ht := by
    rw [dirOp_eq]
    exact ht.trans (.sequence hi t (mergeDir_fields t.msa d).1 ..)

/-! ### Every instruction -/

theorem exec_writes (h : exec i s = .next t) : Writes i s t := by
  cases i using Instr.commandOrControl with
  | init =>
    rw [exec, execInit] at h
    refine Writes.command h fun hacc => hacc.trans ?_
    rw [initOp_eq]
    constructor <;> simp
  | setDir d =>
    rw [exec, execSetDir] at h
    refine Writes.command h fun hacc => hacc.trans ?_
    rw [dirOp_eq]
    constructor <;> simp [mergeDir_fields]
  | setAddr a =>
    rw [exec, execSetAddr] at h
    refine Writes.command h fun hacc => hacc.trans ?_
    rw [addrOp_eq]
    constructor <;> simp [mergeAddr_fields]
  | decodeTemp v =>
    rw [exec, execDecodeTemp] at h
    refine Writes.command h fun hacc => hacc.trans ?_
    constructor <;> simp
  | sendByte d c =>
    rw [exec, execSendByte] at h
    have hmdr (v : Word) (u : State) : Writes (.sendByte d c) u (u.writeMdr v) := by
      constructor <;> simp [State.writeMdr]
    exact Writes.command h fun hacc => (sendOp_leaves (writes_keptByEngine _ s)
      (fun v u hu => hu.trans (hmdr v u)) d c hacc).bind fun _ _ hu => hu
  | recvByte c =>
    rw [exec, execRecvByte] at h
    exact Writes.command h fun hacc =>
      (recvOp_leaves (writes_keptByEngine _ s) c hacc).bind fun _ _ hu => hu
  | readReg r =>
    rw [exec, execReadReg] at h
    have hbytes (hi lo : Byte) (u : State) : Writes (.readReg r) u { u with hi, lo } := by
      constructor <;> simp
    have hread : (∀ r', Instr.readReg r ≠ .readReg r') → ¬ ∀ r' v, Instr.readReg r ≠ .writeReg16 r' v :=
      fun hr _ => hr r rfl
    exact Writes.command h fun hacc => (readRegOp_leaves (writes_keptBySequence hread s)
      (fun u hu => hu.trans (.sequence hread u rfl ..)) (fun b u hu => hu.trans (hbytes b u.lo u))
      (fun b u hu => hu.trans (hbytes u.hi b u)) hacc).bind fun _ _ hu => hu.1
  | writeReg16 r v =>
    rw [exec, execWriteReg16] at h
    have hoperands (u : State) : Writes (.writeReg16 r v) u { u with rega := r, val := v } := by
      constructor <;> simp
    have hwrite : (∀ r', Instr.writeReg16 r v ≠ .readReg r') →
        ¬ ∀ r' v', Instr.writeReg16 r v ≠ .writeReg16 r' v' := fun _ hw => hw r v rfl
    exact Writes.command h fun hacc => (writeRegOp_leaves (writes_keptBySequence hwrite s)
      (fun u hu => hu.trans (hoperands u)) hacc).bind fun _ _ hu => hu.1
  | control i c hc =>
    rw [exec_control hc, controlStep_eq] at h
    split at h
    · cases h
    · cases h
      exact .engine i c s

/-! ### The commands that use no bus, and the control words -/

/-- Everything but what INIT, SET_DIR, SET_ADDR and DECODE_TEMP write (R120 to R122, R134). -/
def sameBesidesLocal (s t : State) : Prop :=
  t = { s with msa := t.msa, mfe := t.mfe, tpr := t.tpr, tflags := t.tflags, addrSet := t.addrSet,
               executing := t.executing, rsp := t.rsp, rspValid := t.rspValid }

theorem sameBesidesLocal_command {ok : State → Bool} {body : State → Run Response}
    (h : command ok body s = .next t)
    (hbody : (body s.accept).Leaves (sameBesidesLocal s) (sameBesidesLocal s)) :
    sameBesidesLocal s t :=
  command_keeps h rfl (fun _ => rfl) fun _ _ =>
    hbody.mono fun _ hu r => congrArg (State.respond r) hu

theorem exec_local_frame (hbus : isBusCommand i = false) (hcmd : isCommand i = true)
    (h : exec i s = .next t) : sameBesidesLocal s t := by
  cases i using Instr.commandOrControl with
  | init => rw [exec, execInit] at h; exact sameBesidesLocal_command h rfl
  | setDir d => rw [exec, execSetDir] at h; exact sameBesidesLocal_command h rfl
  | setAddr a => rw [exec, execSetAddr] at h; exact sameBesidesLocal_command h rfl
  | decodeTemp v => rw [exec, execDecodeTemp] at h; exact sameBesidesLocal_command h rfl
  | sendByte d c => cases hbus
  | recvByte c => cases hbus
  | readReg r => cases hbus
  | writeReg16 r v => cases hbus
  | control i c hc => simp [isCommand_of_control hc] at hcmd

theorem exec_control_frame (hctl : isCommand i = false) (h : exec i s = .next t) :
    sameBesidesEngine s t := by
  obtain ⟨c, hc⟩ : ∃ c, controlWordOf i = some c := by
    simpa [isCommand, Option.isSome_iff_exists] using hctl
  rw [exec_control hc, controlStep_eq] at h
  split at h
  · cases h
  · cases h
    exact engine_frame c s

end

/-- Settles O54: the registers by `exec_writes`, the two frames by the kind of instruction. -/
theorem whoWritesWhat : Obligations.WhoWritesWhat := by
  intro i s t h
  have hw : Writes i s t := exec_writes h
  obtain ⟨es, htrace⟩ := hw.trace
  refine ⟨hw.inputs, ⟨es, htrace.symm⟩, fun hi => ⟨hw.mfe hi, hw.tpr hi⟩, hw.tflags,
    fun hr => ⟨hw.hi hr, hw.lo hr⟩, hw.val, fun hr hw' => ⟨hw.rega hr hw', hw.seq hr hw'⟩, hw.mdrTx,
    fun ha => ⟨hw.address ha, hw.addrSet ha⟩, hw.direction, fun hbus hcmd => ?_,
    fun hctl => exec_control_frame hctl h⟩
  have hlocal := exec_local_frame hbus hcmd h
  rw [sameBesidesLocal] at hlocal
  rw [hlocal]
  exact ⟨rfl, rfl, rfl, rfl, rfl, rfl, rfl, rfl⟩

end Sys2Proof.Machine
end

