-- ==== Sys2Proof/Proofs/SymbolLevel.lean ====
section
/-! PROOFS. The engine on the lines, seen at the symbol level (spec/20_memory.md R57). Two states with the
same symbol view differ in their line-level part alone. Every piece of an operation takes two such states to
results with the same view, whichever of the two kinds of bus symbols it is made of, and so does every unit
above the engine. -/

namespace Sys2Proof.Machine

/-! ### What two states with the same symbol view share -/

theorem State.asked_symbolView (σ : Symbol) (s : State) :
    (s.asked σ).symbolView = s.symbolView.asked σ := by
  unfold State.asked
  cases hs : s.slave with
  | unknown => simp only [State.symbolView, hs]
  | sensor r => simp only [State.symbolView, hs]
  | scripted ws => cases ws <;> simp only [State.symbolView, hs]

section
variable {s t : State}

theorem wave_eq_of_view (h : s.symbolView = t.symbolView) (σ : Symbol) : s.wave σ = t.wave σ :=
  (congrArg (State.wave σ) h :)

theorem msa_eq_of_view (h : s.symbolView = t.symbolView) : s.msa = t.msa :=
  (congrArg State.msa h :)

theorem own_eq_of_view (h : s.symbolView = t.symbolView) : s.own = t.own :=
  (congrArg State.own h :)

theorem busy_eq_of_view (h : s.symbolView = t.symbolView) : s.busy = t.busy :=
  (congrArg State.busy h :)

theorem asked_view (h : s.symbolView = t.symbolView) (σ : Symbol) :
    (s.asked σ).symbolView = (t.asked σ).symbolView := by
  rw [State.asked_symbolView, State.asked_symbolView, h]

theorem emit_asked_view (h : s.symbolView = t.symbolView) (σ : Symbol) (e : BusEvent) :
    (State.emit e (s.asked σ)).symbolView = (State.emit e (t.asked σ)).symbolView :=
  congrArg (State.emit e) (asked_view h σ)

/-! Each update of an operation writes the same beside the lines, whatever the lines are. -/

theorem startByteOp_view (h : s.symbolView = t.symbolView) :
    s.startByteOp.symbolView = t.startByteOp.symbolView :=
  congrArg (fun u => { u with busy := true, error := false, adrack := false, datack := false }) h

theorem startStopOp_view (h : s.symbolView = t.symbolView) :
    s.startStopOp.symbolView = t.startStopOp.symbolView :=
  congrArg (fun u => { u with busy := true }) h

theorem arbitrationLost_view (h : s.symbolView = t.symbolView) :
    s.arbitrationLost.symbolView = t.arbitrationLost.symbolView :=
  congrArg (fun u => { u with own := .idle, error := true, busy := false }) h

theorem held_view (h : s.symbolView = t.symbolView) : s.held.symbolView = t.held.symbolView :=
  congrArg (fun u => { u with busy := false }) h

theorem setSeq_view {q : SeqState} (h : s.symbolView = t.symbolView) :
    (s.setSeq q).symbolView = (t.setSeq q).symbolView := congrArg (State.setSeq q) h

theorem dirOp_view (d : Bool) (h : s.symbolView = t.symbolView) :
    (dirOp d s).symbolView = (dirOp d t).symbolView := by
  rw [dirOp_eq, dirOp_eq, msa_eq_of_view h]
  exact congrArg (fun u => { u with msa := mergeDir t.msa d }) h

end

/-! ### Results of an operation, seen at the symbol level -/

/-- The symbol view of the result of a piece of an engine operation. -/
def viewRes {α : Type} : Res State α → Res State α
  | .done a s => .done a s.symbolView
  | .stall s => .stall s.symbolView

section
variable {α β : Type}

theorem viewRes_done {a : α} {s t : State} (h : s.symbolView = t.symbolView) :
    viewRes (.done a s) = viewRes (.done a t) := congrArg (Res.done a) h

theorem viewRes_stall {s t : State} (h : s.symbolView = t.symbolView) :
    viewRes (.stall s : Res State α) = viewRes (.stall t) := congrArg Res.stall h

/-- Two results with the same view both ended, with the same answer, or both stalled. -/
theorem viewRes_cases {m m' : Res State α} (h : viewRes m = viewRes m') :
    (∃ a s t, m = .done a s ∧ m' = .done a t ∧ s.symbolView = t.symbolView) ∨
    (∃ s t, m = .stall s ∧ m' = .stall t ∧ s.symbolView = t.symbolView) := by
  cases m with
  | done a s => cases m' with
    | done b t =>
      obtain ⟨rfl, hst⟩ := Res.done.inj h
      exact .inl ⟨a, s, t, rfl, rfl, hst⟩
    | stall t => nomatch h
  | stall s => cases m' with
    | done b t => nomatch h
    | stall t => exact .inr ⟨s, t, rfl, rfl, Res.stall.inj h⟩

theorem viewRes_state {m m' : Res State α} (h : viewRes m = viewRes m') :
    m.state.symbolView = m'.state.symbolView := by
  rcases viewRes_cases h with ⟨a, s, t, rfl, rfl, hst⟩ | ⟨s, t, rfl, rfl, hst⟩
  · exact hst
  · exact hst

theorem viewRes_bind {m m' : Res State α} {k k' : α → State → Res State β}
    (hm : viewRes m = viewRes m')
    (hk : ∀ a s t, s.symbolView = t.symbolView → viewRes (k a s) = viewRes (k' a t)) :
    viewRes (m.bind k) = viewRes (m'.bind k') := by
  rcases viewRes_cases hm with ⟨a, s, t, rfl, rfl, hst⟩ | ⟨s, t, rfl, rfl, hst⟩
  · exact hk a s t hst
  · exact viewRes_stall hst

end

/-! ### The bus symbols (spec/40_engine.md R107 to R111) -/

/-- Two kinds of bus symbols that take states with the same view to results with the same view. -/
structure Symbols.SameView (P Q : Symbols) : Prop where
  start : ∀ {s t}, s.symbolView = t.symbolView → viewRes (P.start s) = viewRes (Q.start t)
  repStart : ∀ {s t}, s.symbolView = t.symbolView → viewRes (P.repStart s) = viewRes (Q.repStart t)
  stop : ∀ {s t}, s.symbolView = t.symbolView → viewRes (P.stop s) = viewRes (Q.stop t)
  tx : ∀ v {s t}, s.symbolView = t.symbolView → viewRes (P.tx v s) = viewRes (Q.tx v t)
  rx : ∀ a {s t}, s.symbolView = t.symbolView → viewRes (P.rx a s) = viewRes (Q.rx a t)

section
variable {s t : State}

/-- A condition, whatever the lines are left at: it ends exactly when the slave lets it proceed. -/
theorem condition_view (σ : Symbol) (e : BusEvent) (l l' : Line)
    (h : s.symbolView = t.symbolView) :
    viewRes (if (s.wave σ).proceeds then .done () (symbolEnd σ e l s)
      else .stall (symbolStall σ l' s)) = viewRes (symbolCond σ e t) := by
  rw [symbolCond, wave_eq_of_view h]
  split
  · exact viewRes_done (emit_asked_view h σ e)
  · exact viewRes_stall (asked_view h σ)

theorem lineSymbols_tx_view (v : Byte) (h : s.symbolView = t.symbolView) :
    viewRes (lineSymbols.tx v s) = viewRes (oracleSymbols.tx v t) := by
  rcases lineSymbols_tx v s with ⟨a, l, hend, hwave, -⟩ | ⟨l, hstall, hwave, -⟩
  · rw [wave_eq_of_view h] at hwave
    simp only [hend, oracleSymbols, hwave]
    exact viewRes_done (emit_asked_view h _ _)
  · rw [wave_eq_of_view h] at hwave
    simp only [hstall, oracleSymbols, hwave]
    exact viewRes_stall (asked_view h _)

theorem lineSymbols_rx_view (a : Bool) (h : s.symbolView = t.symbolView) :
    viewRes (lineSymbols.rx a s) = viewRes (oracleSymbols.rx a t) := by
  rcases lineSymbols_rx a s with ⟨v, l, hend, hwave, -⟩ | ⟨l, hstall, hwave, -⟩
  · rw [wave_eq_of_view h] at hwave
    simp only [hend, oracleSymbols, hwave]
    exact viewRes_done (emit_asked_view h _ _)
  · rw [wave_eq_of_view h] at hwave
    simp only [hstall, oracleSymbols, hwave]
    exact viewRes_stall (asked_view h _)

end

/-- R57 for each symbol: the wave's answers are all that a symbol takes from the lines. -/
theorem lineSymbols_oracleSymbols_sameView : Symbols.SameView lineSymbols oracleSymbols where
  start {s t} h := by rw [lineSymbols_start]; exact condition_view .start .start _ _ h
  repStart {s t} h := by rw [lineSymbols_repStart]; exact condition_view .repStart .repStart _ _ h
  stop {s t} h := by rw [lineSymbols_stop]; exact condition_view .stop .stop _ _ h
  tx v _ _ h := lineSymbols_tx_view v h
  rx a _ _ h := lineSymbols_rx_view a h

/-! ### The phases of an operation (spec/40_engine.md R86 to R90) -/

namespace Symbols.SameView

variable {P Q : Symbols} (hPQ : P.SameView Q) {s t : State}

include hPQ

theorem addressPhase (h : s.symbolView = t.symbolView) :
    viewRes (addressPhase P s) = viewRes (addressPhase Q t) := by
  refine viewRes_bind ?_ fun _ s t h => ?_
  · rw [own_eq_of_view h]
    split
    · exact hPQ.start h
    · exact hPQ.repStart h
  · rw [msa_eq_of_view h]
    refine viewRes_bind (hPQ.tx t.msa (congrArg State.latchDirection h)) fun a s t h => ?_
    cases a with
    | ack => exact viewRes_done h
    | nack => exact viewRes_done (congrArg State.addressNack h)
    | lost => exact viewRes_done (arbitrationLost_view h)

theorem transmitPhase (h : s.symbolView = t.symbolView) :
    viewRes (transmitPhase P s) = viewRes (transmitPhase Q t) := by
  have hbyte : s.mdrTx = t.mdrTx := (congrArg State.mdrTx h :)
  rw [Machine.transmitPhase, hbyte]
  refine viewRes_bind (hPQ.tx t.mdrTx h) fun a s t h => ?_
  cases a with
  | ack => exact viewRes_done h
  | nack => exact viewRes_done (congrArg State.dataNack h)
  | lost => exact viewRes_done (arbitrationLost_view h)

theorem receivePhase (c : Ctl) (h : s.symbolView = t.symbolView) :
    viewRes (receivePhase P c s) = viewRes (receivePhase Q c t) :=
  viewRes_bind (hPQ.rx _ h) fun v _ _ h =>
    viewRes_done (congrArg (fun u => { u with mdrRx := v }) h)

theorem dataPhase (c : Ctl) (h : s.symbolView = t.symbolView) :
    viewRes (dataPhase P c s) = viewRes (dataPhase Q c t) := by
  rw [Machine.dataPhase, Machine.dataPhase, own_eq_of_view h]
  split
  · exact hPQ.receivePhase c h
  · exact hPQ.transmitPhase h

theorem finishPhase (c : Ctl) (h : s.symbolView = t.symbolView) :
    viewRes (finishPhase P c s) = viewRes (finishPhase Q c t) := by
  rw [Machine.finishPhase, Machine.finishPhase]
  split
  · exact viewRes_bind (hPQ.stop h) fun _ _ _ h => viewRes_done (congrArg State.stopped h)
  · exact viewRes_done (held_view h)

theorem byteOperation (c : Ctl) (h : s.symbolView = t.symbolView) :
    viewRes (byteOperation P c s) = viewRes (byteOperation Q c t) := by
  refine viewRes_bind ?_ fun a s t h => ?_
  · split
    · exact hPQ.addressPhase h
    · exact viewRes_done h
  · cases a with
    | lost => exact viewRes_done h
    | nack => exact hPQ.finishPhase c h
    | ack =>
      refine viewRes_bind (hPQ.dataPhase c h) fun a s t h => ?_
      cases a with
      | lost => exact viewRes_done h
      | nack => exact hPQ.finishPhase c h
      | ack => exact hPQ.finishPhase c h

theorem stopOperation (h : s.symbolView = t.symbolView) :
    viewRes (stopOperation P s) = viewRes (stopOperation Q t) :=
  viewRes_bind (hPQ.stop h) fun _ _ _ h => viewRes_done (congrArg State.stopped h)

end Symbols.SameView

/-- Two engines that take states with the same view to states with the same view. -/
def Engine.SameView (eng eng' : Engine) : Prop :=
  ∀ c {s t}, s.symbolView = t.symbolView → (eng c s).symbolView = (eng' c t).symbolView

theorem Symbols.SameView.engineWith {P Q : Symbols} (hPQ : P.SameView Q) :
    Engine.SameView (engineWith P) (engineWith Q) := by
  intro c s t h
  replace h : ({ s with ctl := c } : State).symbolView = ({ t with ctl := c } : State).symbolView :=
    congrArg (fun u => { u with ctl := c }) h
  unfold Machine.engineWith
  generalize ({ s with ctl := c } : State) = s, ({ t with ctl := c } : State) = t at h ⊢
  have hmfe : s.mfe = t.mfe := (congrArg State.mfe h :)
  dsimp only
  rw [hmfe, own_eq_of_view h]
  split
  · exact h
  split
  · exact h
  split
  · exact h
  split
  · exact viewRes_state (hPQ.stopOperation (startStopOp_view h))
  · exact viewRes_state (hPQ.byteOperation c (startByteOp_view h))

theorem engine_symbolEngine_sameView : Engine.SameView engine symbolEngine :=
  lineSymbols_oracleSymbols_sameView.engineWith

/-- Settles O56: phase by phase, from the symbols up. -/
theorem lineLevelRefinesSymbolLevel : Obligations.LineLevelRefinesSymbolLevel :=
  fun c _ => engine_symbolEngine_sameView c rfl

/-! ### The units above the engine (spec/41_byte_transfer.md R123 to R127, spec/42_sequencer.md R132,
R133) -/

section
variable {α β : Type}

theorem viewRun_done {a : α} {s t : State} (h : s.symbolView = t.symbolView) :
    viewRun (.done a s) = viewRun (.done a t) := congrArg (Run.done a) h

theorem viewRun_hang {s t : State} (h : s.symbolView = t.symbolView) :
    viewRun (.hang s : Run α) = viewRun (.hang t) := congrArg Run.hang h

/-- Two runs with the same view both ended, with the same answer, both hang, or are both undefined. -/
theorem viewRun_cases {m m' : Run α} (h : viewRun m = viewRun m') :
    (∃ a s t, m = .done a s ∧ m' = .done a t ∧ s.symbolView = t.symbolView) ∨
    (∃ s t, m = .hang s ∧ m' = .hang t ∧ s.symbolView = t.symbolView) ∨
    (∃ r, m = .undef r ∧ m' = .undef r) := by
  cases m with
  | done a s => cases m' with
    | done b t =>
      obtain ⟨rfl, hst⟩ := Run.done.inj h
      exact .inl ⟨a, s, t, rfl, rfl, hst⟩
    | hang t => nomatch h
    | undef r => nomatch h
  | hang s => cases m' with
    | done b t => nomatch h
    | hang t => exact .inr (.inl ⟨s, t, rfl, rfl, Run.hang.inj h⟩)
    | undef r => nomatch h
  | undef r => cases m' with
    | done b t => nomatch h
    | hang t => nomatch h
    | undef r' => exact .inr (.inr ⟨r, rfl, congrArg Run.undef (Run.undef.inj h).symm⟩)

theorem viewRun_bind {m m' : Run α} {k k' : α → State → Run β} (hm : viewRun m = viewRun m')
    (hk : ∀ a s t, s.symbolView = t.symbolView → viewRun (k a s) = viewRun (k' a t)) :
    viewRun (m.bind k) = viewRun (m'.bind k') := by
  rcases viewRun_cases hm with
    ⟨a, s, t, rfl, rfl, hst⟩ | ⟨s, t, rfl, rfl, hst⟩ | ⟨r, rfl, rfl⟩
  · exact hk a s t hst
  · exact viewRun_hang hst
  · rfl

theorem viewRun_seqStep {m m' : Run (Xfer α)} {k k' : α → State → Run (Xfer β)}
    (hm : viewRun m = viewRun m')
    (hk : ∀ a s t, s.symbolView = t.symbolView → viewRun (k a s) = viewRun (k' a t)) :
    viewRun (seqStep m k) = viewRun (seqStep m' k') := by
  refine viewRun_bind hm fun x s t h => ?_
  cases x with
  | ok a => exact hk a s t h
  | err f => exact viewRun_done (setSeq_view h)

theorem readRegEnd_view {s t : State} (h : s.symbolView = t.symbolView) :
    viewRun (readRegEnd s) = viewRun (readRegEnd t) := by
  have hhi : s.hi = t.hi := (congrArg State.hi h :)
  have hlo : s.lo = t.lo := (congrArg State.lo h :)
  rw [readRegEnd, readRegEnd, hhi, hlo]
  exact viewRun_done (setSeq_view h)

theorem waitNotBusy_view {s t : State} (h : s.symbolView = t.symbolView) :
    viewRun (waitNotBusy s) = viewRun (waitNotBusy t) := by
  rw [waitNotBusy_eq, waitNotBusy_eq, busy_eq_of_view h]
  split
  · exact viewRun_hang h
  · exact viewRun_done h

end

namespace Engine.SameView

variable {eng eng' : Engine} (he : eng.SameView eng') {α : Type} {s t : State}

include he

theorem controlWrite (v : Word) (h : s.symbolView = t.symbolView) :
    viewRun (memWrite eng .mcs v s) = viewRun (memWrite eng' .mcs v t) := by
  rw [memWrite_mcs, memWrite_mcs, busy_eq_of_view h]
  split
  · rfl
  · exact viewRun_done (he _ h)

theorem raiseBusError (f : BitVec 3) (h : s.symbolView = t.symbolView) :
    viewRun (raiseBusError eng f s : Run (Xfer α)) = viewRun (raiseBusError eng' f t) :=
  viewRun_bind (viewRun_bind (he.controlWrite 0x4 h) fun _ _ _ => waitNotBusy_view)
    fun _ _ _ => viewRun_done

theorem errorTest {k k' : State → Run (Xfer α)}
    (hk : ∀ s t, s.symbolView = t.symbolView → viewRun (k s) = viewRun (k' t))
    (h : s.symbolView = t.symbolView) :
    viewRun (errorTest eng k s) = viewRun (errorTest eng' k' t) := by
  have hflags : s.errors = t.errors := (congrArg State.errors h :)
  simp only [Machine.errorTest, memRead_mcs, statusErrors_statusWord, hflags]
  split
  · exact hk s t h
  · exact he.raiseBusError _ h

theorem transfer (c : Ctl) {k k' : State → Run (Xfer α)}
    (hk : ∀ s t, s.symbolView = t.symbolView → viewRun (k s) = viewRun (k' t))
    (h : s.symbolView = t.symbolView) :
    viewRun (transfer eng c k s) = viewRun (transfer eng' c k' t) :=
  viewRun_bind (he.controlWrite _ h) fun _ _ _ h =>
    viewRun_bind (waitNotBusy_view h) fun _ _ _ => he.errorTest hk

theorem sendOp (d : Byte) (c : Ctl) (h : s.symbolView = t.symbolView) :
    viewRun (sendOp eng d c s) = viewRun (sendOp eng' d c t) :=
  he.transfer c (fun _ _ => viewRun_done) (congrArg (State.writeMdr (d.setWidth 32)) h)

theorem recvOp (c : Ctl) (h : s.symbolView = t.symbolView) :
    viewRun (recvOp eng c s) = viewRun (recvOp eng' c t) := by
  refine he.transfer c (fun s t h => ?_) h
  have hbyte : s.mdrRx = t.mdrRx := (congrArg State.mdrRx h :)
  rw [memRead_mdr, memRead_mdr, hbyte]
  exact viewRun_done h

theorem readRegOp (r : Byte) (h : s.symbolView = t.symbolView) :
    viewRun (readRegOp eng r s) = viewRun (readRegOp eng' r t) := by
  refine viewRun_seqStep (he.sendOp r 0x3
    (dirOp_view false (congrArg (fun u => { u with rega := r }) h))) fun _ s t h => ?_
  refine viewRun_seqStep (he.recvOp 0xB
    (setSeq_view (dirOp_view true (setSeq_view h)))) fun hi s t h => ?_
  refine viewRun_seqStep (he.recvOp 0x5 (congrArg
    (fun u => { u.setSeq .msbReceived with hi := hi }) h)) fun lo s t h => ?_
  exact readRegEnd_view (setSeq_view (congrArg (fun u => { u with lo := lo }) h))

theorem writeRegOp (r : Byte) (v : Half) (h : s.symbolView = t.symbolView) :
    viewRun (writeRegOp eng r v s) = viewRun (writeRegOp eng' r v t) := by
  refine viewRun_seqStep (he.sendOp r 0x3
    (dirOp_view false (congrArg (fun u => { u with rega := r, val := v }) h))) fun _ s t h => ?_
  have hval : s.val = t.val := (congrArg State.val h :)
  rw [writeRegMsb, hval]
  refine viewRun_seqStep (he.sendOp (hiByte t.val) 0x1
    (setSeq_view h)) fun _ s t h => ?_
  have hval : s.val = t.val := (congrArg State.val h :)
  rw [writeRegLsb, hval]
  exact viewRun_seqStep (he.sendOp (loByte t.val) 0x5 (setSeq_view h))
    fun _ s t h => viewRun_done (setSeq_view (setSeq_view h))

end Engine.SameView

/-- Settles O57: the units read nothing of the lines, and the two engines agree but for them. -/
theorem sequencesNeedOnlySymbols : Obligations.SequencesNeedOnlySymbols :=
  fun r v _ => ⟨engine_symbolEngine_sameView.readRegOp r rfl,
    engine_symbolEngine_sameView.writeRegOp r v rfl⟩

end Sys2Proof.Machine
end

