-- ==== Sys2Proof/Proofs/Arbitration.lean ====
section
/-! PROOFS. Which transmitted bytes can lose arbitration (spec/20_memory.md R55 to R57, spec/40_engine.md
R107, R115): each fact by induction on the data cells that are left. -/

namespace Sys2Proof.Machine

/-- One data cell of a transmitted byte that does not stall: it is lost exactly when it carries a 1 and meets
an SDA held low; otherwise the next cell follows (R107). -/
theorem Wave.txCells_succ_eq_lost {n : Nat} {v : Byte} {w : Wave} :
    Wave.txCells (n + 1) v w = some .lost ↔
      w.now.stretch.isNone = false ∧
        ((v.msb = true ∧ w.now.sda = false) ∨ Wave.txCells n (v <<< 1) w.tail = some .lost) := by
  rw [Wave.txCells]
  cases w.now.stretch.isNone <;> cases v.msb <;> cases w.now.sda <;> simp

theorem Wave.txCells_zero_ne_lost (v : Byte) (w : Wave) : Wave.txCells 0 v w ≠ some .lost := by
  rw [Wave.txCells]
  split
  · simp
  · split <;> simp

theorem Wave.txCells_zeros_ne_lost (n : Nat) (w : Wave) : Wave.txCells n 0 w ≠ some .lost := by
  induction n generalizing w with
  | zero => exact Wave.txCells_zero_ne_lost 0 w
  | succ n ih =>
    rw [Ne, Wave.txCells_succ_eq_lost]
    rintro ⟨-, ⟨hmsb, -⟩ | hrest⟩
    · exact absurd hmsb (by decide)
    · exact ih w.tail hrest

/-- A slave that holds SDA low in every cell wins in the first cell that carries a 1. -/
theorem Wave.txCells_low_eq_lost {n : Nat} {v : Byte} {m k : Nat} (hnm : n ≤ m) (hk : k < n)
    (hbit : v.getMsbD k = true) :
    Wave.txCells n v (List.replicate m Pulse.low) = some .lost := by
  induction n generalizing v m k with
  | zero => omega
  | succ n ih =>
    obtain ⟨m, rfl⟩ : ∃ m', m = m' + 1 := ⟨m - 1, by omega⟩
    rw [Wave.txCells_succ_eq_lost]
    refine ⟨rfl, ?_⟩
    cases k with
    | zero => exact .inl ⟨by rwa [BitVec.msb], rfl⟩
    | succ k =>
      exact .inr (ih (by omega) (by omega) ((BitVec.getMsbD_shiftLeft ..).trans hbit))

/-- A lost byte was lost in a data cell that carried a 1, where the slave held SDA low. -/
theorem Wave.exists_low_of_txCells_eq_lost {n : Nat} {v : Byte} {w : Wave}
    (h : Wave.txCells n v w = some .lost) :
    ∃ k < n, v.getMsbD k = true ∧ ∃ p, w[k]? = some p ∧ p.sda = false := by
  induction n generalizing v w with
  | zero => exact absurd h (Wave.txCells_zero_ne_lost v w)
  | succ n ih =>
    obtain ⟨-, ⟨hmsb, hsda⟩ | hrest⟩ := Wave.txCells_succ_eq_lost.mp h
    · cases w with
      | nil => cases hsda
      | cons p w => exact ⟨0, by omega, hmsb, p, rfl, hsda⟩
    · obtain ⟨k, hk, hbit, p, hp, hsda⟩ := ih hrest
      rw [BitVec.getMsbD_shiftLeft] at hbit
      rw [List.getElem?_tail] at hp
      exact ⟨k + 1, by omega, hbit, p, hp, hsda⟩

/-- A byte that is not 0 carries a 1 in one of its eight cells. -/
theorem exists_getMsbD_of_ne_zero {v : Byte} (hv : v ≠ 0) : ∃ k < 8, v.getMsbD k = true := by
  by_contra! hall
  exact hv (BitVec.eq_of_getMsbD_eq fun k hk => by simpa using hall k hk)

/-- Settles O33: on zeros no cell can lose, and else the first 1 decides. -/
theorem whichBytesCanLose : Obligations.WhichBytesCanLose := by
  refine ⟨Wave.txCells_zeros_ne_lost 8, fun v hv => ?_, fun w v => Wave.exists_low_of_txCells_eq_lost⟩
  obtain ⟨k, hk, hbit⟩ := exists_getMsbD_of_ne_zero hv
  exact Wave.txCells_low_eq_lost (by omega) hk hbit

end Sys2Proof.Machine
end

