-- ==== Sys2Proof/Proofs/SensorRuns.lean ====
section
/-! PROOFS. The sequences against the reference sensor (spec/20_memory.md R58 to R61). What the block does
with the fixture is computed at the symbol level and carried to the engine on the lines (R57). -/

namespace Sys2Proof.Machine

/-! ### The registers of the fixture (R46, R58, R59) -/

/-- A register value is put together again from its two bytes (R46). -/
theorem regValue_hiByte_loByte (v : Half) : regValue (hiByte v) (loByte v) = v := by
  apply BitVec.eq_of_getLsbD_eq
  intro i hi
  by_cases hlow : i < 8
  · simp [regValue, hiByte, loByte, hlow, hi]
  · simp [regValue, hiByte, loByte, hlow, hi, show i - 8 < 8 by omega, show 8 + (i - 8) = i by omega]

/-- A register that takes a write holds what was written (R59). -/
theorem Sensor.reg_setReg {a : Byte} (ha : a = 0x01 ∨ a = 0x02 ∨ a = 0x03) (q : Sensor) (v : Half) :
    (q.setReg a v).reg a = some v := by
  rcases ha with rfl | rfl | rfl <;> rfl

/-- The bytes that a read supplies are those of the selected register (R60). -/
theorem Sensor.supply_of_reg {q : Sensor} {v : Half} (hreg : q.reg q.ptr = some v) :
    ({ q with sel := .rd 0 } : Sensor).supply = hiByte v ∧
      ({ q with sel := .rd 1 } : Sensor).supply = loByte v :=
  ⟨congrArg (fun o => (o.map hiByte).getD 0) hreg, congrArg (fun o => (o.map loByte).getD 0) hreg⟩

/-! ### The symbols against the fixture (R58 to R60) -/

section
variable {s : State} {q : Sensor}

theorem oracleSymbols_start_sensor (h : s.slave = .sensor q) :
    oracleSymbols.start s = .done () { s with
      trace := s.trace ++ [.start], slave := .sensor { q with sel := .await } } := by
  simp [oracleSymbols, symbolCond, State.wave_sensor _ h, State.asked_sensor _ h, Sensor.wave,
    Wave.quiet_proceeds, State.emit, Sensor.after]

theorem oracleSymbols_repStart_sensor (h : s.slave = .sensor q) :
    oracleSymbols.repStart s = .done () { s with
      trace := s.trace ++ [.repStart], slave := .sensor { q with sel := .await } } := by
  simp [oracleSymbols, symbolCond, State.wave_sensor _ h, State.asked_sensor _ h, Sensor.wave,
    Wave.quiet_proceeds, State.emit, Sensor.after]

theorem oracleSymbols_stop_sensor (h : s.slave = .sensor q) :
    oracleSymbols.stop s = .done () { s with
      trace := s.trace ++ [.stop], slave := .sensor { q with sel := .none } } := by
  simp [oracleSymbols, symbolCond, State.wave_sensor _ h, State.asked_sensor _ h, Sensor.wave,
    Wave.quiet_proceeds, State.emit, Sensor.after]

theorem oracleSymbols_tx_sensor {v : Byte} (h : s.slave = .sensor q) (hack : q.acksByte v = true) :
    oracleSymbols.tx v s = .done .ack { s with
      trace := s.trace ++ [.txByte v false], slave := .sensor (q.afterTx v) } := by
  simp [oracleSymbols, State.wave_sensor _ h, State.asked_sensor _ h, Sensor.wave, hack,
    Wave.acks_tx, State.emit, Sensor.after, txEvent]

theorem oracleSymbols_rx_sensor (a : Bool) (h : s.slave = .sensor q) :
    oracleSymbols.rx a s = .done q.supply { s with
      trace := s.trace ++ [.rxByte q.supply a], slave := .sensor q.afterRx } := by
  simp [oracleSymbols, State.wave_sensor _ h, State.asked_sensor _ h, Sensor.wave,
    Wave.supplies_rx, State.emit, Sensor.after]

/-! ### The phases against the fixture -/

/-- The fixture after the address byte, if the control word sends one (R59). -/
def Sensor.addressed (c : Ctl) (s : State) (q : Sensor) : Sensor :=
  if ctlStartBit c then { q with sel := if msaRead s.msa then .rd 0 else .wr 0 } else q

/-- The fixture after the finish (R59). -/
def Sensor.finished (c : Ctl) (q : Sensor) : Sensor :=
  if ctlStopBit c then { q with sel := .none } else q

/-- Its own address the fixture acknowledges, and turns to the direction (R59). -/
theorem addressPhase_sensor (h : s.slave = .sensor q) (haddr : msaAddr s.msa = Config.sensorAddr) :
    addressPhase oracleSymbols s = .done .ack { s with
      own := latched s, trace := s.trace ++ [startEvent s.own, .txByte s.msa false],
      slave := .sensor { q with sel := if msaRead s.msa then .rd 0 else .wr 0 } } := by
  have hstart : (if s.own = .idle then oracleSymbols.start s else oracleSymbols.repStart s) =
      .done () { s with
        trace := s.trace ++ [startEvent s.own], slave := .sensor { q with sel := .await } } := by
    unfold startEvent
    split
    · exact oracleSymbols_start_sensor h
    · exact oracleSymbols_repStart_sensor h
  rw [addressPhase, hstart, Res.bind_done,
    oracleSymbols_tx_sensor rfl (by simp [Sensor.acksByte, haddr])]
  simp [State.latchDirection, latched, Sensor.afterTx, haddr]

/-- Where an operation's data byte begins: the fixture is addressed in the byte's direction. -/
def State.opened (c : Ctl) (q : Sensor) (s : State) : State :=
  { s with own := dataDirection c s, trace := s.trace ++ openingEvents c s,
           slave := .sensor (q.addressed c s) }

theorem opening_sensor (c : Ctl) (h : s.slave = .sensor q) (haddr : msaAddr s.msa = Config.sensorAddr) :
    (if ctlStartBit c then addressPhase oracleSymbols s else .done .ack s) =
      .done .ack (s.opened c q) := by
  unfold State.opened dataDirection openingEvents Sensor.addressed
  split
  · exact addressPhase_sensor h haddr
  · simp [← h]

theorem dataPhase_sensor_sends (c : Ctl) (h : s.slave = .sensor q) (ho : s.own = .tx)
    (hack : q.acksByte s.mdrTx = true) :
    dataPhase oracleSymbols c s = .done .ack { s with
      trace := s.trace ++ [.txByte s.mdrTx false], slave := .sensor (q.afterTx s.mdrTx) } := by
  simp [dataPhase, ho, transmitPhase, oracleSymbols_tx_sensor h hack]

theorem dataPhase_sensor_receives (c : Ctl) (h : s.slave = .sensor q) (ho : s.own = .rx) :
    dataPhase oracleSymbols c s = .done .ack { s with
      mdrRx := q.supply, trace := s.trace ++ [.rxByte q.supply (!ctlAckBit c)],
      slave := .sensor q.afterRx } := by
  simp [dataPhase, ho, receivePhase, oracleSymbols_rx_sensor _ h]

theorem finishPhase_sensor (c : Ctl) (h : s.slave = .sensor q) :
    ∃ l es, finishPhase oracleSymbols c s = .done () { s with
      own := if ctlStopBit c then .idle else s.own, busy := false, line := l, trace := es,
      slave := .sensor (q.finished c) } := by
  unfold finishPhase Sensor.finished
  split
  · rw [oracleSymbols_stop_sensor h]
    exact ⟨_, _, rfl⟩
  · rw [← h]
    exact ⟨_, _, rfl⟩

/-- An operation whose data byte is acknowledged, or received, runs to its finish. -/
theorem byteOperation_sensor {c : Ctl} {t : State} {q' : Sensor} (h : s.slave = .sensor q)
    (haddr : msaAddr s.msa = Config.sensorAddr)
    (hdata : dataPhase oracleSymbols c (s.opened c q) = .done .ack t) (ht : t.slave = .sensor q') :
    ∃ l es, byteOperation oracleSymbols c s = .done () { t with
      own := if ctlStopBit c then .idle else t.own, busy := false, line := l, trace := es,
      slave := .sensor (q'.finished c) } := by
  rw [byteOperation, opening_sensor c h haddr, Res.bind_done]
  dsimp only
  rw [hdata]
  exact finishPhase_sensor c ht

end

/-! ### A control write against the fixture -/

/-- Between operations: the engine is enabled and idle, `MSA` holds the fixture's address, the bus is owned as
`o` says, and the fixture is `q`. -/
structure State.OnSensor (o : Own) (q : Sensor) (s : State) : Prop where
  ended : s.busy = false
  enabled : s.mfe = true
  own : s.own = o
  slave : s.slave = .sensor q
  address : msaAddr s.msa = Config.sensorAddr

theorem State.OnSensor.of_view {o : Own} {q : Sensor} {s t : State}
    (h : s.symbolView = t.symbolView) (ht : t.OnSensor o q) : s.OnSensor o q where
  ended := (busy_eq_of_view h).trans ht.ended
  enabled := (congrArg State.mfe h).trans ht.enabled
  own := (own_eq_of_view h).trans ht.own
  slave := (congrArg State.slave h).trans ht.slave
  address := (congrArg msaAddr (msa_eq_of_view h)).trans ht.address

section
variable {c : Ctl} {o : Own} {q : Sensor} {s : State} (hs : s.OnSensor o q)
  (hrun : ctlRunBit c = true) (hopen : ctlStartBit c = true ∨ s.own ≠ .idle)

include hs hrun hopen

/-- A byte sent to the fixture, which acknowledges it. -/
theorem engine_sends_onSensor (hdir : dataDirection c s = .tx)
    (hack : (q.addressed c s).acksByte s.mdrTx = true) :
    (engine c s).OnSensor (if ctlStopBit c then .idle else .tx)
      (((q.addressed c s).afterTx s.mdrTx).finished c) ∧ (engine c s).errors = 0 := by
  have hview := engine_symbolEngine_sameView c (rfl : s.symbolView = s.symbolView)
  suffices hsym : (symbolEngine c s).OnSensor _ _ ∧ (symbolEngine c s).errors = 0 by
    obtain ⟨hon, hflags⟩ := hsym
    exact ⟨.of_view hview hon, (congrArg State.errors hview).trans hflags⟩
  obtain ⟨l, es, hop⟩ := byteOperation_sensor (s := ({ s with ctl := c } : State).startByteOp)
    hs.slave hs.address (dataPhase_sensor_sends c rfl hdir hack) rfl
  rw [symbolEngine, engineWith_byte _ _ _ hs.enabled hrun hopen, hop]
  exact ⟨⟨rfl, hs.enabled, by rw [← hdir]; rfl, rfl, hs.address⟩,
    (State.errors_eq_zero _).mpr ⟨rfl, rfl, rfl⟩⟩

/-- A byte received from the fixture. -/
theorem engine_receives_onSensor (hdir : dataDirection c s = .rx) :
    (engine c s).OnSensor (if ctlStopBit c then .idle else .rx)
      ((q.addressed c s).afterRx.finished c) ∧ (engine c s).errors = 0 ∧
      (engine c s).mdrRx = (q.addressed c s).supply := by
  have hview := engine_symbolEngine_sameView c (rfl : s.symbolView = s.symbolView)
  suffices hsym : (symbolEngine c s).OnSensor _ _ ∧ (symbolEngine c s).errors = 0 ∧
      (symbolEngine c s).mdrRx = _ by
    obtain ⟨hon, hflags, hbyte⟩ := hsym
    exact ⟨.of_view hview hon, (congrArg State.errors hview).trans hflags,
      (congrArg State.mdrRx hview).trans hbyte⟩
  obtain ⟨l, es, hop⟩ := byteOperation_sensor (s := ({ s with ctl := c } : State).startByteOp)
    hs.slave hs.address (dataPhase_sensor_receives c rfl hdir) rfl
  rw [symbolEngine, engineWith_byte _ _ _ hs.enabled hrun hopen, hop]
  exact ⟨⟨rfl, hs.enabled, by rw [← hdir]; rfl, rfl, hs.address⟩,
    (State.errors_eq_zero _).mpr ⟨rfl, rfl, rfl⟩, rfl⟩

/-- SEND_BYTE of a byte the fixture acknowledges answers Ok, and keeps what the engine does not write. -/
theorem sendOp_onSensor (d : Byte) (hdir : dataDirection c s = .tx)
    (hack : (q.addressed c s).acksByte d = true) :
    ∃ t, sendOp engine d c s = .done (.ok ()) t ∧
      t.OnSensor (if ctlStopBit c then .idle else .tx) (((q.addressed c s).afterTx d).finished c) ∧
      sameBesidesEngine { s with mdrTx := d } t := by
  obtain ⟨ht, hflags⟩ := engine_sends_onSensor (s := { s with mdrTx := d })
    { hs with } hrun hopen hdir hack
  refine ⟨_, ?_, ht, engine_frame c _⟩
  rw [sendOp_eq, if_neg (by simp [hs.ended]), if_neg (by simp [ht.ended]), if_pos hflags]

/-- RECV_BYTE answers the byte the fixture supplies, and keeps what the engine does not write. -/
theorem recvOp_onSensor (hdir : dataDirection c s = .rx) :
    ∃ t, recvOp engine c s = .done (.ok (q.addressed c s).supply) t ∧
      t.OnSensor (if ctlStopBit c then .idle else .rx) ((q.addressed c s).afterRx.finished c) ∧
      sameBesidesEngine s t := by
  obtain ⟨ht, hflags, hbyte⟩ := engine_receives_onSensor hs hrun hopen hdir
  refine ⟨_, ?_, ht, engine_frame c _⟩
  rw [recvOp_eq, if_neg (by simp [hs.ended]), if_neg (by simp [ht.ended]), if_pos hflags, hbyte]

end

/-! ### The sequences against the fixture (R132, R133) -/

section
variable {q : Sensor} {s : State}

/-- SET_DIR keeps the address (R121). -/
theorem State.OnSensor.dirOp {o : Own} (hs : s.OnSensor o q) (d : Bool) :
    (dirOp d s).OnSensor o q := by
  rw [dirOp_eq]
  exact { hs with address := (mergeDir_fields s.msa d).1.trans hs.address }

theorem msaRead_dirOp (d : Bool) (s : State) : msaRead (dirOp d s).msa = d := by
  rw [dirOp_eq, (mergeDir_fields s.msa d).2]

theorem latched_dirOp (d : Bool) (s : State) : latched (dirOp d s) = if d then .rx else .tx := by
  rw [latched, msaRead_dirOp]

/-- The first byte of both sequences selects a register of the fixture (R59). -/
theorem sendOp_selects (hs : s.OnSensor .idle q) (r : Byte) :
    ∃ t, sendOp engine r 0x3 (dirOp false s) = .done (.ok ()) t ∧
      t.OnSensor .tx { q with ptr := r, sel := .wr 1 } ∧ t.val = s.val := by
  have hdir := msaRead_dirOp false s
  have haddressed : q.addressed 0x3 (dirOp false s) = { q with sel := .wr 0 } := by
    rw [Sensor.addressed, if_pos (by decide), hdir]; rfl
  have hwrite : dataDirection 0x3 (dirOp false s) = .tx := by
    rw [dataDirection, if_pos (by decide), latched_dirOp]; rfl
  obtain ⟨t, hsend, ht, hframe⟩ := sendOp_onSensor (hs.dirOp false) (c := 0x3) (by decide)
    (.inl (by decide)) r hwrite (by rw [haddressed]; rfl)
  rw [haddressed] at ht
  refine ⟨t, hsend, ht, ?_⟩
  rw [dirOp_eq] at hframe
  exact (congrArg State.val hframe :)

/-- A byte that goes on with a write in the open transaction (R59). -/
theorem sendOp_continues {n : Nat} (hs : s.OnSensor .tx q) (hsel : q.sel = .wr n) (d : Byte) {c : Ctl}
    (hc : ctlRunBit c = true) (hc' : ctlStartBit c = false) :
    ∃ t, sendOp engine d c s = .done (.ok ()) t ∧
      t.OnSensor (if ctlStopBit c then .idle else .tx) ((q.afterTx d).finished c) ∧
      t.val = s.val := by
  have haddressed : q.addressed c s = q := by rw [Sensor.addressed, hc']; rfl
  obtain ⟨t, hsend, ht, hframe⟩ := sendOp_onSensor hs hc (.inr (by simp [hs.own])) d
    (by rw [dataDirection, hc']; exact hs.own) (by rw [haddressed, Sensor.acksByte, hsel])
  rw [haddressed] at ht
  exact ⟨t, hsend, ht, (congrArg State.val hframe :)⟩

/-- The fixture after the three data bytes of a write to one of its writable registers (R59). -/
theorem Sensor.reg_after_write (q : Sensor) {r : Byte} (hr : r = 0x01 ∨ r = 0x02 ∨ r = 0x03) (v : Half) :
    (((({ q with ptr := r, sel := .wr 1 } : Sensor).afterTx (hiByte v)).afterTx (loByte v)).finished
      0x5).reg r = some v :=
  calc
    _ = (({ q with ptr := r, whi := hiByte v, sel := .wr 2 } : Sensor).setReg r
          (regValue (hiByte v) (loByte v))).reg r := rfl
    _ = some v := by rw [Sensor.reg_setReg hr, regValue_hiByte_loByte]

/-- WRITE_REG16 leaves the value in the register it names. -/
theorem writeRegOp_onSensor (hs : s.OnSensor .idle q) {r : Byte} (hr : r = 0x01 ∨ r = 0x02 ∨ r = 0x03)
    (v : Half) :
    ∃ t q', writeRegOp engine r v s = .done (.ok ()) t ∧ t.OnSensor .idle q' ∧ q'.reg r = some v := by
  obtain ⟨t₁, hsend₁, ht₁, hval₁⟩ := sendOp_selects (s := { s with rega := r, val := v })
    { hs with } r
  obtain ⟨t₂, hsend₂, ht₂, hval₂⟩ := sendOp_continues (s := t₁.setSeq .wAddressWritten)
    { ht₁ with } rfl (hiByte v) (c := 0x1) (by decide) (by decide)
  obtain ⟨t₃, hsend₃, ht₃, -⟩ := sendOp_continues (s := t₂.setSeq .wMsbSent)
    { ht₂ with } rfl (loByte v) (c := 0x5) (by decide) (by decide)
  replace hval₂ : t₂.val = v := hval₂.trans hval₁
  refine ⟨(t₃.setSeq .wLsbSent).setSeq .idle, _, ?_, { ht₃ with }, q.reg_after_write hr v⟩
  rw [writeRegOp, hsend₁, seqStep_ok, writeRegMsb, hval₁, hsend₂, seqStep_ok, writeRegLsb, hval₂,
    hsend₃, seqStep_ok]

/-- The first received byte of READ_REG is the high byte of the register that is selected (R60). -/
theorem recvOp_addresses (hs : s.OnSensor .tx q) {v : Half} (hreg : q.reg q.ptr = some v) :
    ∃ t, recvOp engine 0xB ((dirOp true s).setSeq .directionSwitched) = .done (.ok (hiByte v)) t ∧
      t.OnSensor .rx { q with sel := .rd 1 } := by
  have hdir := msaRead_dirOp true s
  have haddressed : q.addressed 0xB ((dirOp true s).setSeq .directionSwitched) =
      { q with sel := .rd 0 } := by
    rw [Sensor.addressed, if_pos (by decide), State.setSeq_msa, hdir]; rfl
  have hread : dataDirection 0xB ((dirOp true s).setSeq .directionSwitched) = .rx := by
    rw [dataDirection, if_pos (by decide)]
    exact latched_dirOp true s
  obtain ⟨t, hrecv, ht, -⟩ := recvOp_onSensor
    (s := (dirOp true s).setSeq .directionSwitched) (c := 0xB) { hs.dirOp true with } (by decide)
    (.inl (by decide)) hread
  rw [haddressed] at ht hrecv
  exact ⟨t, by rw [hrecv, (Sensor.supply_of_reg hreg).1], ht⟩

/-- The second received byte of READ_REG is the low byte of the register that is selected (R60). -/
theorem recvOp_ends (hs : s.OnSensor .rx { q with sel := .rd 1 }) {v : Half}
    (hreg : q.reg q.ptr = some v) :
    ∃ t, recvOp engine 0x5 s = .done (.ok (loByte v)) t ∧ t.hi = s.hi := by
  have hsupply : (({ q with sel := .rd 1 } : Sensor).addressed 0x5 s).supply = loByte v :=
    (Sensor.supply_of_reg hreg).2
  obtain ⟨t, hrecv, -, hframe⟩ := recvOp_onSensor (c := 0x5) hs (by decide)
    (.inr (by simp [hs.own])) hs.own
  exact ⟨t, by rw [hrecv, hsupply], (congrArg State.hi hframe :)⟩

/-- READ_REG answers what the register it names holds. -/
theorem readRegOp_onSensor (hs : s.OnSensor .idle q) {r : Byte} {v : Half} (hreg : q.reg r = some v) :
    ∃ t, readRegOp engine r s = .done (.ok v) t := by
  obtain ⟨t₁, hsend, ht₁, -⟩ := sendOp_selects (s := { s with rega := r }) { hs with } r
  obtain ⟨t₂, hmsb, ht₂⟩ := recvOp_addresses (s := t₁.setSeq .addressWritten) (v := v)
    { ht₁ with } hreg
  obtain ⟨t₃, hlsb, hhi⟩ := recvOp_ends (v := v)
    (s := { t₂.setSeq .msbReceived with hi := hiByte v }) { ht₂ with } hreg
  replace hhi : t₃.hi = hiByte v := hhi
  refine ⟨{ t₃ with lo := loByte v, seq := .idle }, ?_⟩
  rw [readRegOp, hsend, seqStep_ok, readRegMsb, hmsb, seqStep_ok, readRegLsb, hlsb, seqStep_ok,
    readRegEnd_eq, State.setSeq_hi, State.setSeq_lo, hhi, regValue_hiByte_loByte]
  rfl

end

/-! ### The two commands -/

/-- A command that the port accepts and that ends, ends with its response (R14). -/
theorem command_done {ok : State → Bool} {body : State → Run Response} {s t : State} {r : Response}
    (hexec : s.executing = false) (hok : ok s = true) (hbody : body s.accept = .done r t) :
    command ok body s = .next (t.respond r) := by
  rw [command_eq, if_neg (by simp [hexec]), if_pos hok, hbody, Run.respond_done]

/-- Settles O60: WRITE_REG16 leaves the value in the fixture, and READ_REG reads it there. -/
theorem sensorKeepsWhatIsWritten : Obligations.SensorKeepsWhatIsWritten := by
  intro r v s q hready hidle haddr hslave hr
  have hport : (s.executing = false ∧ s.busy = false) ∧ s.mfe = true := by
    simpa [State.ready] using hready
  obtain ⟨⟨hexec, hbusy⟩, hmfe⟩ := hport
  have hs : s.accept.OnSensor .idle q := ⟨hbusy, hmfe, hidle, hslave, haddr⟩
  obtain ⟨t, q', hwrite, ht, hreg⟩ := writeRegOp_onSensor hs hr v
  have ht' : (t.respond (.ok 0 0)).accept.OnSensor .idle q' := { ht with }
  obtain ⟨u, hread⟩ := readRegOp_onSensor ht' hreg
  refine ⟨t.respond (.ok 0 0), u.respond (.ok 0 v), ?_, by simp [Response.word], ?_,
    by simp [Response.word]⟩
  · rw [exec, execWriteReg16]
    exact command_done hexec hmfe (by rw [hwrite]; rfl)
  · rw [exec, execReadReg]
    exact command_done rfl ht.enabled (by rw [hread]; rfl)

end Sys2Proof.Machine
end

/-! PROOFS. The encoding of the commands (spec/30_encoding.md R63 to R69, R76, R84). A command word is its
four fields, so `encode` is the table of the words, and `decodeCommand` answers exactly its inverse: which
words are refused is then read off that table. A response word is an error exactly when a unit ended with
one, and the units above the engine pass on nothing but the flags of the status word. -/

namespace Sys2Proof

/-! ### The decoder is the inverse of `encode` (R63 to R67, R70, R83) -/

/-- A command word is made of its four fields and nothing else: each of its bits lies in one of them. -/
theorem commandWord_of_fields {w : Word} {op : BitVec 4} {c : Ctl} {a : Byte} {v : Half}
    (hop : opField w = op) (hc : condField w = c) (ha : aField w = a) (hv : vField w = v) :
    commandWord op c a v = w := by
  subst hop hc ha hv
  apply BitVec.eq_of_getLsbD_eq
  intro i hi
  have hfield : i < 16 ∨ (16 ≤ i ∧ i < 24) ∨ (24 ≤ i ∧ i < 28) ∨ 28 ≤ i := by omega
  simp only [commandWord, opField, condField, aField, vField, BitVec.getLsbD_or,
    BitVec.getLsbD_shiftLeft, BitVec.getLsbD_setWidth, BitVec.getLsbD_extractLsb']
  rcases hfield with hv | ⟨ha, ha'⟩ | ⟨hc, hc'⟩ | hop <;> grind

theorem decodeControl_of_controlWordOf {i : Instr} {c : Ctl} (h : Machine.controlWordOf i = some c) :
    decodeControl (c.setWidth 32) = i := by
  cases i <;> cases h <;> rfl

theorem decode_encode {i : Instr} (hwf : i.wf = true) : decode (encode i) = .ok i := by
  cases i using Machine.Instr.commandOrControl with
  | init => exact Laws.RoundTrip.init hwf
  | setDir d => exact Laws.RoundTrip.setDir d hwf
  | setAddr a => exact Laws.RoundTrip.setAddr a hwf
  | sendByte d c => exact Laws.RoundTrip.sendByte d c hwf
  | recvByte c => exact Laws.RoundTrip.recvByte c hwf
  | readReg r => exact Laws.RoundTrip.readReg r hwf
  | writeReg16 r v => exact Laws.RoundTrip.writeReg16 r v hwf
  | decodeTemp v => exact Laws.RoundTrip.decodeTemp v hwf
  | control i c hc => rw [Machine.encode_control hc, decode, decodeControl_of_controlWordOf hc]

theorem decodeCommand_of_encode {i : Instr} {w : Word} (hwf : i.wf = true) (h : encode i = .command w) :
    decodeCommand w = .ok i := by
  rw [← decode_encode hwf, h, decode]

theorem require_eq_ok {ok : Bool} {e : DecodeError} {k : Except DecodeError Instr} {i : Instr} :
    require ok e k = .ok i ↔ ok = true ∧ k = .ok i := by
  cases ok <;> simp [require]

/-- Each operation code of R64 checks the fields it does not use, so the fields are those of the word of
the instruction it answers. -/
theorem encode_of_decodeCommand {w : Word} {i : Instr} (h : decodeCommand w = .ok i) :
    i.wf = true ∧ Machine.isCommand i = true ∧ encode i = .command w := by
  unfold decodeCommand at h
  split_ifs at h <;>
    simp only [require_eq_ok, beq_iff_eq, Bool.or_eq_true, Except.ok.injEq] at h
  · obtain ⟨hc, ha, hv, rfl⟩ := h
    exact ⟨rfl, rfl, congrArg _ (commandWord_of_fields ‹opField w = 0x1› hc ha hv)⟩
  · obtain ⟨hc, -, hv, rfl⟩ := h
    exact ⟨rfl, rfl, congrArg _ (commandWord_of_fields ‹opField w = 0x2› hc ‹aField w = 1› hv)⟩
  · obtain ⟨hc, ha, hv, rfl⟩ := h
    have ha := ha.resolve_right ‹aField w ≠ 1›
    exact ⟨rfl, rfl, congrArg _ (commandWord_of_fields ‹opField w = 0x2› hc ha hv)⟩
  · obtain ⟨hc, ha, hv, rfl⟩ := h
    exact ⟨ha, rfl, congrArg _ (commandWord_of_fields ‹opField w = 0x3› hc rfl hv)⟩
  · obtain ⟨hv, rfl⟩ := h
    exact ⟨rfl, rfl, congrArg _ (commandWord_of_fields ‹opField w = 0x4› rfl rfl hv)⟩
  · obtain ⟨ha, hv, rfl⟩ := h
    exact ⟨rfl, rfl, congrArg _ (commandWord_of_fields ‹opField w = 0x5› rfl ha hv)⟩
  · obtain ⟨hc, hv, rfl⟩ := h
    exact ⟨rfl, rfl, congrArg _ (commandWord_of_fields ‹opField w = 0x8› hc rfl hv)⟩
  · obtain ⟨hc, rfl⟩ := h
    exact ⟨rfl, rfl, congrArg _ (commandWord_of_fields ‹opField w = 0x9› hc rfl rfl)⟩
  · obtain ⟨hc, ha, rfl⟩ := h
    exact ⟨rfl, rfl, congrArg _ (commandWord_of_fields ‹opField w = 0xA› hc ha rfl)⟩

/-- Settles O1: for a command its fields are read back, for a control word its four bits. -/
theorem decodeOfEncode : Obligations.DecodeOfEncode := fun _ hwf => decode_encode hwf

/-- Settles O2: every field that a decoded word does not use is 0, so its instruction gives it back. -/
theorem encodeOfDecodedCommand : Obligations.EncodeOfDecodedCommand :=
  fun _ _ h => encode_of_decodeCommand h

/-- Settles O4: each example is the word of its instruction, so the round trip decodes it. -/
theorem exampleWords : Obligations.ExampleWords :=
  ⟨decode_encode (i := .init) rfl, decode_encode (i := .setDir .write) rfl,
    decode_encode (i := .setDir .read) rfl, decode_encode (i := .setAddr 0x18) rfl,
    decode_encode (i := .sendByte 0x05 0x3) rfl, decode_encode (i := .sendByte 0x00 0x4) rfl,
    decode_encode (i := .recvByte 0xB) rfl, decode_encode (i := .recvByte 0x5) rfl,
    decode_encode (i := .readReg 0x05) rfl, decode_encode (i := .writeReg16 0x02 0x01E0) rfl,
    decode_encode (i := .decodeTemp 0x0100) rfl, decode_encode (i := .ctlAckStartRun) rfl⟩

/-! ### Which command words are refused (R66, R76) -/

theorem addrOperandOk_iff (a : Byte) : addrOperandOk a = true ↔ a.toNat ≤ 127 := by
  have hbit : a.getLsbD 7 = decide (128 ≤ a.toNat) := BitVec.msb_eq_decide a
  simp only [addrOperandOk, hbit, Bool.not_eq_true', decide_eq_false_iff_not]
  omega

theorem eq_zero_or_one_of_toNat_le {a : Byte} (h : a.toNat ≤ 1) : a = 0 ∨ a = 1 := by
  bv_omega

/-- A word that R76 does not refuse is the word of an instruction. -/
theorem exists_decodeCommand {w : Word} (hop : opField w ∈ [0x1, 0x2, 0x3, 0x4, 0x5, 0x8, 0x9, 0xA])
    (hcond : ¬ (condField w ≠ 0 ∧ opField w ≠ 0x4 ∧ opField w ≠ 0x5))
    (ha : ¬ (aField w ≠ 0 ∧ (opField w = 0x1 ∨ opField w = 0x5 ∨ opField w = 0xA)))
    (hdir : ¬ (1 < (aField w).toNat ∧ opField w = 0x2))
    (haddr : ¬ (127 < (aField w).toNat ∧ opField w = 0x3))
    (hv : ¬ (vField w ≠ 0 ∧ opField w ≠ 0x9 ∧ opField w ≠ 0xA)) : ∃ i, decodeCommand w = .ok i := by
  suffices h : ∃ i : Instr, i.wf = true ∧ encode i = .command w by
    obtain ⟨i, hwf, henc⟩ := h
    exact ⟨i, decodeCommand_of_encode hwf henc⟩
  simp only [List.mem_cons, List.not_mem_nil, or_false] at hop
  rcases hop with hop | hop | hop | hop | hop | hop | hop | hop <;>
    simp [hop] at hcond ha hdir haddr hv
  · exact ⟨.init, rfl, congrArg _ (commandWord_of_fields hop hcond ha hv)⟩
  · rcases eq_zero_or_one_of_toNat_le hdir with ha | ha
    · exact ⟨.setDir .write, rfl, congrArg _ (commandWord_of_fields hop hcond ha hv)⟩
    · exact ⟨.setDir .read, rfl, congrArg _ (commandWord_of_fields hop hcond ha hv)⟩
  · exact ⟨.setAddr _, (addrOperandOk_iff _).mpr haddr,
      congrArg _ (commandWord_of_fields hop hcond rfl hv)⟩
  · exact ⟨.sendByte _ _, rfl, congrArg _ (commandWord_of_fields hop rfl rfl hv)⟩
  · exact ⟨.recvByte _, rfl, congrArg _ (commandWord_of_fields hop rfl ha hv)⟩
  · exact ⟨.readReg _, rfl, congrArg _ (commandWord_of_fields hop hcond rfl hv)⟩
  · exact ⟨.writeReg16 _ _, rfl, congrArg _ (commandWord_of_fields hop hcond rfl rfl)⟩
  · exact ⟨.decodeTemp _, rfl, congrArg _ (commandWord_of_fields hop hcond ha rfl)⟩

/-- Settles O5: a word that decodes is the word of a well-formed command, whose fields meet every check,
and a word whose fields meet every check is such a word. -/
theorem illegalWords : Obligations.IllegalWords := by
  intro w
  constructor
  · intro hno
    by_contra hlegal
    simp only [not_or, not_not] at hlegal
    obtain ⟨hop, hcond, ha, hdir, haddr, hv⟩ := hlegal
    obtain ⟨i, hi⟩ := exists_decodeCommand hop hcond ha hdir haddr hv
    exact hno i hi
  · intro hbad i hdec
    obtain ⟨hwf, hcmd, henc⟩ := encode_of_decodeCommand hdec
    cases i using Machine.Instr.commandOrControl with
    | control i c hc => simp [Machine.isCommand_of_control hc] at hcmd
    | setDir d => cases henc; cases d <;> simp [Direction.toBit] at hbad
    | setAddr a =>
      cases henc
      have ha := (addrOperandOk_iff a).mp hwf
      simp at hbad
      omega
    | _ => cases henc; simp at hbad

end Sys2Proof

namespace Sys2Proof.Machine

/-! ### The response word (R68, R69) -/

theorem errWord_toNat (f : BitVec 3) : (Response.err f).word.toNat = 2 ^ 31 + f.toNat * 2 ^ 24 := by
  revert f; decide

/-- The data word lies below the flags, so the two do not overlap. -/
theorem okWord_toNat (tf : BitVec 3) (d : Half) :
    (Response.ok tf d).word.toNat = tf.toNat * 2 ^ 16 + d.toNat := by
  have hflags : tf.toNat * 2 ^ 16 < 2 ^ 32 := by omega
  have hdata : d.toNat < 2 ^ 16 := d.isLt
  rw [Response.word, BitVec.toNat_or, BitVec.toNat_shiftLeft, BitVec.toNat_setWidth_of_le (by decide),
    BitVec.toNat_setWidth_of_le (by decide), Nat.shiftLeft_eq, Nat.mod_eq_of_lt hflags,
    Nat.mul_comm, Nat.two_pow_add_eq_or_of_lt hdata]

/-- Settles O13: the fields of a word do not overlap, so its number is their sum. -/
theorem responseFields : Obligations.ResponseFields :=
  ⟨okWord_toNat, errWord_toNat, rfl⟩

/-- The word of an error carries its flag set in bits [26:24], and no data (R68, R158). -/
theorem errWord_fields (f : BitVec 3) :
    (Response.err f).word.extractLsb' 24 3 = f ∧ (Response.err f).word.getLsbD 30 = false ∧
      (Response.err f).word.extractLsb' 27 3 = 0 ∧ (Response.err f).word.extractLsb' 0 24 = 0 := by
  revert f; decide

/-- Bit 31 of the response word marks an error (R68). -/
theorem exists_err_of_word {r : Response} (h : r.word.getLsbD 31 = true) : ∃ f, r = .err f := by
  cases r with
  | ok tf d => simp [Response.word] at h
  | err f => exact ⟨f, rfl⟩
  | ill => simp [Response.word] at h

/-! ### Commands the port refuses (R76, R157) -/

theorem State.refuse_eq (s : State) :
    s.refuse = { s with executing := false, rsp := 0x40000000, rspValid := true } := rfl

theorem illegalCommand_eq (s : State) :
    illegalCommand s = .next (if s.executing then s else s.refuse) := by
  unfold illegalCommand State.cmdReady
  cases s.executing <;> rfl

/-- Settles O7: `step` takes the sample and hands the word to `illegalCommand`. -/
theorem stepOnIllegalWord : Obligations.StepOnIllegalWord := by
  intro s w e rest hin hdec
  have hstep : step s = illegalCommand { s with inputs := rest } := by
    simp only [step, serve, hin, decode, hdec]
  rw [hstep, illegalCommand_eq, State.refuse_eq]

theorem command_refused {ok : State → Bool} {body : State → Run Response} {s : State}
    (hexec : s.executing = false) (hok : ok s = false) : command ok body s = .next s.refuse := by
  rw [command_eq, if_neg (by simp [hexec]), if_neg (by simp [hok])]

/-! ### A bus command that fails reports the flags of the status word (R69, R126, R141, R154) -/

/-- A run that ends with an error, here the result `err f`, ends with `f` still in the status word, and
`f` is not 0. -/
def Run.Reports {α : Type} (err : BitVec 3 → α) (m : Run α) : Prop :=
  ∀ f t, m = .done (err f) t → t.errors = f ∧ f ≠ 0

/-- A Stop alone keeps the flags, whatever comes of it (R86 step 4). -/
theorem errors_engine_of_not_run {c : Ctl} (hrun : ctlRunBit c = false) (s : State) :
    (engine c s).errors = s.errors := by
  have hout := engine_outcome c s
  generalize engine c s = t at hout
  cases hout with
  | nothing => rfl
  | stop => rfl
  | stopStall => rfl
  | ended d es a k v sh sl n _ h => simp [hrun] at h
  | lost es l sl n _ h => simp [hrun] at h
  | stalled o e a k v l es sl n _ h => simp [hrun] at h

section
variable {α β : Type}

theorem reports_of_ok (a : α) (s : State) : (Run.done (Xfer.ok a) s).Reports .err := by
  intro f t h
  cases h

/-- The forced Stop of an abort does not touch the flags it reports (R154). -/
theorem transfer_reports (c : Ctl) {k : State → Run (Xfer α)} (hk : ∀ s, (k s).Reports .err)
    (s : State) : (transfer engine c k s).Reports .err := by
  intro f t h
  rw [transfer_eq] at h
  split_ifs at h with _ _ hflags
  · exact hk _ f t h
  · cases h
    exact ⟨errors_engine_of_not_run rfl _, hflags⟩

theorem sendOp_reports (d : Byte) (c : Ctl) (s : State) : (sendOp engine d c s).Reports .err :=
  transfer_reports c (fun s => reports_of_ok () s) (s.writeMdr _)

theorem recvOp_reports (c : Ctl) (s : State) : (recvOp engine c s).Reports .err :=
  transfer_reports c (fun s => reports_of_ok _ s) s

/-- A sequence passes on the error of the step that failed (R141). -/
theorem seqStep_reports {m : Run (Xfer α)} {k : α → State → Run (Xfer β)} (hm : m.Reports .err)
    (hk : ∀ a s, (k a s).Reports .err) : (seqStep m k).Reports .err := by
  intro f t h
  cases m with
  | done x s =>
    cases x with
    | ok a => exact hk a s f t h
    | err g =>
      cases h
      exact hm f s rfl
  | hang s => cases h
  | undef r => cases h

theorem readRegOp_reports (r : Byte) (s : State) : (readRegOp engine r s).Reports .err :=
  seqStep_reports (sendOp_reports _ _ _) fun _ _ => seqStep_reports (recvOp_reports _ _) fun _ _ =>
    seqStep_reports (recvOp_reports _ _) fun _ _ => reports_of_ok _ _

theorem writeRegOp_reports (r : Byte) (v : Half) (s : State) :
    (writeRegOp engine r v s).Reports .err :=
  seqStep_reports (sendOp_reports _ _ _) fun _ _ => seqStep_reports (sendOp_reports _ _ _) fun _ _ =>
    seqStep_reports (sendOp_reports _ _ _) fun _ _ => reports_of_ok _ _

/-- The response of a command is an error only if its unit's result is (R68). -/
theorem Run.Reports.respond {m : Run (Xfer α)} {response : Xfer α → Response} (hm : m.Reports .err)
    (herr : ∀ f, response (.err f) = .err f) (hok : ∀ a f, response (.ok a) ≠ .err f) :
    (m.bind fun x s => .done (response x) s).Reports .err := by
  intro f t h
  obtain ⟨x, s, hdone, hresp⟩ := Run.bind_eq_done h
  injection hresp with hx hst
  subst hst
  cases x with
  | ok a => exact absurd hx (hok a f)
  | err g =>
    rw [herr] at hx
    cases hx
    exact hm f s hdone

end

theorem executing_keptBySequence :
    KeptBySequence engine (fun s => s.executing = true) (fun s => s.executing = true) where
  ended c s hs _ _ := (engine_executing c s).trans hs
  stalled c s hs _ _ := (engine_executing c s).trans hs
  writeMdr _ _ hs := hs
  setSeq _ _ hs := hs
  dirOp _ _ hs := hs

/-- What all bus commands have in common: the port's check, the flags of an error, and that no response
comes of a hang (R128, R69, R160). -/
structure BusCommandBody (i : Instr) (body : State → Run Response) : Prop where
  port : ∀ s, exec i s = command busEnabled body s
  reports : ∀ s, (body s).Reports .err
  executes : ∀ s, s.executing = true →
    (body s).Leaves (fun t => t.executing = true) (fun t => t.executing = true)

theorem exists_busCommandBody {i : Instr} (h : isBusCommand i = true) :
    ∃ body, BusCommandBody i body := by
  have hkept := executing_keptBySequence
  cases i with
  | sendByte d c =>
    refine ⟨fun s => (sendOp engine d c s).bind fun x s => .done x.response s, fun _ => rfl,
      fun s => (sendOp_reports d c s).respond (fun _ => rfl) (fun _ _ => nofun), fun s hs => ?_⟩
    exact (sendOp_leaves hkept.toKeptByEngine hkept.writeMdr d c hs).bind fun _ _ ht => ht
  | recvByte c =>
    refine ⟨fun s => (recvOp engine c s).bind fun x s => .done x.byteResponse s, fun _ => rfl,
      fun s => (recvOp_reports c s).respond (fun _ => rfl) (fun _ _ => nofun), fun s hs => ?_⟩
    exact (recvOp_leaves hkept.toKeptByEngine c hs).bind fun _ _ ht => ht
  | readReg r =>
    refine ⟨fun s => (readRegOp engine r s).bind fun x s => .done x.dataResponse s, fun _ => rfl,
      fun s => (readRegOp_reports r s).respond (fun _ => rfl) (fun _ _ => nofun), fun s hs => ?_⟩
    exact (readRegOp_leaves hkept (fun _ h => h) (fun _ _ h => h) (fun _ _ h => h) hs).bind
      fun _ _ ht => ht.1
  | writeReg16 r v =>
    refine ⟨fun s => (writeRegOp engine r v s).bind fun x s => .done x.response s, fun _ => rfl,
      fun s => (writeRegOp_reports r v s).respond (fun _ => rfl) (fun _ _ => nofun), fun s hs => ?_⟩
    exact (writeRegOp_leaves hkept (fun _ h => h) hs).bind fun _ _ ht => ht.1
  | _ => cases h

/-- Settles O8: each of the three is the check its command makes at the port. -/
theorem illegalInThisState : Obligations.IllegalInThisState := by
  rintro i s hexec (⟨hbus, hmfe⟩ | ⟨rfl, hown⟩ | ⟨a, rfl, ha⟩) <;> rw [← State.refuse_eq]
  · obtain ⟨body, hbody⟩ := exists_busCommandBody hbus
    rw [hbody.port]
    exact command_refused hexec hmfe
  · rw [exec, execInit]
    exact command_refused hexec (by simp [hown])
  · have hok : addrOperandOk a = false := by
      rw [← Bool.not_eq_true, addrOperandOk_iff]
      omega
    rw [exec, execSetAddr]
    exact command_refused hexec hok

/-- A bus command that is accepted and ends with bit 31 of `RSP` set ended with the flags of the status
word, of which one at least is set (R69, R158). -/
theorem busCommand_error {i : Instr} {s t : State} (hready : s.ready = true)
    (hbus : isBusCommand i = true) (h : exec i s = .next t) (hend : t.executing = false)
    (herr : t.rsp.getLsbD 31 = true) :
    t.rsp = (Response.err t.errors).word ∧ t.errors ≠ 0 ∧ t.rspValid = true := by
  have hport : (s.executing = false ∧ s.busy = false) ∧ s.mfe = true := by
    simpa [State.ready] using hready
  obtain ⟨⟨hexec, -⟩, hmfe⟩ := hport
  obtain ⟨body, hbody⟩ := exists_busCommandBody hbus
  rw [hbody.port] at h
  rcases command_next h with ⟨hexec', -⟩ | ⟨-, hno, -⟩ | ⟨-, -, ⟨r, u, hrun, rfl⟩ | hrun⟩
  · cases hexec.symm.trans hexec'
  · simp [busEnabled, hmfe] at hno
  · obtain ⟨f, rfl⟩ := exists_err_of_word herr
    obtain ⟨rfl, hf⟩ := hbody.reports _ f u hrun
    exact ⟨rfl, hf, rfl⟩
  · have hexec' := hbody.executes s.accept rfl
    rw [hrun] at hexec'
    cases hend.symm.trans hexec'

/-- At most one cause is flagged, and `ERROR` with it: of a flag set that is not 0 that leaves three (R153). -/
theorem errors_of_flagsOk {s : State} (h : flagsOk s = true) (hne : s.errors ≠ 0) :
    s.errors = 0b011 ∨ s.errors = 0b101 ∨ s.errors = 0b001 := by
  unfold flagsOk at h
  unfold State.errors at hne ⊢
  revert h hne
  generalize s.error = e, s.adrack = a, s.datack = k
  revert e a k
  decide

/-- Settles O47: the response is the word of the flags, and the invariant, which every instruction keeps,
leaves three flag sets. -/
theorem errorResponses : Obligations.ErrorResponses := by
  intro i s t hinv hready hbus h hend herr
  obtain ⟨hrsp, hne, hvalid⟩ := busCommand_error hready hbus h hend herr
  obtain ⟨heng, -⟩ := t.inv_iff.mp (hinv.exec h)
  rw [hrsp]
  exact ⟨errors_of_flagsOk heng.flags hne, hvalid, errWord_fields t.errors⟩

end Sys2Proof.Machine

/-! PROOFS. A finite clock stretch is invisible (spec/40_engine.md R114, spec/70_reset_and_hazards.md R182). Of
a stretch a line step reads only whether it ends, so taking the finite ones out of a script changes no line
step, and from there up it commutes with every symbol, phase, unit and command. -/

namespace Sys2Proof.Machine

/-! ### The line steps -/

/-- A pulse with a finite stretch taken out; one that never ends stays. -/
def Pulse.unstretched (p : Pulse) : Pulse := { p with stretch := p.stretch.map fun _ => 0 }

theorem Wave.now_unstretched (w : Wave) : w.unstretched.now = w.now.unstretched := by
  cases w <;> rfl

theorem Wave.tail_unstretched (w : Wave) : w.unstretched.tail = Wave.unstretched w.tail := by
  cases w <;> rfl

theorem LineStep.run_unstretched (t : LineStep) (p : Pulse) (smp : Bool) (l : Line) :
    t.run p.unstretched smp l = t.run p smp l := by
  simp [LineStep.run, Pulse.unstretched]

theorem runSteps_unstretched (ts : List LineStep) (p : Pulse) (smp : Bool) (l : Line) :
    runSteps ts p.unstretched smp l = runSteps ts p smp l := by
  induction ts generalizing smp l with
  | nil => rfl
  | cons t ts ih => simp only [runSteps, LineStep.run_unstretched, ih]

theorem lineCondition_unstretched (ts : List LineStep) (w : Wave) (l : Line) :
    lineCondition ts w.unstretched l = lineCondition ts w l := by
  simp only [lineCondition, Wave.now_unstretched, runSteps_unstretched]

theorem bitCell_unstretched (d : Bool) (p : Pulse) (l : Line) :
    bitCell d p.unstretched l = bitCell d p l := runSteps_unstretched ..

theorem sendCells_unstretched (n : Nat) (w : Wave) (l : Line) :
    sendCells n w.unstretched l = sendCells n w l := by
  induction n generalizing w l with
  | zero => simp only [sendCells, Wave.now_unstretched, bitCell_unstretched]
  | succ n ih =>
    simp only [sendCells, Wave.now_unstretched, bitCell_unstretched, Wave.tail_unstretched, ih]

theorem receiveCells_unstretched (a : Bool) (n : Nat) (w : Wave) (l : Line) :
    receiveCells a n w.unstretched l = receiveCells a n w l := by
  induction n generalizing w l with
  | zero => simp only [receiveCells, Wave.now_unstretched, bitCell_unstretched]
  | succ n ih =>
    simp only [receiveCells, Wave.now_unstretched, bitCell_unstretched, Wave.tail_unstretched, ih]

/-! ### Asking the slave -/

@[simp] theorem State.unstretched_busy (s : State) : s.unstretched.busy = s.busy := rfl
@[simp] theorem State.unstretched_own (s : State) : s.unstretched.own = s.own := rfl
@[simp] theorem State.unstretched_executing (s : State) : s.unstretched.executing = s.executing := rfl
@[simp] theorem State.unstretched_errors (s : State) : s.unstretched.errors = s.errors := rfl

/-- What reads no finite stretch reads the same off the wave of the unstretched slave, which differs from the
slave's own only where the slave is scripted. -/
theorem apply_wave_unstretched {β : Type} {f : Wave → β} (hf : ∀ w : Wave, f w.unstretched = f w)
    (σ : Symbol) (s : State) : f (s.unstretched.wave σ) = f (s.wave σ) := by
  unfold State.wave State.unstretched
  cases s.slave with
  | unknown => rfl
  | sensor r => rfl
  | scripted ws =>
    cases ws with
    | nil => rfl
    | cons w ws => exact hf w

theorem State.asked_unstretched (σ : Symbol) (s : State) :
    s.unstretched.asked σ = (s.asked σ).unstretched := by
  unfold State.asked
  cases hs : s.slave with
  | unknown => simp only [State.unstretched, hs, Slave.unstretched]
  | sensor r => simp only [State.unstretched, hs, Slave.unstretched]
  | scripted ws =>
    cases ws <;> simp only [State.unstretched, hs, Slave.unstretched, List.map_nil, List.map_cons]

/-! ### The bus symbols -/

/-- The result of a piece of an operation, with the finite stretches that are left taken out. -/
def Res.unstretched {α : Type} : Res State α → Res State α
  | .done a s => .done a s.unstretched
  | .stall s => .stall s.unstretched

theorem Res.state_unstretched {α : Type} (m : Res State α) :
    m.unstretched.state = m.state.unstretched := by
  cases m <;> rfl

/-- What commutes part by part with taking the stretches out commutes as a whole. -/
theorem Res.bind_unstretched {α β : Type} {m m' : Res State α} {k : α → State → Res State β}
    (hm : m' = m.unstretched) (hk : ∀ a s, k a s.unstretched = (k a s).unstretched) :
    m'.bind k = (m.bind k).unstretched := by
  subst hm
  cases m with
  | done a s => exact hk a s
  | stall s => rfl

theorem lineCond_unstretched (σ : Symbol) (ts : List LineStep) (e : BusEvent) (s : State) :
    lineCond σ ts e s.unstretched = (lineCond σ ts e s).unstretched := by
  have hline : lineCondition ts (s.unstretched.wave σ) s.unstretched.line =
      lineCondition ts (s.wave σ) s.line :=
    apply_wave_unstretched (f := fun w => lineCondition ts w s.line)
      (fun w => lineCondition_unstretched ts w _) σ s
  rw [lineCond, lineCond, hline, State.asked_unstretched]
  cases lineCondition ts (s.wave σ) s.line <;> rfl

theorem lineSymbols_tx_unstretched (v : Byte) (s : State) :
    lineSymbols.tx v s.unstretched = (lineSymbols.tx v s).unstretched := by
  have hline : lineTx v (s.unstretched.wave (.tx v)) s.unstretched.line =
      lineTx v (s.wave (.tx v)) s.line :=
    apply_wave_unstretched (f := fun w => lineTx v w s.line)
      (fun w => sendCells_unstretched 8 w _) (.tx v) s
  simp only [lineSymbols, hline, State.asked_unstretched]
  cases lineTx v (s.wave (.tx v)) s.line <;> rfl

theorem lineSymbols_rx_unstretched (a : Bool) (s : State) :
    lineSymbols.rx a s.unstretched = (lineSymbols.rx a s).unstretched := by
  have hline : lineRx a (s.unstretched.wave .rx) s.unstretched.line =
      lineRx a (s.wave .rx) s.line :=
    apply_wave_unstretched (f := fun w => lineRx a w s.line)
      (fun w => receiveCells_unstretched a 8 w _) .rx s
  simp only [lineSymbols, hline, State.asked_unstretched]
  cases lineRx a (s.wave .rx) s.line <;> rfl

/-! ### The phases of an operation (spec/40_engine.md R86 to R90) -/

theorem addressPhase_unstretched (s : State) :
    addressPhase lineSymbols s.unstretched = (addressPhase lineSymbols s).unstretched := by
  refine Res.bind_unstretched ?_ fun _ s => ?_
  · rw [State.unstretched_own]
    split
    · exact lineCond_unstretched ..
    · exact lineCond_unstretched ..
  · refine Res.bind_unstretched (lineSymbols_tx_unstretched s.msa s.latchDirection) fun a s => ?_
    cases a <;> rfl

theorem dataPhase_unstretched (c : Ctl) (s : State) :
    dataPhase lineSymbols c s.unstretched = (dataPhase lineSymbols c s).unstretched := by
  unfold dataPhase
  rw [State.unstretched_own]
  split
  · exact Res.bind_unstretched (lineSymbols_rx_unstretched _ s) fun _ _ => rfl
  · refine Res.bind_unstretched (lineSymbols_tx_unstretched s.mdrTx s) fun a s => ?_
    cases a <;> rfl

theorem stopOperation_unstretched (s : State) :
    stopOperation lineSymbols s.unstretched = (stopOperation lineSymbols s).unstretched :=
  Res.bind_unstretched (lineCond_unstretched ..) fun _ _ => rfl

theorem finishPhase_unstretched (c : Ctl) (s : State) :
    finishPhase lineSymbols c s.unstretched = (finishPhase lineSymbols c s).unstretched := by
  unfold finishPhase
  split
  · exact stopOperation_unstretched s
  · rfl

theorem byteOperation_unstretched (c : Ctl) (s : State) :
    byteOperation lineSymbols c s.unstretched = (byteOperation lineSymbols c s).unstretched := by
  refine Res.bind_unstretched ?_ fun a s => ?_
  · split
    · exact addressPhase_unstretched s
    · rfl
  · cases a with
    | lost => rfl
    | nack => exact finishPhase_unstretched c s
    | ack =>
      refine Res.bind_unstretched (dataPhase_unstretched c s) fun a s => ?_
      cases a with
      | lost => rfl
      | nack => exact finishPhase_unstretched c s
      | ack => exact finishPhase_unstretched c s

/-- The three kinds of control write: it starts nothing, a Stop alone, or an operation that runs a byte
(R86). -/
theorem controlWrite_cases (c : Ctl) (s : State) :
    (s.mfe = false ∨ (ctlRunBit c = false ∧ (ctlStopBit c = false ∨ s.own = .idle)) ∨
      (ctlStartBit c = false ∧ s.own = .idle)) ∨
    (s.mfe = true ∧ ctlRunBit c = false ∧ ctlStopBit c = true ∧ s.own ≠ .idle) ∨
    (s.mfe = true ∧ ctlRunBit c = true ∧ (ctlStartBit c = true ∨ s.own ≠ .idle)) := by
  refine or_iff_not_imp_left.mpr fun h => ?_
  simp only [not_or, not_and, Bool.not_eq_false] at h
  obtain ⟨hmfe, hstop, hopen⟩ := h
  cases hrun : ctlRunBit c with
  | false => exact .inl ⟨hmfe, rfl, hstop hrun⟩
  | true => exact .inr ⟨hmfe, rfl, (Bool.eq_false_or_eq_true _).imp_right hopen⟩

theorem engine_unstretched (c : Ctl) (s : State) :
    engine c s.unstretched = (engine c s).unstretched := by
  unfold engine
  rcases controlWrite_cases c s with h | ⟨hmfe, hrun, hstop, hown⟩ | ⟨hmfe, hrun, hopen⟩
  · rw [engineWith_idle _ c s h, engineWith_idle _ c s.unstretched h]
    rfl
  · rw [engineWith_stop _ c s hmfe hrun hstop hown,
      engineWith_stop _ c s.unstretched hmfe hrun hstop hown, ← Res.state_unstretched,
      ← stopOperation_unstretched]
    rfl
  · rw [engineWith_byte _ c s hmfe hrun hopen, engineWith_byte _ c s.unstretched hmfe hrun hopen,
      ← Res.state_unstretched, ← byteOperation_unstretched]
    rfl

/-! ### The units above the engine (spec/41_byte_transfer.md R123, R124, spec/42_sequencer.md R132, R133) -/

/-- The result of a unit, with the finite stretches that are left taken out. -/
def Run.unstretched {α : Type} : Run α → Run α
  | .done a s => .done a s.unstretched
  | .hang s => .hang s.unstretched
  | .undef r => .undef r

theorem Run.bind_unstretched {α β : Type} {m m' : Run α} {k : α → State → Run β}
    (hm : m' = m.unstretched) (hk : ∀ a s, k a s.unstretched = (k a s).unstretched) :
    m'.bind k = (m.bind k).unstretched := by
  subst hm
  cases m with
  | done a s => exact hk a s
  | hang s => rfl
  | undef r => rfl

theorem transfer_unstretched {α : Type} (c : Ctl) {k : State → Run (Xfer α)}
    (hk : ∀ s, k s.unstretched = (k s).unstretched) (s : State) :
    transfer engine c k s.unstretched = (transfer engine c k s).unstretched := by
  simp only [transfer_eq, engine_unstretched, State.unstretched_busy, State.unstretched_errors, hk]
  split_ifs <;> rfl

theorem sendOp_unstretched (d : Byte) (c : Ctl) (s : State) :
    sendOp engine d c s.unstretched = (sendOp engine d c s).unstretched :=
  transfer_unstretched c (fun _ => rfl) (s.writeMdr (d.setWidth 32))

theorem recvOp_unstretched (c : Ctl) (s : State) :
    recvOp engine c s.unstretched = (recvOp engine c s).unstretched :=
  transfer_unstretched c (fun _ => rfl) s

theorem seqStep_unstretched {α β : Type} {m m' : Run (Xfer α)} {k : α → State → Run (Xfer β)}
    (hm : m' = m.unstretched) (hk : ∀ a s, k a s.unstretched = (k a s).unstretched) :
    seqStep m' k = (seqStep m k).unstretched := by
  refine Run.bind_unstretched hm fun x s => ?_
  cases x with
  | ok a => exact hk a s
  | err f => rfl

theorem readRegOp_unstretched (r : Byte) (s : State) :
    readRegOp engine r s.unstretched = (readRegOp engine r s).unstretched :=
  seqStep_unstretched (sendOp_unstretched r 0x3 (dirOp false { s with rega := r })) fun _ s =>
    seqStep_unstretched (recvOp_unstretched 0xB
      ((dirOp true (s.setSeq .addressWritten)).setSeq .directionSwitched)) fun b s =>
    seqStep_unstretched (recvOp_unstretched 0x5 { s.setSeq .msbReceived with hi := b }) fun _ _ => rfl

theorem writeRegOp_unstretched (r : Byte) (v : Half) (s : State) :
    writeRegOp engine r v s.unstretched = (writeRegOp engine r v s).unstretched :=
  seqStep_unstretched (sendOp_unstretched r 0x3 (dirOp false { s with rega := r, val := v })) fun _ s =>
    seqStep_unstretched (sendOp_unstretched (hiByte s.val) 0x1 (s.setSeq .wAddressWritten)) fun _ s =>
    seqStep_unstretched (sendOp_unstretched (loByte s.val) 0x5 (s.setSeq .wMsbSent)) fun _ _ => rfl

/-! ### The instructions -/

/-- The port reads nothing of the slave; the check and the body decide. -/
theorem command_unstretched {ok : State → Bool} {body : State → Run Response}
    (hok : ∀ s, ok s.unstretched = ok s) (hbody : ∀ s, body s.unstretched = (body s).unstretched)
    (s : State) : command ok body s.unstretched = unstretchedResult (command ok body s) := by
  have hrun : body s.unstretched.accept = (body s.accept).unstretched := hbody s.accept
  rw [command_eq, command_eq, hok, hrun, State.unstretched_executing]
  split_ifs
  · rfl
  · cases body s.accept <;> rfl
  · rfl

theorem controlStep_unstretched (c : Ctl) (s : State) :
    controlStep c s.unstretched = unstretchedResult (controlStep c s) := by
  rw [controlStep_eq, controlStep_eq, engine_unstretched, State.unstretched_busy]
  split_ifs <;> rfl

/-- Settles O58: instruction by instruction, from the line steps up. -/
theorem finiteStretchInvisible : Obligations.FiniteStretchInvisible := by
  intro i s
  cases i using Instr.commandOrControl with
  | init =>
    simp only [exec, execInit]
    exact command_unstretched (fun _ => rfl) (fun _ => rfl) s
  | setDir d =>
    simp only [exec, execSetDir]
    exact command_unstretched (fun _ => rfl) (fun _ => rfl) s
  | setAddr a =>
    simp only [exec, execSetAddr]
    exact command_unstretched (fun _ => rfl) (fun _ => rfl) s
  | decodeTemp v =>
    simp only [exec, execDecodeTemp]
    exact command_unstretched (fun _ => rfl) (fun _ => rfl) s
  | sendByte d c =>
    simp only [exec, execSendByte]
    exact command_unstretched (fun _ => rfl)
      (fun s => Run.bind_unstretched (sendOp_unstretched d c s) fun _ _ => rfl) s
  | recvByte c =>
    simp only [exec, execRecvByte]
    exact command_unstretched (fun _ => rfl)
      (fun s => Run.bind_unstretched (recvOp_unstretched c s) fun _ _ => rfl) s
  | readReg r =>
    simp only [exec, execReadReg]
    exact command_unstretched (fun _ => rfl)
      (fun s => Run.bind_unstretched (readRegOp_unstretched r s) fun _ _ => rfl) s
  | writeReg16 r v =>
    simp only [exec, execWriteReg16]
    exact command_unstretched (fun _ => rfl)
      (fun s => Run.bind_unstretched (writeRegOp_unstretched r v s) fun _ _ => rfl) s
  | control i c hc => rw [exec_control hc, exec_control hc, controlStep_unstretched]

end Sys2Proof.Machine

/-! PROOFS. Control words against a scripted slave (spec/40_engine.md R86 to R90, R115): what each symbol, each
phase and the whole operation leave when the waves at the head of the script answer. -/

namespace Sys2Proof.Machine

/-! ### Control words that start nothing or are refused (R85, R86 steps 1 to 3) -/

/-- A control word accepted while `BUSY = 0` is what the engine makes of it (R86). -/
theorem exec_control_next {i : Instr} {c : Ctl} {s : State} (hc : controlWordOf i = some c)
    (hidle : s.busy = false) : exec i s = .next (engine c s) := by
  rw [exec_control hc, controlStep_eq, if_neg (by simp [hidle])]

/-- Settles O24: the engine latches `CTL` and ends there. -/
theorem controlWordWithNothingToDo : Obligations.ControlWordWithNothingToDo := by
  intro i c s hc hidle hnothing
  rw [exec_control_next hc hidle, engine, engineWith_idle _ _ _ hnothing]

/-- The first control write of a bus command meets `BUSY = 1` (R85). -/
theorem transfer_busy {α : Type} (eng : Engine) (c : Ctl) (k : State → Run (Xfer α)) {s : State}
    (hbusy : s.busy = true) : transfer eng c k s = .undef .controlWriteWhileBusy := by
  rw [transfer_eq, if_pos hbusy]

theorem sendOp_busy (eng : Engine) (d : Byte) (c : Ctl) {s : State} (hbusy : s.busy = true) :
    sendOp eng d c s = .undef .controlWriteWhileBusy :=
  transfer_busy eng c _ (s := s.writeMdr (d.setWidth 32)) hbusy

/-- A command whose body is undefined where it begins is refused for that reason. -/
theorem command_undef {ok : State → Bool} {body : State → Run Response} {s : State} {r : Refusal}
    (hexec : s.executing = false) (hok : ok s = true) (hbody : body s.accept = .undef r) :
    command ok body s = .refused r := by
  rw [command_eq, if_neg (by simp [hexec]), if_pos hok, hbody, Run.respond_undef]

theorem busCommand_busy {i : Instr} {s : State} (hbus : isBusCommand i = true)
    (hexec : s.executing = false) (hmfe : s.mfe = true) (hbusy : s.busy = true) :
    exec i s = .refused .controlWriteWhileBusy := by
  cases i with
  | sendByte d c =>
    rw [exec, execSendByte]
    exact command_undef hexec hmfe (by rw [sendOp_busy _ _ _ (s := s.accept) hbusy]; rfl)
  | recvByte c =>
    rw [exec, execRecvByte]
    exact command_undef hexec hmfe (by rw [recvOp, transfer_busy _ _ _ (s := s.accept) hbusy]; rfl)
  | readReg r =>
    rw [exec, execReadReg]
    exact command_undef hexec hmfe (by
      rw [readRegOp, sendOp_busy _ _ _ (s := dirOp false { s.accept with rega := r }) hbusy]; rfl)
  | writeReg16 r v =>
    rw [exec, execWriteReg16]
    exact command_undef hexec hmfe (by
      rw [writeRegOp, sendOp_busy _ _ _ (s := dirOp false { s.accept with rega := r, val := v }) hbusy]
      rfl)
  | _ => cases hbus

/-- Settles O25: a control word asks `BUSY` first, and so does the first control write of a bus command. -/
theorem controlWriteRefusedWhileBusy : Obligations.ControlWriteRefusedWhileBusy := by
  refine ⟨fun i c s hc => ?_, fun i s => busCommand_busy⟩
  rw [exec_control hc, controlStep_eq]
  cases s.busy <;> simp

/-! ### The symbols against a script (R107 to R111) -/

section
variable {s : State} {w : Wave} {ws : List Wave} (hslave : s.slave = .scripted (w :: ws))

include hslave

theorem start_scripted (hw : w.proceeds = true) :
    ∃ l, (if s.own = .idle then lineSymbols.start s else lineSymbols.repStart s) = .done ()
      { s with line := l, trace := s.trace ++ [startEvent s.own], slave := .scripted ws } := by
  unfold startEvent
  split
  · rw [lineSymbols_start, State.wave_scripted _ hslave, if_pos hw, symbolEnd_scripted _ _ _ hslave]
    exact ⟨_, rfl⟩
  · rw [lineSymbols_repStart, State.wave_scripted _ hslave, if_pos hw,
      symbolEnd_scripted _ _ _ hslave]
    exact ⟨_, rfl⟩

theorem lineSymbols_stop_scripted (hw : w.proceeds = true) :
    lineSymbols.stop s = .done () { s with
      line := s.line.afterStop, trace := s.trace ++ [.stop], slave := .scripted ws } := by
  rw [lineSymbols_stop, State.wave_scripted _ hslave, if_pos hw, symbolEnd_scripted _ _ _ hslave]
  rfl

theorem lineSymbols_tx_scripted {v : Byte} {nack : Bool}
    (hw : w.tx v = some (if nack then .nack else .ack)) :
    lineSymbols.tx v s = .done (if nack then .nack else .ack) { s with
      line := Line.heldWith 0, trace := s.trace ++ [.txByte v nack], slave := .scripted ws } := by
  rw [lineSymbols_tx_done (by rw [State.wave_scripted _ hslave, hw]) (by cases nack <;> simp),
    symbolEnd_scripted _ _ _ hslave]
  cases nack <;> rfl

theorem lineSymbols_tx_lost_scripted {v : Byte} (hw : w.tx v = some .lost) :
    ∃ l, lineSymbols.tx v s = .done .lost { s with
      line := l, trace := s.trace ++ [.txLost v], slave := .scripted ws } := by
  obtain ⟨l, hlost⟩ := lineSymbols_tx_lost (by rw [State.wave_scripted _ hslave, hw])
  exact ⟨l, by rw [hlost, symbolEnd_scripted _ _ _ hslave]⟩

theorem lineSymbols_rx_scripted (a : Bool) {v : Byte} (hw : w.rx = some v) :
    lineSymbols.rx a s = .done v { s with
      line := { Line.heldWith v with sdaO := a }, trace := s.trace ++ [.rxByte v a],
      slave := .scripted ws } := by
  rw [lineSymbols_rx_done (by rw [State.wave_scripted _ hslave, hw]),
    symbolEnd_scripted _ _ _ hslave]

/-! ### The phases against a script (R87 to R90) -/

theorem dataPhase_sends (c : Ctl) (hown : s.own ≠ .rx) {nack : Bool}
    (hw : w.tx s.mdrTx = some (if nack then .nack else .ack)) :
    dataPhase lineSymbols c s = .done (if nack then .nack else .ack) { s with
      error := s.error || nack, datack := s.datack || nack, line := Line.heldWith 0,
      trace := s.trace ++ [.txByte s.mdrTx nack], slave := .scripted ws } := by
  rw [dataPhase, if_neg hown, transmitPhase, lineSymbols_tx_scripted hslave hw]
  cases nack <;> simp [State.dataNack]

theorem dataPhase_loses (c : Ctl) (hown : s.own ≠ .rx) (hw : w.tx s.mdrTx = some .lost) :
    ∃ l : Line, l.sclO = true ∧ l.sdaO = true ∧ dataPhase lineSymbols c s = .done .lost { s with
      busy := false, error := true, own := .idle, line := l,
      trace := s.trace ++ [.txLost s.mdrTx], slave := .scripted ws } := by
  obtain ⟨l, hlost⟩ := lineSymbols_tx_lost_scripted hslave hw
  refine ⟨l.release, rfl, rfl, ?_⟩
  rw [dataPhase, if_neg hown, transmitPhase, hlost]
  rfl

theorem dataPhase_receives (c : Ctl) (hown : s.own = .rx) {v : Byte} (hw : w.rx = some v) :
    dataPhase lineSymbols c s = .done .ack { s with
      mdrRx := v, line := { Line.heldWith v with sdaO := !ctlAckBit c },
      trace := s.trace ++ [.rxByte v (!ctlAckBit c)], slave := .scripted ws } := by
  rw [dataPhase, if_pos hown, receivePhase, lineSymbols_rx_scripted hslave _ hw]
  rfl

end

section
variable {s : State} {w x : Wave} {ws : List Wave} (hslave : s.slave = .scripted (w :: x :: ws))
  (hw : w.proceeds = true)

include hslave hw

theorem addressPhase_scripted {nack : Bool} (hx : x.tx s.msa = some (if nack then .nack else .ack)) :
    addressPhase lineSymbols s = .done (if nack then .nack else .ack) { s with
      own := latched s, error := s.error || nack, adrack := s.adrack || nack,
      line := Line.heldWith 0, trace := s.trace ++ [startEvent s.own, .txByte s.msa nack],
      slave := .scripted ws } := by
  obtain ⟨l, hstart⟩ := start_scripted hslave hw
  rw [addressPhase, hstart, Res.bind_done, lineSymbols_tx_scripted rfl hx]
  cases nack <;> simp [State.addressNack, State.latchDirection, latched]

theorem addressPhase_loses (hx : x.tx s.msa = some .lost) :
    ∃ l : Line, l.sclO = true ∧ l.sdaO = true ∧ addressPhase lineSymbols s = .done .lost { s with
      busy := false, error := true, own := .idle, line := l,
      trace := s.trace ++ [startEvent s.own, .txLost s.msa], slave := .scripted ws } := by
  obtain ⟨l, hstart⟩ := start_scripted hslave hw
  obtain ⟨l', hlost⟩ := lineSymbols_tx_lost_scripted (v := s.msa) (s := State.latchDirection { s with
    line := l, trace := s.trace ++ [startEvent s.own], slave := .scripted (x :: ws) }) rfl hx
  refine ⟨l'.release, rfl, rfl, ?_⟩
  rw [addressPhase, hstart, Res.bind_done, hlost]
  simp [State.arbitrationLost, State.latchDirection]

end

/-- The finish after a byte, with a slave that lets through the Stop, if there is one (R90). -/
theorem finishPhase_scripted {c : Ctl} {s : State} {sh : Byte} {b : Bool} {ws : List Wave}
    (hline : s.line = { Line.heldWith sh with sdaO := b }) (hslave : s.slave = .scripted ws)
    (hstop : stopProceeds c ws = true) :
    (finishPhase lineSymbols c s).state = { s with
      busy := false, own := if ctlStopBit c then .idle else s.own,
      line := if ctlStopBit c then Line.stoppedWith sh else Line.heldWith sh,
      trace := s.trace ++ if ctlStopBit c then [.stop] else [],
      slave := .scripted (if ctlStopBit c then ws.tail else ws) } := by
  unfold finishPhase
  cases hc : ctlStopBit c with
  | false => simp [State.held, hline, hslave, Line.hold, Line.heldWith]
  | true =>
    cases ws with
    | nil => simp [stopProceeds, hc] at hstop
    | cons w ws =>
      rw [if_pos rfl, lineSymbols_stop_scripted hslave (by simpa [stopProceeds, hc] using hstop)]
      simp [State.stopped, hline, Line.afterStop, Line.heldWith, Line.stoppedWith]

/-! ### A whole operation against a script -/

section
variable {c : Ctl} {s : State}

theorem dataDirection_of_start (hstart : ctlStartBit c = true) : dataDirection c s = latched s :=
  if_pos hstart

theorem dataDirection_of_not_start (hstart : ctlStartBit c = false) : dataDirection c s = s.own :=
  if_neg (by simp [hstart])

theorem openingEvents_of_start (hstart : ctlStartBit c = true) :
    openingEvents c s = [startEvent s.own, .txByte s.msa false] := if_pos hstart

theorem openingEvents_of_not_start (hstart : ctlStartBit c = false) : openingEvents c s = [] :=
  if_neg (by simp [hstart])

theorem latched_of_write (h : msaRead s.msa = false) : latched s = .tx := if_neg (by simp [h])

theorem latched_of_read (h : msaRead s.msa = true) : latched s = .rx := if_pos h

end

/-- A Stop alone on an owned bus (R86 step 4). -/
theorem engine_stopAlone {c : Ctl} {s : State} {w : Wave} {ws : List Wave}
    (hrun : ctlRunBit c = false) (hstop : ctlStopBit c = true) (hmfe : s.mfe = true)
    (hown : s.own ≠ .idle) (hslave : s.slave = .scripted (w :: ws)) (hw : w.proceeds = true) :
    engine c s = s.afterStopAlone c ws := by
  rw [engine, engineWith_stop _ _ _ hmfe hrun hstop hown, stopOperation,
    lineSymbols_stop_scripted (s := ({ s with ctl := c } : State).startStopOp) hslave hw]
  rfl

/-- The script brings an operation to its data byte, and `ws` are the waves left then: nothing comes before
the byte in an open transaction, and with START a Start and an address byte that is acknowledged (R86
step 5, R87). -/
inductive Opens (c : Ctl) (s : State) (ws : List Wave) : Prop where
  | continued : ctlStartBit c = false → s.own ≠ .idle → s.slave = .scripted ws → Opens c s ws
  | addressed (w x : Wave) : ctlStartBit c = true → s.slave = .scripted (w :: x :: ws) →
      w.proceeds = true → x.tx s.msa = some .ack → Opens c s ws

/-- The state in which an operation begins its data byte, `l` the lines then. -/
def State.atData (c : Ctl) (l : Line) (ws : List Wave) (s : State) : State :=
  { s with ctl := c, busy := true, error := false, adrack := false, datack := false,
           own := dataDirection c s, line := l, trace := s.trace ++ openingEvents c s,
           slave := .scripted ws }

/-- What comes before the data byte ends there (R86 step 5). -/
theorem Opens.opening {c : Ctl} {s : State} {ws : List Wave} (hopens : Opens c s ws) :
    (ctlStartBit c = true ∨ s.own ≠ .idle) ∧ ∃ l,
      (if ctlStartBit c then addressPhase lineSymbols ({ s with ctl := c } : State).startByteOp
        else .done .ack ({ s with ctl := c } : State).startByteOp) = .done .ack (s.atData c l ws) := by
  cases hopens with
  | continued hstart hown hslave =>
    refine ⟨.inr hown, { s.line with psc := 0, tickcnt := 0 }, ?_⟩
    rw [if_neg (by simp [hstart])]
    simp [State.atData, State.startByteOp, dataDirection_of_not_start hstart,
      openingEvents_of_not_start hstart, ← hslave]
  | addressed w x hstart hslave hw hx =>
    refine ⟨.inl hstart, Line.heldWith 0, ?_⟩
    rw [if_pos hstart]
    refine (addressPhase_scripted (s := ({ s with ctl := c } : State).startByteOp) (nack := false)
      hslave hw hx).trans ?_
    rw [State.atData, dataDirection_of_start hstart, openingEvents_of_start hstart]
    rfl

section
variable {c : Ctl} {s : State} (hmfe : s.mfe = true) (hrun : ctlRunBit c = true)

include hmfe hrun

/-- An operation that comes to its data byte is the data phase and, unless arbitration is lost in it, the
finish (R86 step 5). -/
theorem engine_of_opens {ws : List Wave} (hopens : Opens c s ws) :
    ∃ l, ∀ a u, dataPhase lineSymbols c (s.atData c l ws) = .done a u →
      engine c s = if a = .lost then u else (finishPhase lineSymbols c u).state := by
  obtain ⟨ho, l, hop⟩ := hopens.opening
  refine ⟨l, fun a u hdata => ?_⟩
  rw [engine, engineWith_byte _ _ _ hmfe hrun ho, byteOperation, hop, Res.bind_done]
  dsimp only
  rw [hdata]
  cases a <;> rfl

/-- The data byte goes out and is answered (R88). -/
theorem engine_sends {y : Wave} {ws : List Wave} {nack : Bool} (hopens : Opens c s (y :: ws))
    (hdir : dataDirection c s ≠ .rx) (hy : y.tx s.mdrTx = some (if nack then .nack else .ack))
    (hstop : stopProceeds c ws = true) :
    engine c s = s.afterByte c (dataDirection c s) 0 false nack
      (openingEvents c s ++ [.txByte s.mdrTx nack]) ws := by
  obtain ⟨l, hop⟩ := engine_of_opens hmfe hrun hopens
  rw [hop _ _ (dataPhase_sends rfl c hdir hy), if_neg (by cases nack <;> simp),
    finishPhase_scripted (sh := 0) (b := true) rfl rfl hstop]
  simp [State.atData, State.afterByte]

/-- A byte comes in (R89). -/
theorem engine_receives {y : Wave} {ws : List Wave} {v : Byte} (hopens : Opens c s (y :: ws))
    (hdir : dataDirection c s = .rx) (hy : y.rx = some v) (hstop : stopProceeds c ws = true) :
    engine c s = State.afterByte c .rx v false false
      (openingEvents c s ++ [.rxByte v (!ctlAckBit c)]) ws { s with mdrRx := v } := by
  obtain ⟨l, hop⟩ := engine_of_opens hmfe hrun hopens
  rw [hop _ _ (dataPhase_receives rfl c hdir hy), if_neg (by simp),
    finishPhase_scripted (sh := v) (b := !ctlAckBit c) rfl rfl hstop]
  simp [State.atData, State.afterByte, hdir]

/-- Arbitration is lost in the data byte (R115). -/
theorem engine_loses_data {y : Wave} {ws : List Wave} (hopens : Opens c s (y :: ws))
    (hdir : dataDirection c s ≠ .rx) (hy : y.tx s.mdrTx = some .lost) :
    ∃ l : Line, l.sclO = true ∧ l.sdaO = true ∧
      engine c s = s.afterLoss c l (openingEvents c s ++ [.txLost s.mdrTx]) ws := by
  obtain ⟨l, hop⟩ := engine_of_opens hmfe hrun hopens
  obtain ⟨l', hscl, hsda, hdata⟩ := dataPhase_loses (s := s.atData c l (y :: ws)) rfl c hdir hy
  refine ⟨l', hscl, hsda, ?_⟩
  rw [hop _ _ hdata, if_pos rfl]
  simp [State.atData, State.afterLoss]

section
variable {w x : Wave} {ws : List Wave} (hstart : ctlStartBit c = true)
  (hslave : s.slave = .scripted (w :: x :: ws)) (hw : w.proceeds = true)

include hstart hslave hw

/-- The address byte is not acknowledged: there is no data phase (R87). -/
theorem engine_addressNack (hx : x.tx s.msa = some .nack) (hstop : stopProceeds c ws = true) :
    engine c s = s.afterByte c (latched s) 0 true false [startEvent s.own, .txByte s.msa true] ws := by
  rw [engine, engineWith_byte _ _ _ hmfe hrun (.inl hstart), byteOperation, if_pos hstart,
    addressPhase_scripted (s := ({ s with ctl := c } : State).startByteOp) (nack := true) hslave hw hx]
  exact finishPhase_scripted (sh := 0) (b := true) rfl rfl hstop

/-- Arbitration is lost in the address byte (R115). -/
theorem engine_loses_address (hx : x.tx s.msa = some .lost) :
    ∃ l : Line, l.sclO = true ∧ l.sdaO = true ∧
      engine c s = s.afterLoss c l [startEvent s.own, .txLost s.msa] ws := by
  obtain ⟨l, hscl, hsda, haddr⟩ :=
    addressPhase_loses (s := ({ s with ctl := c } : State).startByteOp) hslave hw hx
  refine ⟨l, hscl, hsda, ?_⟩
  rw [engine, engineWith_byte _ _ _ hmfe hrun (.inl hstart), byteOperation, if_pos hstart, haddr]
  rfl

end

end

/-! ### The control words against a script (R91 to R106) -/

/-- Settles O26: a Stop alone. -/
theorem stopWordReleasesBus : Obligations.StopWordReleasesBus := by
  intro i c s w ws hc hrun hstop hidle hmfe hown hslave hw
  rw [exec_control_next hc hidle, engine_stopAlone hrun hstop hmfe hown hslave hw]
  simp [State.afterStopAlone, hidle]

/-- Settles O27: the data byte of an open transaction addressed for write. -/
theorem runWordTransmits : Obligations.RunWordTransmits := by
  intro i c s w ws nack hc hrun hstart hidle hmfe hown hslave hw hstop
  have hdir : dataDirection c s = .tx := (dataDirection_of_not_start hstart).trans hown
  rw [exec_control_next hc hidle, engine_sends hmfe hrun
    (.continued hstart (by simp [hown]) hslave) (by simp [hdir]) hw hstop, hdir,
    openingEvents_of_not_start hstart, List.nil_append]

/-- Settles O28: the data byte of an open transaction addressed for read. -/
theorem runWordReceives : Obligations.RunWordReceives := by
  intro i c s w ws v hc hrun hstart hidle hmfe hown hslave hw hstop
  rw [exec_control_next hc hidle, engine_receives hmfe hrun
    (.continued hstart (by simp [hown]) hslave) ((dataDirection_of_not_start hstart).trans hown)
    hw hstop, openingEvents_of_not_start hstart, List.nil_append]

/-- Settles O29: the data byte after an address byte with `RS = 0`. -/
theorem startWordTransmits : Obligations.StartWordTransmits := by
  intro i c s w x y ws nack hc hrun hstart hidle hmfe hread hslave hw hx hy hstop
  have hdir : dataDirection c s = .tx := (dataDirection_of_start hstart).trans (latched_of_write hread)
  rw [exec_control_next hc hidle, engine_sends hmfe hrun
    (.addressed w x hstart hslave hw hx) (by simp [hdir]) hy hstop, hdir, openingEvents_of_start hstart]
  rfl

/-- Settles O30: the data byte after an address byte with `RS = 1`. -/
theorem startWordReceives : Obligations.StartWordReceives := by
  intro i c s w x y ws v hc hrun hstart hidle hmfe hread hslave hw hx hy hstop
  rw [exec_control_next hc hidle, engine_receives hmfe hrun (.addressed w x hstart hslave hw hx)
    ((dataDirection_of_start hstart).trans (latched_of_read hread)) hy hstop,
    openingEvents_of_start hstart]
  rfl

/-- Settles O31: no data phase follows. -/
theorem startWordAddressNack : Obligations.StartWordAddressNack := by
  intro i c s w x ws hc hrun hstart hidle hmfe hslave hw hx hstop
  rw [exec_control_next hc hidle, engine_addressNack hmfe hrun hstart hslave hw hx hstop]
  rfl

/-- Arbitration lost under a control write, in the three places of R115: in the address byte, in the data byte
after it, and in the data byte of an open transaction. -/
inductive LosesArbitration (c : Ctl) (s : State) : List BusEvent → List Wave → Prop where
  | address (w x : Wave) (ws : List Wave) : ctlStartBit c = true → s.slave = .scripted (w :: x :: ws) →
      w.proceeds = true → x.tx s.msa = some .lost →
      LosesArbitration c s [startEvent s.own, .txLost s.msa] ws
  | dataAfterAddress (w x y : Wave) (ws : List Wave) : ctlStartBit c = true → msaRead s.msa = false →
      s.slave = .scripted (w :: x :: y :: ws) → w.proceeds = true → x.tx s.msa = some .ack →
      y.tx s.mdrTx = some .lost →
      LosesArbitration c s [startEvent s.own, .txByte s.msa false, .txLost s.mdrTx] ws
  | dataContinued (w : Wave) (ws : List Wave) : ctlStartBit c = false → s.own = .tx →
      s.slave = .scripted (w :: ws) → w.tx s.mdrTx = some .lost →
      LosesArbitration c s [.txLost s.mdrTx] ws

theorem engine_loses {c : Ctl} {s : State} {es : List BusEvent} {ws : List Wave} (hmfe : s.mfe = true)
    (hrun : ctlRunBit c = true) (h : LosesArbitration c s es ws) :
    ∃ l : Line, l.sclO = true ∧ l.sdaO = true ∧ engine c s = s.afterLoss c l es ws := by
  cases h with
  | address w x ws hstart hslave hw hx => exact engine_loses_address hmfe hrun hstart hslave hw hx
  | dataAfterAddress w x y ws hstart hread hslave hw hx hy =>
    have hdir : dataDirection c s = .tx := (dataDirection_of_start hstart).trans (latched_of_write hread)
    have hloss := engine_loses_data hmfe hrun (.addressed w x hstart hslave hw hx) (by simp [hdir]) hy
    rwa [openingEvents_of_start hstart] at hloss
  | dataContinued w ws hstart hown hslave hw =>
    have hdir : dataDirection c s = .tx := (dataDirection_of_not_start hstart).trans hown
    have hloss := engine_loses_data hmfe hrun (.continued hstart (by simp [hown]) hslave)
      (by simp [hdir]) hw
    rwa [openingEvents_of_not_start hstart] at hloss

theorem exec_control_loses {i : Instr} {c : Ctl} {s : State} {es : List BusEvent} {ws : List Wave}
    (hc : controlWordOf i = some c) (hrun : ctlRunBit c = true) (hidle : s.busy = false)
    (hmfe : s.mfe = true) (h : LosesArbitration c s es ws) :
    ∃ l : Line, l.sclO = true ∧ l.sdaO = true ∧ exec i s = .next (s.afterLoss c l es ws) := by
  rw [exec_control_next hc hidle]
  obtain ⟨l, hscl, hsda, hloss⟩ := engine_loses hmfe hrun h
  exact ⟨l, hscl, hsda, by rw [hloss]⟩

/-- Settles O32: in each of the three places the control word is the engine's loss. -/
theorem arbitrationLoss : Obligations.ArbitrationLoss := by
  refine ⟨fun i c s w x ws hc hrun hstart hidle hmfe hslave hw hx => ?_,
    fun i c s w x y ws hc hrun hstart hidle hmfe hread hslave hw hx hy => ?_,
    fun i c s w ws hc hrun hstart hidle hmfe hown hslave hw => ?_⟩
  · exact exec_control_loses hc hrun hidle hmfe (.address w x ws hstart hslave hw hx)
  · exact exec_control_loses hc hrun hidle hmfe (.dataAfterAddress w x y ws hstart hread hslave hw hx hy)
  · exact exec_control_loses hc hrun hidle hmfe (.dataContinued w ws hstart hown hslave hw)

end Sys2Proof.Machine

/-! PROOFS. The byte commands as one control write and what follows it (spec/41_byte_transfer.md R123 to R127,
spec/60_exceptions.md R154), and how `TRACE` counts Starts and Stops (spec/40_engine.md R118). -/

namespace Sys2Proof.Machine

/-! ### A byte command, whole -/

/-- What a byte command leaves that makes the control write `c` in the state `u` and answers a success with
`ok`: it hangs, ends with that answer, or forces a Stop and ends with the flags (R123 to R127). -/
def byteCommandEnd (ok : State → Response) (c : Ctl) (u : State) : State :=
  let t := engine c u
  if t.busy then t
  else if t.errors = 0 then t.respond (ok t)
  else if (engine 0x4 t).busy then engine 0x4 t
  else (engine 0x4 t).respond (.err t.errors)

/-- The state in which a byte command makes its control write: accepted, and `MDR_TX` holding `m` (R14,
R123). -/
def State.sending (m : Byte) (s : State) : State := { s.accept with mdrTx := m }

@[simp] theorem State.sending_own (m : Byte) (s : State) : (s.sending m).own = s.own := rfl

/-- SEND_BYTE answers a success with no data (R123). -/
def sendAnswer (_ : State) : Response := .ok 0 0

/-- RECV_BYTE answers a success with the byte that `MDR_RX` then holds (R124). -/
def recvAnswer (t : State) : Response := .ok 0 (t.mdrRx.setWidth 16)

theorem okWord_byte (b : Byte) : (Response.ok 0 (b.setWidth 16)).word = b.setWidth 32 := by
  simp [Response.word]

theorem recvAnswer_word (t : State) : (recvAnswer t).word = t.mdrRx.setWidth 32 := okWord_byte _

theorem ready_iff (s : State) : s.ready = true ↔ s.executing = false ∧ s.busy = false ∧ s.mfe = true := by
  simp [State.ready, and_assoc]

/-- The control write, the wait and the error test, as the port answers them (R123, R124, R126). -/
theorem transfer_respond {α : Type} {response : Xfer α → Response} {a : State → α}
    {ok : State → Response} (herr : ∀ f, response (.err f) = .err f)
    (hok : ∀ t, response (.ok (a t)) = ok t) (c : Ctl) {u : State} (hidle : u.busy = false) :
    ((transfer engine c (fun t => .done (.ok (a t)) t) u).bind fun x s => .done (response x) s).respond =
      .next (byteCommandEnd ok c u) := by
  rw [transfer_eq, if_neg (by simp [hidle]), byteCommandEnd]
  split_ifs
  · rfl
  · rw [Run.bind_done, hok, Run.respond_done]
  · rfl
  · rw [Run.bind_done, herr, Run.respond_done]

section
variable {c : Ctl} {s : State} (hready : s.ready = true)

include hready

theorem exec_sendByte (d : Byte) :
    exec (.sendByte d c) s = .next (byteCommandEnd sendAnswer c (s.sending d)) := by
  obtain ⟨hexec, hidle, hmfe⟩ := (ready_iff s).mp hready
  have hmdr : s.accept.writeMdr (d.setWidth 32) = s.sending d := by
    simp [State.writeMdr, State.sending]
  rw [exec, execSendByte, command_eq, if_neg (by simp [hexec]),
    if_pos (show busEnabled s = true from hmfe), sendOp, memWrite_mdr, Run.bind_done, hmdr]
  exact transfer_respond (a := fun _ => ()) (fun _ => rfl) (fun _ => rfl) c hidle

theorem exec_recvByte :
    exec (.recvByte c) s = .next (byteCommandEnd recvAnswer c (s.sending s.mdrTx)) := by
  obtain ⟨hexec, hidle, hmfe⟩ := (ready_iff s).mp hready
  rw [exec, execRecvByte, command_eq, if_neg (by simp [hexec]),
    if_pos (show busEnabled s = true from hmfe), recvOp]
  exact transfer_respond (fun _ => rfl) (fun t => by simp [Xfer.byteResponse, recvAnswer]) c hidle

/-- Both byte commands at once, `m` what `MDR_TX` holds at the control write. -/
theorem exec_byteCommand {i : Instr} {m : Byte}
    (hi : i = .sendByte m c ∨ (i = .recvByte c ∧ m = s.mdrTx)) : ∃ ok,
    exec i s = .next (byteCommandEnd ok c (s.sending m)) := by
  rcases hi with rfl | ⟨rfl, rfl⟩
  · exact ⟨sendAnswer, exec_sendByte hready m⟩
  · exact ⟨recvAnswer, exec_recvByte hready⟩

end

section
variable {ok : State → Response} {c : Ctl} {u t : State}

theorem byteCommandEnd_ok (ht : engine c u = t) (hend : t.busy = false) (hflags : t.errors = 0) :
    byteCommandEnd ok c u = t.respond (ok t) := by
  rw [byteCommandEnd, ht]
  simp [hend, hflags]

theorem byteCommandEnd_err (ht : engine c u = t) (hend : t.busy = false) (hflags : t.errors ≠ 0)
    {v : State} (hv : engine 0x4 t = v) (hstop : v.busy = false) :
    byteCommandEnd ok c u = v.respond (.err t.errors) := by
  rw [byteCommandEnd, ht, if_neg (by simp [hend]), if_neg hflags, hv, if_neg (by simp [hstop])]

/-- The forced Stop that finds the engine idle does nothing (R86 step 2, R127). -/
theorem engine_stop_idle (hown : u.own = .idle) : engine 0x4 u = { u with ctl := 0x4 } :=
  engineWith_idle _ _ _ (.inr (.inl ⟨rfl, .inr hown⟩))

theorem byteCommandEnd_err_idle (ht : engine c u = t) (hend : t.busy = false) (hflags : t.errors ≠ 0)
    (hown : t.own = .idle) :
    byteCommandEnd ok c u = { t with ctl := 0x4 }.respond (.err t.errors) :=
  byteCommandEnd_err ht hend hflags (engine_stop_idle hown) hend

theorem afterByte_errors_ok (d : Own) (sh : Byte) (es : List BusEvent) (ws : List Wave) :
    (u.afterByte c d sh false false es ws).errors = 0 :=
  (State.errors_eq_zero _).mpr ⟨rfl, rfl, rfl⟩

theorem afterLoss_errors (l : Line) (es : List BusEvent) (ws : List Wave) :
    (u.afterLoss c l es ws).errors = 0b001 := by
  simp [State.errors, State.afterLoss]

end

/-- Settles O35: the data byte of an open transaction, and the Stop alone, before the answer. -/
theorem sendByteContinues : Obligations.SendByteContinues := by
  constructor
  · intro d c s w ws hready hrun hstart hown hslave hw hstop
    obtain ⟨-, -, hmfe⟩ := (ready_iff s).mp hready
    have hdir : dataDirection c (s.sending d) = .tx :=
      (dataDirection_of_not_start hstart).trans hown
    have hsent := engine_sends (s := s.sending d) (nack := false) hmfe hrun
      (.continued hstart (by simp [hown]) hslave) (by simp [hdir]) hw hstop
    rw [hdir, openingEvents_of_not_start hstart] at hsent
    rw [exec_sendByte hready, byteCommandEnd_ok hsent rfl (afterByte_errors_ok ..)]
    rfl
  · intro c s w ws hready hrun hstop hown hslave hw
    obtain ⟨-, -, hmfe⟩ := (ready_iff s).mp hready
    have hclosed (d : Byte) : engine c (s.sending d) = _ :=
      engine_stopAlone (s := s.sending d) hrun hstop hmfe hown hslave hw
    refine ⟨fun hflags => ⟨fun d => ?_, ?_⟩, fun hflags => ⟨fun d => ?_, ?_⟩⟩
    · rw [exec_sendByte hready, byteCommandEnd_ok (hclosed d) rfl hflags]
      rfl
    · rw [exec_recvByte hready, byteCommandEnd_ok (hclosed s.mdrTx) rfl hflags, State.respond,
        recvAnswer_word]
      rfl
    · rw [exec_sendByte hready, byteCommandEnd_err_idle (hclosed d) rfl hflags rfl]
      rfl
    · rw [exec_recvByte hready, byteCommandEnd_err_idle (hclosed s.mdrTx) rfl hflags rfl]
      rfl

/-- The loss leaves the engine idle with `ERROR` alone, and the forced Stop finds it so (R115, R150). -/
theorem exec_byteCommand_loses {i : Instr} {c : Ctl} {m : Byte} {s : State} {es : List BusEvent}
    {ws : List Wave} (hi : i = .sendByte m c ∨ (i = .recvByte c ∧ m = s.mdrTx))
    (hready : s.ready = true) (hrun : ctlRunBit c = true)
    (h : LosesArbitration c (s.sending m) es ws) :
    ∃ l : Line, l.sclO = true ∧ l.sdaO = true ∧ exec i s = .next ({ s with
      mdrTx := m, executing := false, rsp := 0x81000000, rspValid := true }.afterLoss 0x4 l es ws) := by
  obtain ⟨-, -, hmfe⟩ := (ready_iff s).mp hready
  obtain ⟨ok, hexec⟩ := exec_byteCommand hready hi
  obtain ⟨l, hscl, hsda, hloss⟩ := engine_loses (s := s.sending m) hmfe hrun h
  refine ⟨l, hscl, hsda, ?_⟩
  rw [hexec, byteCommandEnd_err_idle hloss rfl (by rw [afterLoss_errors]; decide) rfl,
    afterLoss_errors]
  rfl

/-- Settles O39: each of the three places is a loss of the command's control write. -/
theorem byteCommandArbitrationLoss : Obligations.ByteCommandArbitrationLoss := by
  refine ⟨fun i c m s w x ws hi hready hrun hstart hslave hw hx => ?_,
    fun i c m s w x y ws hi hready hrun hstart hread hslave hw hx hy => ?_,
    fun i c m s w ws hi hready hrun hstart hown hslave hw => ?_⟩
  · exact exec_byteCommand_loses hi hready hrun (.address w x ws hstart hslave hw hx)
  · exact exec_byteCommand_loses hi hready hrun (.dataAfterAddress w x y ws hstart hread hslave hw hx hy)
  · exact exec_byteCommand_loses hi hready hrun (.dataContinued w ws hstart hown hslave hw)

/-- Settles O40: the control write latches `CTL` alone, so the flags are those of before. -/
theorem byteCommandWithNothingToDo : Obligations.ByteCommandWithNothingToDo := by
  intro c s hready hnothing
  obtain ⟨-, hidle, hmfe⟩ := (ready_iff s).mp hready
  have hlatch (d : Byte) : engine c (s.sending d) = { s.sending d with ctl := c } :=
    engineWith_idle _ _ _ (.inr hnothing)
  refine ⟨fun hflags => ⟨fun d => ?_, ?_⟩, fun hflags hown => ⟨fun d => ?_, ?_⟩,
    fun hflags hown w ws hslave hw => ?_⟩
  · rw [exec_sendByte hready, byteCommandEnd_ok (hlatch d) hidle hflags]
    rfl
  · rw [exec_recvByte hready, byteCommandEnd_ok (hlatch s.mdrTx) hidle hflags, State.respond,
      recvAnswer_word]
    rfl
  · rw [exec_sendByte hready, byteCommandEnd_err_idle (hlatch d) hidle hflags hown]
    rfl
  · rw [exec_recvByte hready, byteCommandEnd_err_idle (hlatch s.mdrTx) hidle hflags hown]
    rfl
  · have hforced (d : Byte) : engine 0x4 { s.sending d with ctl := c } = _ :=
      engine_stopAlone (c := 0x4) (s := { s.sending d with ctl := c }) rfl rfl hmfe hown hslave hw
    refine ⟨fun d => ?_, ?_⟩
    · rw [exec_sendByte hready, byteCommandEnd_err (hlatch d) hidle hflags (hforced d) rfl]
      rfl
    · rw [exec_recvByte hready, byteCommandEnd_err (hlatch s.mdrTx) hidle hflags (hforced s.mdrTx) rfl]
      rfl

/-! ### The byte that a successful byte command moved (R172) -/

/-- A byte command that ended without an error ended with the state its control write left. -/
theorem byteCommandEnd_answered {ok : State → Response} {c : Ctl} {u t : State}
    (ht : byteCommandEnd ok c u = t) (hexec : u.executing = true) (hend : t.executing = false)
    (hno : t.rsp.getLsbD 31 = false) : (engine c u).busy = false ∧ (engine c u).errors = 0 ∧
      t = (engine c u).respond (ok (engine c u)) := by
  have hhang (c' : Ctl) : (engine c' (engine c u)).executing = true := by
    rw [engine_executing, engine_executing, hexec]
  subst ht
  unfold byteCommandEnd at hend hno ⊢
  dsimp only at hend hno ⊢
  split_ifs at hend hno ⊢ with hbusy hflags
  · rw [engine_executing, hexec] at hend
    cases hend
  · exact ⟨by simpa using hbusy, hflags, rfl⟩
  · rw [hhang] at hend
    cases hend
  · have hbit (f : BitVec 3) : (Response.err f).word.getLsbD 31 = true := by revert f; decide
    exact absurd (hno.symm.trans (hbit _)) (by decide)

/-- A control write that begins a byte and leaves no flag moved the byte in the direction it has (R86 to
R90). -/
theorem engine_moves_byte {c : Ctl} {u : State} (hmfe : u.mfe = true) (hrun : ctlRunBit c = true)
    (hopen : ctlStartBit c = true ∨ u.own ≠ .idle) (hend : (engine c u).busy = false)
    (hflags : (engine c u).errors = 0) :
    ∃ e, DataByte c u (dataDirection c u) e false (engine c u).mdrRx ∧ (engine c u).trace =
      u.trace ++ openingEvents c u ++ e :: (if ctlStopBit c then [.stop] else []) := by
  have hout := engine_outcome c u
  generalize engine c u = t at hout hend hflags
  obtain ⟨hdatack, hadrack, herror⟩ := (State.errors_eq_zero t).mp hflags
  cases hout with
  | nothing h =>
    rcases h with hoff | ⟨hnot, -⟩ | ⟨hstart, hown⟩
    · simp [hoff] at hmfe
    · simp [hnot] at hrun
    · exact absurd hown (hopen.resolve_left (by simp [hstart]))
  | stop sl n _ h => simp [hrun] at h
  | stopStall l sl n _ h => simp [hrun] at h
  | ended d es a k v sh sl n _ _ _ hbyte _ =>
    cases hbyte with
    | addressNack => cases hadrack
    | data e k v hdata =>
      cases (hdatack : k = false)
      exact ⟨e, hdata, by simp [moved]⟩
  | lost => cases herror
  | stalled => cases hend

/-- Advised use of a byte command runs a byte in the direction of the command (93 U5, U6, U8, U9). -/
theorem byteAdvised_direction {c : Ctl} {d : Own} {s : State} (hd : d ≠ .idle)
    (h : byteAdvised c d s = true) : ctlRunBit c = true ∧ dataDirection c s = d ∧
      (ctlStartBit c = true ∨ s.own ≠ .idle) := by
  simp only [byteAdvised, Bool.and_eq_true] at h
  obtain ⟨⟨-, hrun⟩, hdir⟩ := h
  refine ⟨hrun, ?_⟩
  cases hstart : ctlStartBit c with
  | true =>
    refine ⟨?_, .inl rfl⟩
    rw [dataDirection_of_start hstart, latched]
    simp only [hstart, if_true, Bool.and_eq_true, beq_iff_eq] at hdir
    rw [hdir.2]
    cases d with
    | idle => exact absurd rfl hd
    | tx => rfl
    | rx => rfl
  | false =>
    simp only [hstart, Bool.false_eq_true, if_false, beq_iff_eq] at hdir
    exact ⟨(dataDirection_of_not_start hstart).trans hdir, .inr (hdir ▸ hd)⟩

/-- Settles O55: without a flag the operation ran to its finish, and its data byte has the direction of the
command. -/
theorem advisedUseMovesTheByte : Obligations.AdvisedUseMovesTheByte := by
  constructor
  · intro d c s t hready hadvised hrun h hend hrsp
    obtain ⟨-, -, hmfe⟩ := (ready_iff s).mp hready
    have hbyte : byteAdvised c .tx s = true := by
      have hne : c ≠ 0x4 := by rintro rfl; cases hrun
      simp only [State.advised, hmfe, Bool.true_and, Bool.or_eq_true, Bool.and_eq_true,
        beq_iff_eq] at hadvised
      exact hadvised.resolve_right fun h => hne h.1
    obtain ⟨-, hdir, hopen⟩ := byteAdvised_direction (by decide) hbyte
    rw [exec_sendByte hready] at h
    injection h with h
    obtain ⟨hbusy, hflags, rfl⟩ := byteCommandEnd_answered h rfl hend (by simp [hrsp])
    obtain ⟨e, hdata, htrace⟩ := engine_moves_byte (u := s.sending d) hmfe hrun hopen hbusy hflags
    refine ⟨openingEvents c (s.sending d), htrace.trans ?_⟩
    rw [show dataDirection c (s.sending d) = .tx from hdir] at hdata
    generalize (engine c (s.sending d)).mdrRx = v at hdata
    cases hdata
    rfl
  · intro c s t hready hadvised h hend hrsp
    obtain ⟨-, -, hmfe⟩ := (ready_iff s).mp hready
    have hbyte : byteAdvised c .rx s = true := by simpa [State.advised, hmfe] using hadvised
    obtain ⟨hrun, hdir, hopen⟩ := byteAdvised_direction (by decide) hbyte
    rw [exec_recvByte hready] at h
    injection h with h
    obtain ⟨hbusy, hflags, rfl⟩ := byteCommandEnd_answered h rfl hend hrsp
    obtain ⟨e, hdata, htrace⟩ := engine_moves_byte (u := s.sending s.mdrTx) hmfe hrun hopen hbusy hflags
    refine ⟨openingEvents c (s.sending s.mdrTx), (engine c (s.sending s.mdrTx)).mdrRx,
      recvAnswer_word _, htrace.trans ?_⟩
    rw [show dataDirection c (s.sending s.mdrTx) = .rx from hdir] at hdata
    generalize (engine c (s.sending s.mdrTx)).mdrRx = v at hdata
    cases hdata with
    | sent d k hne => exact absurd rfl hne
    | received v => rfl

/-! ### Starts and Stops in a trace (R118) -/

theorem phaseAfter_broken (es : List BusEvent) : phaseAfter .broken es = .broken := by
  induction es with
  | nil => rfl
  | cons e es ih => exact ih

theorem traceOk_iff (t : List BusEvent) : traceOk t = true ↔ tracePhase t ≠ .broken := by
  simp [traceOk]

/-- What a trace follows, it follows up to every point. -/
theorem traceOk_take {t : List BusEvent} (h : traceOk t = true) (n : Nat) :
    traceOk (t.take n) = true := by
  rw [traceOk_iff] at h ⊢
  intro hbroken
  rw [← List.take_append_drop n t, tracePhase_append, hbroken, phaseAfter_broken] at h
  exact h rfl

/-- How many Stops a trace that stands there can still take before its next Start: one, or none on an
idle bus. -/
def BusPhase.openStarts : BusPhase → Nat
  | .idle => 0
  | _ => 1

/-- A Stop needs an open transaction, and only a Start opens one (R118 a, c). -/
theorem BusPhase.openStarts_next {p : BusPhase} {e : BusEvent} (h : p.next e ≠ .broken) :
    (if isStop e then 1 else 0) + (p.next e).openStarts ≤
      (if isStart e then 1 else 0) + p.openStarts := by
  revert h
  unfold BusPhase.next
  split <;> simp [isStop, isStart, BusPhase.openStarts]

theorem countP_stop_le (p : BusPhase) (es : List BusEvent) (h : phaseAfter p es ≠ .broken) :
    es.countP isStop ≤ es.countP isStart + p.openStarts := by
  induction es generalizing p with
  | nil => simp
  | cons e es ih =>
    have hrest := ih (p.next e) h
    have hnext : p.next e ≠ .broken := by
      intro hbroken
      exact h ((congrArg (phaseAfter · es) hbroken).trans (phaseAfter_broken es))
    have hstep := BusPhase.openStarts_next hnext
    rw [List.countP_cons, List.countP_cons]
    omega

theorem State.Inv.traceOk {s : State} (hs : s.Inv) : traceOk s.trace = true := by
  obtain ⟨heng, -⟩ := s.inv_iff.mp hs
  rw [traceOk_iff]
  cases hbusy : s.busy with
  | true => exact (busOk_iff_of_busy hbusy).mp heng.bus
  | false =>
    rw [(busOk_iff_of_not_busy hbusy).mp heng.bus]
    exact ownPhase_ne_broken _

theorem stops_le_starts {t : List BusEvent} (h : traceOk t = true) (n : Nat) :
    ((t.take n).filter isStop).length ≤ ((t.take n).filter isStart).length := by
  rw [← List.countP_eq_length_filter, ← List.countP_eq_length_filter]
  exact countP_stop_le .idle _ ((traceOk_iff _).mp (traceOk_take h n))

/-- Settles O53: every Stop closes what a Start of its own has opened. -/
theorem stopsNeverExceedStarts : Obligations.StopsNeverExceedStarts :=
  ⟨fun _ n h => stops_le_starts h n, fun _ n hs => stops_le_starts hs.traceOk n⟩

end Sys2Proof.Machine

/-! PROOFS. A bus command ends if the slave never stalls (spec/41_byte_transfer.md R125, spec/60_exceptions.md
R160): the symbols a control word can put on the bus are counted, and no command needs more than eight. -/

namespace Sys2Proof.Machine

/-! ### Counting the symbols of a control write (spec/40_engine.md R86 to R90) -/

theorem Slave.answersFor_mono {sl : Slave} {m n : Nat} (hmn : m ≤ n) (h : sl.answersFor n) :
    sl.answersFor m := by
  cases sl with
  | unknown => exact h
  | sensor r => trivial
  | scripted ws =>
    obtain ⟨hlen, hwaves⟩ := h
    exact ⟨hmn.trans hlen, hwaves⟩

theorem Slave.answersFor_eight {sl : Slave} (h : sl.answers = true) : sl.answersFor 8 := by
  cases sl with
  | unknown => cases h
  | sensor r => trivial
  | scripted ws => simpa [Slave.answers, Slave.answersFor] using h

/-- The most symbols that a control word puts on the bus before its Stop: a Start, an address byte and a
data byte, or the data byte alone. -/
def byteSymbols (c : Ctl) : Nat := if ctlRunBit c then if ctlStartBit c then 3 else 1 else 0

/-- The most symbols that a control word puts on the bus. -/
def wordSymbols (c : Ctl) : Nat := byteSymbols c + if ctlStopBit c then 1 else 0

theorem wordSymbols_le_four (c : Ctl) : wordSymbols c ≤ 4 := by
  unfold wordSymbols byteSymbols
  split_ifs <;> omega

section
variable {c : Ctl} {s : State} {d : Own} {es : List BusEvent}

theorem length_openingEvents_succ (hrun : ctlRunBit c = true) :
    (openingEvents c s).length + 1 = byteSymbols c := by
  unfold openingEvents byteSymbols
  rw [if_pos hrun]
  split <;> rfl

theorem ByteEnd.length_le {a k : Bool} {v : Byte} (hrun : ctlRunBit c = true)
    (h : ByteEnd c s d es a k v) : es.length ≤ byteSymbols c := by
  cases h with
  | addressNack hstart => simp [byteSymbols, hrun, hstart]
  | data e k v _ => exact (List.length_append.trans (length_openingEvents_succ hrun)).le

theorem ByteLost.length_le (hrun : ctlRunBit c = true) (h : ByteLost c s es) :
    es.length ≤ byteSymbols c := by
  cases h with
  | address hstart => simp [byteSymbols, hrun, hstart]
  | data _ => exact (List.length_append.trans (length_openingEvents_succ hrun)).le

/-- An operation stalls in a symbol that its control word asks for. -/
theorem ByteStall.length_lt (hrun : ctlRunBit c = true) (h : ByteStall c s d es) :
    es.length + 1 ≤ wordSymbols c := by
  have hword : byteSymbols c ≤ wordSymbols c := Nat.le_add_right ..
  cases h with
  | start hstart => exact hword.trans' (by simp [byteSymbols, hrun, hstart])
  | address hstart => exact hword.trans' (by simp [byteSymbols, hrun, hstart])
  | data => exact (length_openingEvents_succ hrun).trans_le hword
  | stop d es a k v hend hstop =>
    rw [wordSymbols, if_pos hstop]
    exact Nat.succ_le_succ (hend.length_le hrun)

end

/-- A slave that answers the symbols a control word asks for brings its operation to an end, and answers
the others afterwards. -/
theorem engine_ends {c : Ctl} {s : State} {k : Nat} (hidle : s.busy = false)
    (h : s.slave.answersFor (wordSymbols c + k)) :
    (engine c s).busy = false ∧ (engine c s).slave.answersFor k := by
  have hfirst {n : Nat} (hn : n ≤ wordSymbols c) : s.slave.answersFor n :=
    Slave.answersFor_mono (hn.trans (Nat.le_add_right ..)) h
  have hleft {n : Nat} {sl : Slave} (hn : n ≤ wordSymbols c) (hc : Consumed s.slave n sl) :
      sl.answersFor k :=
    hc k (Slave.answersFor_mono (Nat.add_le_add_right hn k) h)
  have hout := engine_outcome c s
  generalize engine c s = t at hout
  cases hout with
  | nothing _ => exact ⟨hidle, Slave.answersFor_mono (Nat.le_add_left ..) h⟩
  | stop sl n _ _ hstop _ hc => exact ⟨rfl, hleft (by simp [wordSymbols, hstop]) hc⟩
  | stopStall l sl n _ _ hstop _ hno => exact absurd (hfirst (by simp [wordSymbols, hstop])) hno
  | ended d es a k v sh sl n _ hrun _ hend hc =>
    exact ⟨rfl, hleft (Nat.add_le_add_right (hend.length_le hrun) _) hc⟩
  | lost es l sl n _ hrun _ hlost hc =>
    exact ⟨rfl, hleft ((hlost.length_le hrun).trans (Nat.le_add_right ..)) hc⟩
  | stalled o e a k v l es sl n _ hrun _ hstall hno =>
    exact absurd (hfirst (hstall.length_lt hrun)) hno

/-- A control word with STOP that ends leaves the bus released (R86 step 4, R90, R115). -/
theorem engine_own_of_stop {c : Ctl} {s : State} (hmfe : s.mfe = true) (hstop : ctlStopBit c = true)
    (hend : (engine c s).busy = false) : (engine c s).own = .idle := by
  have hout := engine_outcome c s
  generalize engine c s = t at hout hend
  cases hout with
  | nothing h =>
    rcases h with hoff | ⟨-, hno | hown⟩ | ⟨-, hown⟩
    · cases hmfe.symm.trans hoff
    · cases hstop.symm.trans hno
    · exact hown
    · exact hown
  | stop => rfl
  | stopStall => cases hend
  | ended => exact if_pos hstop
  | lost => rfl
  | stalled => cases hend

theorem engine_mfe (c : Ctl) (s : State) : (engine c s).mfe = s.mfe := by
  have h : engine c s = _ := engine_frame c s
  rw [h]

/-! ### Counting the symbols of a command (spec/41_byte_transfer.md R123, R124,
spec/42_sequencer.md R132, R133) -/

/-- Between control writes: no operation goes on, the engine is enabled, and the slave answers `k` more
symbols. -/
structure State.Awaits (k : Nat) (s : State) : Prop where
  ended : s.busy = false
  enabled : s.mfe = true
  answers : s.slave.answersFor k

/-- A unit that ends: with a result, and then the slave answers `k` more symbols, or with an error, which
is the last a command does. -/
def Run.EndsAwaiting {α : Type} (k : Nat) : Run (Xfer α) → Prop
  | .done (.ok _) t => t.Awaits k
  | .done (.err _) t => t.busy = false
  | .hang _ => False
  | .undef _ => False

/-- The control write of a byte transfer ends, and so does the Stop that an error forces: after a word with
STOP there is nothing left to stop, and after another the slave must answer it (R127). -/
theorem transfer_endsAwaiting {α : Type} {c : Ctl} {k : Nat} {f : State → α} {s : State}
    (hs : s.Awaits (wordSymbols c + k)) (hk : ctlStopBit c = true ∨ 1 ≤ k) :
    (transfer engine c (fun t => .done (.ok (f t)) t) s).EndsAwaiting k := by
  obtain ⟨hend, hleft⟩ := engine_ends hs.ended hs.answers
  have hforced : (engine 0x4 (engine c s)).busy = false := by
    rcases hk with hstop | hk
    · rw [engine_stop_idle (engine_own_of_stop hs.enabled hstop hend)]
      exact hend
    · have hone : wordSymbols 0x4 + (k - 1) = k := Nat.add_sub_cancel' hk
      exact (engine_ends hend (by rwa [hone])).1
  rw [transfer_eq, if_neg (by simp [hs.ended]), if_neg (by simp [hend])]
  split
  · exact ⟨hend, (engine_mfe c s).trans hs.enabled, hleft⟩
  · rw [if_neg (ne_true_of_eq_false hforced)]
    exact hforced

section
variable {α β : Type} {c : Ctl} {j k : Nat} {s : State}

theorem sendOp_endsAwaiting (d : Byte) (hs : s.Awaits (wordSymbols c + k))
    (hk : ctlStopBit c = true ∨ 1 ≤ k) : (sendOp engine d c s).EndsAwaiting k :=
  transfer_endsAwaiting (f := fun _ => ()) (s := s.writeMdr (d.setWidth 32)) { hs with } hk

theorem recvOp_endsAwaiting (hs : s.Awaits (wordSymbols c + k)) (hk : ctlStopBit c = true ∨ 1 ≤ k) :
    (recvOp engine c s).EndsAwaiting k :=
  transfer_endsAwaiting (f := fun t => (memRead .mdr t).setWidth 8) hs hk

/-- A step of a sequence: an error collapses it (R141). -/
theorem seqStep_endsAwaiting {m : Run (Xfer α)} {f : α → State → Run (Xfer β)} (hm : m.EndsAwaiting j)
    (hf : ∀ a t, t.Awaits j → (f a t).EndsAwaiting k) : (seqStep m f).EndsAwaiting k := by
  cases m with
  | done x t =>
    cases x with
    | ok a => exact hf a t hm
    | err e => exact hm
  | hang t => exact hm
  | undef r => exact hm

/-- READ_REG asks for three symbols, three more, and two (R132). -/
theorem readRegOp_endsAwaiting (r : Byte) (hs : s.Awaits 8) : (readRegOp engine r s).EndsAwaiting 0 := by
  have address {s : State} (hs : s.Awaits 8) := sendOp_endsAwaiting (c := 0x3) (k := 5) r hs (by decide)
  have msb {s : State} (hs : s.Awaits 5) := recvOp_endsAwaiting (c := 0xB) (k := 2) hs (by decide)
  have lsb {s : State} (hs : s.Awaits 2) := recvOp_endsAwaiting (c := 0x5) (k := 0) hs (by decide)
  refine seqStep_endsAwaiting (address { hs with }) fun _ _ hs => ?_
  refine seqStep_endsAwaiting (msb { hs with }) fun _ _ hs => ?_
  exact seqStep_endsAwaiting (lsb { hs with }) fun _ _ hs => { hs with }

/-- WRITE_REG16 asks for three symbols, one more, and two (R133); two of the eight are left. -/
theorem writeRegOp_endsAwaiting (r : Byte) (v : Half) (hs : s.Awaits 8) :
    (writeRegOp engine r v s).EndsAwaiting 2 := by
  have address {s : State} (hs : s.Awaits 8) := sendOp_endsAwaiting (c := 0x3) (k := 5) r hs (by decide)
  have msb (d : Byte) {s : State} (hs : s.Awaits 5) :=
    sendOp_endsAwaiting (c := 0x1) (k := 4) d hs (by decide)
  have lsb (d : Byte) {s : State} (hs : s.Awaits 4) :=
    sendOp_endsAwaiting (c := 0x5) (k := 2) d hs (by decide)
  refine seqStep_endsAwaiting (address { hs with }) fun _ _ hs => ?_
  refine seqStep_endsAwaiting (msb _ { hs with }) fun _ _ hs => ?_
  exact seqStep_endsAwaiting (lsb _ { hs with }) fun _ _ hs => { hs with }

/-- A byte command asks for at most four symbols, of the eight that the slave answers. -/
theorem State.Awaits.byteCommand (c : Ctl) (hs : s.Awaits 8) :
    s.Awaits (wordSymbols c + (8 - wordSymbols c)) ∧ 1 ≤ 8 - wordSymbols c := by
  have hfour := wordSymbols_le_four c
  exact ⟨by rwa [Nat.add_sub_cancel' (by omega)], by omega⟩

/-- A bus command whose unit ends is answered (R14). -/
theorem command_ends {op : State → Run (Xfer α)} (response : Xfer α → Response)
    (hexec : s.executing = false) (hmfe : s.mfe = true) (hop : (op s.accept).EndsAwaiting k) :
    ∃ r t, command busEnabled (fun s => (op s).bind fun x s => .done (response x) s) s =
      .next (State.respond r t) ∧ t.busy = false := by
  cases hrun : op s.accept with
  | done x t =>
    refine ⟨response x, t, command_done hexec hmfe (by rw [hrun]; rfl), ?_⟩
    rw [hrun] at hop
    cases x with
    | ok a => exact hop.ended
    | err f => exact hop
  | hang t => rw [hrun] at hop; exact hop.elim
  | undef r => rw [hrun] at hop; exact hop.elim

end

/-- Settles O50: the eight symbols that the slave answers are all that a command asks for. -/
theorem endsUnlessTheSlaveStalls : Obligations.EndsUnlessTheSlaveStalls := by
  intro i s hready hbus hslave
  obtain ⟨hexec, hidle, hmfe⟩ := (ready_iff s).mp hready
  have hs : s.accept.Awaits 8 := ⟨hidle, hmfe, Slave.answersFor_eight hslave⟩
  suffices hends : ∃ r t, exec i s = .next (State.respond r t) ∧ t.busy = false by
    obtain ⟨r, t, hexec, hend⟩ := hends
    exact ⟨t.respond r, hexec, rfl, hend, rfl⟩
  cases i with
  | sendByte d c =>
    obtain ⟨hs, hk⟩ := hs.byteCommand c
    exact command_ends _ hexec hmfe (sendOp_endsAwaiting d hs (.inr hk))
  | recvByte c =>
    obtain ⟨hs, hk⟩ := hs.byteCommand c
    exact command_ends _ hexec hmfe (recvOp_endsAwaiting hs (.inr hk))
  | readReg r => exact command_ends _ hexec hmfe (readRegOp_endsAwaiting r hs)
  | writeReg16 r v => exact command_ends _ hexec hmfe (writeRegOp_endsAwaiting r v hs)
  | _ => cases hbus

end Sys2Proof.Machine

/-! PROOFS. The local commands (spec/41_byte_transfer.md R120 to R122, R129), and how an engine operation
depends on `MSA`: it reads the register for the direction and the address byte of its address phase, and
nowhere else (spec/40_engine.md R87). Last, the error test over any engine (R125 to R127). -/

namespace Sys2Proof.Machine

/-! ### An operation without START does not read `MSA` (R121, R122) -/

/-- The state with another value in `MSA`. -/
def State.withMsa (m : Byte) (s : State) : State := { s with msa := m }

/-- The result of a piece of an operation, with another value in `MSA`. -/
def Res.withMsa {α : Type} (m : Byte) : Res State α → Res State α
  | .done a s => .done a (s.withMsa m)
  | .stall s => .stall (s.withMsa m)

section
variable {m : Byte}

theorem Res.state_withMsa {α : Type} (r : Res State α) :
    (r.withMsa m).state = r.state.withMsa m := by
  cases r <;> rfl

/-- What commutes part by part with a change of `MSA` commutes as a whole. -/
theorem Res.bind_withMsa {α β : Type} {r r' : Res State α} {k : α → State → Res State β}
    (hr : r' = r.withMsa m) (hk : ∀ a s, k a (s.withMsa m) = (k a s).withMsa m) :
    r'.bind k = (r.bind k).withMsa m := by
  subst hr
  cases r with
  | done a s => exact hk a s
  | stall s => rfl

/-- The slave does not see `MSA`. -/
theorem State.asked_withMsa (σ : Symbol) (s : State) :
    (s.withMsa m).asked σ = (s.asked σ).withMsa m := by
  unfold State.asked
  cases hs : s.slave with
  | unknown => simp only [State.withMsa, hs]
  | sensor r => simp only [State.withMsa, hs]
  | scripted ws => cases ws <;> simp only [State.withMsa, hs]

theorem lineSymbols_stop_withMsa (s : State) :
    lineSymbols.stop (s.withMsa m) = (lineSymbols.stop s).withMsa m := by
  have hline : lineCondition stopSteps ((s.withMsa m).wave .stop) (s.withMsa m).line =
      lineCondition stopSteps (s.wave .stop) s.line := rfl
  simp only [lineSymbols, lineCond, hline, State.asked_withMsa]
  cases lineCondition stopSteps (s.wave .stop) s.line <;> rfl

theorem lineSymbols_tx_withMsa (v : Byte) (s : State) :
    lineSymbols.tx v (s.withMsa m) = (lineSymbols.tx v s).withMsa m := by
  have hline : lineTx v ((s.withMsa m).wave (.tx v)) (s.withMsa m).line =
      lineTx v (s.wave (.tx v)) s.line := rfl
  simp only [lineSymbols, hline, State.asked_withMsa]
  cases lineTx v (s.wave (.tx v)) s.line <;> rfl

theorem lineSymbols_rx_withMsa (a : Bool) (s : State) :
    lineSymbols.rx a (s.withMsa m) = (lineSymbols.rx a s).withMsa m := by
  have hline : lineRx a ((s.withMsa m).wave .rx) (s.withMsa m).line =
      lineRx a (s.wave .rx) s.line := rfl
  simp only [lineSymbols, hline, State.asked_withMsa]
  cases lineRx a (s.wave .rx) s.line <;> rfl

theorem dataPhase_withMsa (c : Ctl) (s : State) :
    dataPhase lineSymbols c (s.withMsa m) = (dataPhase lineSymbols c s).withMsa m := by
  unfold dataPhase
  rw [show (s.withMsa m).own = s.own from rfl]
  split
  · exact Res.bind_withMsa (lineSymbols_rx_withMsa _ s) fun _ _ => rfl
  · refine Res.bind_withMsa (lineSymbols_tx_withMsa s.mdrTx s) fun a s => ?_
    cases a <;> rfl

theorem stopOperation_withMsa (s : State) :
    stopOperation lineSymbols (s.withMsa m) = (stopOperation lineSymbols s).withMsa m :=
  Res.bind_withMsa (lineSymbols_stop_withMsa s) fun _ _ => rfl

theorem finishPhase_withMsa (c : Ctl) (s : State) :
    finishPhase lineSymbols c (s.withMsa m) = (finishPhase lineSymbols c s).withMsa m := by
  unfold finishPhase
  split
  · exact stopOperation_withMsa s
  · rfl

/-- Without START there is no address phase, the one that reads `MSA`. -/
theorem byteOperation_withMsa {c : Ctl} (hstart : ctlStartBit c = false) (s : State) :
    byteOperation lineSymbols c (s.withMsa m) = (byteOperation lineSymbols c s).withMsa m := by
  refine Res.bind_withMsa (by rw [hstart]; rfl) fun a s => ?_
  cases a with
  | lost => rfl
  | nack => exact finishPhase_withMsa c s
  | ack =>
    refine Res.bind_withMsa (dataPhase_withMsa c s) fun a s => ?_
    cases a with
    | lost => rfl
    | nack => exact finishPhase_withMsa c s
    | ack => exact finishPhase_withMsa c s

theorem engine_withMsa {c : Ctl} (hstart : ctlStartBit c = false) (s : State) :
    engine c (s.withMsa m) = (engine c s).withMsa m := by
  unfold engine
  rcases controlWrite_cases c s with h | ⟨hmfe, hrun, hstop, hown⟩ | ⟨hmfe, hrun, hopen⟩
  · rw [engineWith_idle _ _ _ h, engineWith_idle _ _ (s.withMsa m) h]
    rfl
  · rw [engineWith_stop _ _ _ hmfe hrun hstop hown,
      engineWith_stop _ _ (s.withMsa m) hmfe hrun hstop hown, ← Res.state_withMsa,
      ← stopOperation_withMsa]
    rfl
  · rw [engineWith_byte _ _ _ hmfe hrun hopen, engineWith_byte _ _ (s.withMsa m) hmfe hrun hopen,
      ← Res.state_withMsa, ← byteOperation_withMsa hstart]
    rfl

end

/-! ### With START the address byte is `MSA` (R48, R87) -/

/-- An event of the address byte `m`: it was answered, or arbitration was lost in it. -/
def isAddressByte (m : Byte) (e : BusEvent) : Prop :=
  e = .txByte m false ∨ e = .txByte m true ∨ e = .txLost m

section
variable {c : Ctl} {s : State} {d : Own} {es : List BusEvent}

theorem ByteEnd.addresses {a k : Bool} {v : Byte} (hstart : ctlStartBit c = true)
    (h : ByteEnd c s d es a k v) :
    ∃ e rest, es = startEvent s.own :: e :: rest ∧ isAddressByte s.msa e := by
  cases h with
  | addressNack _ => exact ⟨_, _, rfl, .inr (.inl rfl)⟩
  | data e k v _ =>
    rw [openingEvents_of_start hstart]
    exact ⟨_, _, rfl, .inl rfl⟩

theorem ByteLost.addresses (hstart : ctlStartBit c = true) (h : ByteLost c s es) :
    ∃ e rest, es = startEvent s.own :: e :: rest ∧ isAddressByte s.msa e := by
  cases h with
  | address _ => exact ⟨_, _, rfl, .inr (.inr rfl)⟩
  | data _ =>
    rw [openingEvents_of_start hstart]
    exact ⟨_, _, rfl, .inl rfl⟩

/-- An operation that stalls before its address byte has ended adds one event at most. -/
theorem ByteStall.addresses (hstart : ctlStartBit c = true) (h : ByteStall c s d es) :
    es.length ≤ 1 ∨ ∃ e rest, es = startEvent s.own :: e :: rest ∧ isAddressByte s.msa e := by
  cases h with
  | start _ => exact .inl (Nat.zero_le 1)
  | address _ => exact .inl le_rfl
  | data =>
    rw [openingEvents_of_start hstart]
    exact .inr ⟨_, _, rfl, .inl rfl⟩
  | stop d es a k v hend _ => exact .inr (hend.addresses hstart)

end

theorem newEvents_of_append {s t : State} {es : List BusEvent} (h : t.trace = s.trace ++ es) :
    newEvents s t = es := by
  rw [newEvents, h, List.drop_left]

theorem second_newEvent_isAddressByte {c : Ctl} {s : State} {e : BusEvent}
    (hrun : ctlRunBit c = true) (hstart : ctlStartBit c = true) (hmfe : s.mfe = true)
    (h : (newEvents s (engine c s))[1]? = some e) : isAddressByte s.msa e := by
  have hout := engine_outcome c s
  generalize engine c s = t at hout h
  cases hout with
  | nothing hno => simp [hrun, hstart, hmfe] at hno
  | stop sl n _ hnot => cases hrun.symm.trans hnot
  | stopStall l sl n _ hnot => cases hrun.symm.trans hnot
  | ended d es a k v sh sl n _ _ _ hend _ =>
    obtain ⟨b, rest, rfl, hb⟩ := hend.addresses hstart
    rw [newEvents_of_append rfl] at h
    cases h
    exact hb
  | lost es l sl n _ _ _ hlost _ _ _ _ =>
    obtain ⟨b, rest, rfl, hb⟩ := hlost.addresses hstart
    rw [newEvents_of_append rfl] at h
    cases h
    exact hb
  | stalled o e' a k v l es sl n _ _ _ hstall _ _ _ _ =>
    rw [newEvents_of_append rfl] at h
    rcases hstall.addresses hstart with hshort | ⟨b, rest, rfl, hb⟩
    · rw [List.getElem?_eq_none hshort] at h
      cases h
    · cases h
      exact hb

/-- The two halves of what R121 and R122 say about when `MSA` takes effect. -/
theorem msaOnlyInAddressByte_holds : msaOnlyInAddressByte :=
  ⟨fun _ _ s hstart => engine_withMsa hstart s,
    fun _ _ _ hrun hstart hmfe h => second_newEvent_isAddressByte hrun hstart hmfe h⟩

/-! ### The local commands (R120 to R122) -/

/-- A local command that the port accepts answers Ok in the state its one write leaves (R14). -/
theorem command_local {ok : State → Bool} {op : State → State} {s : State} (hexec : s.executing = false)
    (hok : ok s = true) : command ok (fun s => .done (.ok 0 0) (op s)) s =
      .next { op s.accept with executing := false, rsp := 0, rspValid := true } :=
  command_done (body := fun s => .done (.ok 0 0) (op s)) hexec hok rfl

/-- Settles O14: INIT writes `MFE` and `TPR`. -/
theorem initResult : Obligations.InitResult := by
  intro s hexec hown
  rw [exec, execInit, command_local hexec (by simp [hown]), initOp_eq]
  rfl

theorem exec_setDir (d : Direction) {s : State} (hexec : s.executing = false) :
    exec (.setDir d) s = .next { s with
      msa := mergeDir s.msa d.toBit, executing := false, rsp := 0, rspValid := true } := by
  rw [exec, execSetDir, command_local hexec rfl, dirOp_eq]
  rfl

theorem exec_setAddr {a : Byte} {s : State} (hexec : s.executing = false) (ha : a.toNat < 128) :
    exec (.setAddr a) s = .next { s with
      msa := mergeAddr s.msa a, addrSet := true, executing := false, rsp := 0, rspValid := true } := by
  have hok : addrOperandOk a = true := (addrOperandOk_iff a).mpr (by omega)
  rw [exec, execSetAddr, command_local hexec hok, addrOp_eq]
  rfl

/-- `MSA` is its two fields (R72). -/
theorem msa_toNat (m : Byte) : m.toNat = 2 * (msaAddr m).toNat + (msaRead m).toNat := by
  revert m; decide

theorem mergeDir_eq_self {m : Byte} {d : Bool} (h : msaRead m = d) : mergeDir m d = m := by
  obtain ⟨haddr, hread⟩ := mergeDir_fields m d
  apply BitVec.eq_of_toNat_eq
  rw [msa_toNat (mergeDir m d), haddr, hread, ← h, ← msa_toNat]

theorem msaAddr_mergeAddr_toNat (m : Byte) {a : Byte} (ha : a.toNat < 128) :
    (msaAddr (mergeAddr m a)).toNat = a.toNat := by
  rw [(mergeAddr_fields m a).1, BitVec.toNat_setWidth, Nat.mod_eq_of_lt ha]

/-- Settles O16: SET_DIR is the merge of R121. -/
theorem setDirResult : Obligations.SetDirResult := by
  refine ⟨rfl, rfl, fun d s hexec => ?_, msaOnlyInAddressByte_holds⟩
  obtain ⟨haddr, hread⟩ := mergeDir_fields s.msa d.toBit
  exact ⟨mergeDir s.msa d.toBit, haddr, hread, rfl, exec_setDir d hexec, mergeDir_eq_self⟩

/-- Settles O17: SET_ADDR is the merge of R122, and an operand of eight bits is R76's case 2. -/
theorem setAddrResult : Obligations.SetAddrResult := by
  refine ⟨rfl, fun a s hexec ha => ?_, fun a s hexec ha => ?_, msaOnlyInAddressByte_holds⟩
  · exact ⟨mergeAddr s.msa a, _, msaAddr_mergeAddr_toNat s.msa ha, (mergeAddr_fields s.msa a).2, rfl,
      exec_setAddr hexec ha, rfl⟩
  · exact illegalInThisState (.setAddr a) s hexec (.inr (.inr ⟨a, rfl, ha⟩))

/-- Settles O18: each command is its merge, and the fields of `MSA` make its number. -/
theorem directionToggleKeepsAddress : Obligations.DirectionToggleKeepsAddress := by
  intro a s hexec ha
  have haddr := msaAddr_mergeAddr_toNat s.msa ha
  have hdir (m : Byte) (d : Bool) :
      (mergeDir m d).toNat = 2 * (msaAddr m).toNat + d.toNat := by
    obtain ⟨hkept, hread⟩ := mergeDir_fields m d
    rw [msa_toNat, hkept, hread]
  refine ⟨_, _, _, exec_setAddr hexec ha, exec_setDir .read rfl, exec_setDir .write rfl, ?_, ?_,
    haddr, rfl⟩
  · exact (hdir _ true).trans (by rw [haddr]; rfl)
  · refine (hdir _ false).trans ?_
    rw [(mergeDir_fields _ _).1, haddr]
    rfl

/-! ### The error test over any engine (R125 to R127) -/

/-- The ends of a byte transfer, `t` the state its control write leaves and `u` that of the forced Stop. -/
theorem transfer_results {α : Type} {r : Run (Xfer α)} {a : α} {t u : State}
    (hr : r = if t.busy then .hang t else if t.errors = 0 then .done (.ok a) t
      else if u.busy then .hang u else .done (.err t.errors) u) :
    (t.busy = true → r = .hang t) ∧
    (t.busy = false → t.errors = 0 → r = .done (.ok a) t) ∧
    (t.busy = false → t.errors ≠ 0 → u.busy = false → r = .done (.err t.errors) u) ∧
    (t.busy = false → t.errors ≠ 0 → u.busy = true → r = .hang u) := by
  subst hr
  refine ⟨fun hbusy => ?_, fun hend hok => ?_, fun hend herr hstop => ?_, fun hend herr hhang => ?_⟩
  · rw [if_pos hbusy]
  · rw [if_neg (by simp [hend]), if_pos hok]
  · rw [if_neg (by simp [hend]), if_neg herr, if_neg (ne_true_of_eq_false hstop)]
  · rw [if_neg (by simp [hend]), if_neg herr, if_pos hhang]

/-- Settles O42: both bodies are the one transfer. -/
theorem errorTestOverAnyEngine : Obligations.ErrorTestOverAnyEngine := by
  intro eng c s hidle
  refine ⟨transfer_results ?_, fun d => transfer_results ?_⟩
  · rw [recvOp_eq, if_neg (by simp [hidle])]
  · rw [sendOp_eq, if_neg (by simp [hidle])]

end Sys2Proof.Machine

/-! PROOFS. The byte commands against a scripted slave: every byte answered, in either direction under either
name (spec/41_byte_transfer.md R123, R124, R130), and a byte not acknowledged (spec/60_exceptions.md R148,
R149, R154). -/

namespace Sys2Proof.Machine

/-! ### Every byte answered -/

/-- What comes before the data byte does not depend on `MDR_TX`. -/
theorem Opens.sending {c : Ctl} {s : State} {ws : List Wave} (m : Byte) (h : Opens c s ws) :
    Opens c (s.sending m) ws := by
  cases h with
  | continued hstart hown hslave => exact .continued hstart hown hslave
  | addressed w x hstart hslave hw hx => exact .addressed w x hstart hslave hw hx

section
variable {c : Ctl} {s : State} {y : Wave} {ws : List Wave} (hready : s.ready = true)
  (hrun : ctlRunBit c = true) (hopens : Opens c s (y :: ws)) (hstop : stopProceeds c ws = true)

include hready hrun hopens hstop

/-- The control write of a byte command that sends the byte `m` (R123, R130). -/
theorem engine_sending_sends {m : Byte} {nack : Bool} (hdir : dataDirection c s = .tx)
    (hy : y.tx m = some (if nack then .nack else .ack)) :
    engine c (s.sending m) = (s.sending m).afterByte c .tx 0 false nack
      (openingEvents c s ++ [.txByte m nack]) ws := by
  obtain ⟨-, -, hmfe⟩ := (ready_iff s).mp hready
  have hdir' : dataDirection c (s.sending m) = .tx := hdir
  have hsent := engine_sends (s := s.sending m) hmfe hrun (hopens.sending m) (by simp [hdir']) hy hstop
  rwa [hdir'] at hsent

/-- The control write of a byte command that receives the byte `v`, whatever `m` `MDR_TX` holds (R124,
R130). -/
theorem engine_sending_receives (m : Byte) {v : Byte} (hdir : dataDirection c s = .rx)
    (hy : y.rx = some v) :
    engine c (s.sending m) = State.afterByte c .rx v false false
      (openingEvents c s ++ [.rxByte v (!ctlAckBit c)]) ws { s.sending m with mdrRx := v } := by
  obtain ⟨-, -, hmfe⟩ := (ready_iff s).mp hready
  exact engine_receives (s := s.sending m) hmfe hrun (hopens.sending m) hdir hy hstop

/-- SEND_BYTE sends its byte (R123). -/
theorem exec_sendByte_sends {d : Byte} (hdir : dataDirection c s = .tx) (hy : y.tx d = some .ack) :
    exec (.sendByte d c) s = .next (State.afterByte c .tx 0 false false
      (openingEvents c s ++ [.txByte d false]) ws { s with
        mdrTx := d, executing := false, rsp := 0, rspValid := true }) := by
  have hsent := engine_sending_sends hready hrun hopens hstop (nack := false) hdir hy
  rw [exec_sendByte hready, byteCommandEnd_ok hsent rfl (afterByte_errors_ok ..)]
  rfl

/-- SEND_BYTE receives a byte in a transaction addressed for read (R130). -/
theorem exec_sendByte_receives (d : Byte) {v : Byte} (hdir : dataDirection c s = .rx)
    (hy : y.rx = some v) :
    exec (.sendByte d c) s = .next (State.afterByte c .rx v false false
      (openingEvents c s ++ [.rxByte v (!ctlAckBit c)]) ws { s with
        mdrTx := d, mdrRx := v, executing := false, rsp := 0, rspValid := true }) := by
  have hreceived := engine_sending_receives hready hrun hopens hstop d hdir hy
  rw [exec_sendByte hready, byteCommandEnd_ok hreceived rfl (afterByte_errors_ok ..)]
  rfl

/-- RECV_BYTE answers the byte it receives (R124). -/
theorem exec_recvByte_receives {v : Byte} (hdir : dataDirection c s = .rx) (hy : y.rx = some v) :
    exec (.recvByte c) s = .next (State.afterByte c .rx v false false
      (openingEvents c s ++ [.rxByte v (!ctlAckBit c)]) ws { s with
        mdrRx := v, executing := false, rsp := v.setWidth 32, rspValid := true }) := by
  have hreceived := engine_sending_receives hready hrun hopens hstop s.mdrTx hdir hy
  rw [exec_recvByte hready, byteCommandEnd_ok hreceived rfl (afterByte_errors_ok ..), State.respond,
    recvAnswer_word]
  rfl

/-- RECV_BYTE sends what `MDR_TX` holds in a transaction addressed for write (R130). -/
theorem exec_recvByte_sends (hdir : dataDirection c s = .tx) (hy : y.tx s.mdrTx = some .ack) :
    exec (.recvByte c) s = .next (State.afterByte c .tx 0 false false
      (openingEvents c s ++ [.txByte s.mdrTx false]) ws { s with
        executing := false, rsp := s.mdrRx.setWidth 32, rspValid := true }) := by
  have hsent := engine_sending_sends hready hrun hopens hstop (nack := false) hdir hy
  rw [exec_recvByte hready, byteCommandEnd_ok hsent rfl (afterByte_errors_ok ..), State.respond,
    recvAnswer_word]
  rfl

end

theorem dataDirection_of_start_write {c : Ctl} {s : State} (hstart : ctlStartBit c = true)
    (hread : msaRead s.msa = false) : dataDirection c s = .tx :=
  (dataDirection_of_start hstart).trans (latched_of_write hread)

theorem dataDirection_of_start_read {c : Ctl} {s : State} (hstart : ctlStartBit c = true)
    (hread : msaRead s.msa = true) : dataDirection c s = .rx :=
  (dataDirection_of_start hstart).trans (latched_of_read hread)

theorem dataDirection_of_owned {c : Ctl} {s : State} {d : Own} (hstart : ctlStartBit c = false)
    (hown : s.own = d) : dataDirection c s = d :=
  (dataDirection_of_not_start hstart).trans hown

/-- Settles O34: the byte goes out after the address byte. -/
theorem sendByteOpensTransaction : Obligations.SendByteOpensTransaction := by
  intro d c s w x y ws hready hrun hstart hread hslave hw hx hy hstop
  rw [exec_sendByte_sends hready hrun (.addressed w x hstart hslave hw hx) hstop
    (dataDirection_of_start_write hstart hread) hy, openingEvents_of_start hstart]
  rfl

/-- Settles O36: the byte comes in after the address byte, or in the open transaction. -/
theorem recvByteReceives : Obligations.RecvByteReceives := by
  refine ⟨fun c s w x y ws v hready hrun hstart hread hslave hw hx hy hstop => ?_,
    fun c s w ws v hready hrun hstart hown hslave hw hstop => ?_⟩
  · rw [exec_recvByte_receives hready hrun (.addressed w x hstart hslave hw hx) hstop
      (dataDirection_of_start_read hstart hread) hy, openingEvents_of_start hstart]
    rfl
  · rw [exec_recvByte_receives hready hrun (.continued hstart (by simp [hown]) hslave) hstop
      (dataDirection_of_owned hstart hown) hw, openingEvents_of_not_start hstart]
    rfl

/-- Settles O41: the direction of the transaction decides what moves, the name of the command what is
answered. -/
theorem misnamedTransfers : Obligations.MisnamedTransfers := by
  refine ⟨fun d c s w ws v hready hrun hstart hown hslave hw hstop => ?_,
    fun d c s w x y ws v hready hrun hstart hread hslave hw hx hy hstop => ?_,
    fun c s w ws hready hrun hstart hown hslave hw hstop => ?_,
    fun c s w x y ws hready hrun hstart hread hslave hw hx hy hstop => ?_⟩
  · rw [exec_sendByte_receives hready hrun (.continued hstart (by simp [hown]) hslave) hstop d
      (dataDirection_of_owned hstart hown) hw, openingEvents_of_not_start hstart]
    rfl
  · rw [exec_sendByte_receives hready hrun (.addressed w x hstart hslave hw hx) hstop d
      (dataDirection_of_start_read hstart hread) hy, openingEvents_of_start hstart]
    rfl
  · rw [exec_recvByte_sends hready hrun (.continued hstart (by simp [hown]) hslave) hstop
      (dataDirection_of_owned hstart hown) hw, openingEvents_of_not_start hstart]
    rfl
  · rw [exec_recvByte_sends hready hrun (.addressed w x hstart hslave hw hx) hstop
      (dataDirection_of_start_write hstart hread) hy, openingEvents_of_start hstart]
    rfl

/-! ### A byte not acknowledged (R148, R149, R154) -/

/-- A slave that lets a Stop through lets it through under a control word with STOP. -/
theorem stopProceeds_of_proceeds {y : Wave} (c : Ctl) (ws : List Wave) (hy : y.proceeds = true) :
    stopProceeds c (y :: ws) = true := by
  simp [stopProceeds, hy]

/-- A control write that ran to its finish with an acknowledge bit missing is aborted: with STOP the bus is
released already and the forced Stop does nothing, without it the forced Stop releases the bus (R127,
R154). -/
theorem byteCommandEnd_aborts {ok : State → Response} {c : Ctl} {d : Own} {a k : Bool}
    {es : List BusEvent} {y : Wave} {ws : List Wave} {u : State}
    (ht : engine c u = u.afterByte c d 0 a k es (y :: ws)) (hd : d ≠ .idle) (hmfe : u.mfe = true)
    (hnack : (a || k) = true) (hy : y.proceeds = true) :
    byteCommandEnd ok c u = (u.afterAbort a k es ws).respond
      (.err (BitVec.ofBool k ++ BitVec.ofBool a ++ BitVec.ofBool true)) := by
  have hflags : (u.afterByte c d 0 a k es (y :: ws)).errors =
      BitVec.ofBool k ++ BitVec.ofBool a ++ BitVec.ofBool true := by
    rw [← hnack]
    rfl
  have hne : (u.afterByte c d 0 a k es (y :: ws)).errors ≠ 0 := by
    rw [hflags]
    cases a <;> cases k <;> decide
  cases hstop : ctlStopBit c with
  | true =>
    rw [byteCommandEnd_err_idle ht rfl hne (by simp [State.afterByte, hstop]), hflags]
    simp [State.afterByte, State.afterAbort, hstop]
  | false =>
    have hforced := engine_stopAlone (c := 0x4) (s := u.afterByte c d 0 a k es (y :: ws)) (w := y)
      (ws := ws) rfl rfl hmfe (by simp [State.afterByte, hstop, hd])
      (by simp [State.afterByte, hstop]) hy
    rw [byteCommandEnd_err ht rfl hne hforced rfl, hflags]
    simp [State.afterByte, State.afterStopAlone, State.afterAbort, hstop, Line.afterStop,
      Line.heldWith, Line.stoppedWith]

/-- Settles O37: the data phase is skipped, and the transfer aborted. -/
theorem byteCommandAddressNack : Obligations.ByteCommandAddressNack := by
  intro i c m s w x y ws hi hready hrun hstart hslave hw hx hy
  obtain ⟨-, -, hmfe⟩ := (ready_iff s).mp hready
  obtain ⟨ok, hexec⟩ := exec_byteCommand hready hi
  have hnack := engine_addressNack (s := s.sending m) hmfe hrun hstart hslave hw hx
    (stopProceeds_of_proceeds c ws hy)
  rw [hexec, byteCommandEnd_aborts hnack (latched_ne_idle _) hmfe rfl hy]
  rfl

/-- The data byte of a byte command, sent and not acknowledged. -/
theorem exec_byteCommand_dataNack {i : Instr} {c : Ctl} {m : Byte} {s : State} {y z : Wave}
    {ws : List Wave} (hi : i = .sendByte m c ∨ (i = .recvByte c ∧ m = s.mdrTx))
    (hready : s.ready = true) (hrun : ctlRunBit c = true) (hopens : Opens c s (y :: z :: ws))
    (hdir : dataDirection c s = .tx) (hy : y.tx m = some .nack) (hz : z.proceeds = true) :
    exec i s = .next (State.afterAbort false true
        (openingEvents c s ++ [.txByte m true]) ws { s with
          mdrTx := m, executing := false, rsp := 0x85000000, rspValid := true }) := by
  obtain ⟨-, -, hmfe⟩ := (ready_iff s).mp hready
  obtain ⟨ok, hexec⟩ := exec_byteCommand hready hi
  have hnack := engine_sending_sends hready hrun hopens (stopProceeds_of_proceeds c ws hz)
    (nack := true) hdir hy
  rw [hexec, byteCommandEnd_aborts hnack (by decide) hmfe rfl hz]
  rfl

/-- Settles O38: the data byte after the address byte, or of the open transaction. -/
theorem sendByteDataNack : Obligations.SendByteDataNack := by
  refine ⟨fun i c m s w x y z ws hi hready hrun hstart hread hslave hw hx hy hz => ?_,
    fun i c m s w x ws hi hready hrun hstart hown hslave hw hx => ?_⟩
  · rw [exec_byteCommand_dataNack hi hready hrun (.addressed w x hstart hslave hw hx)
      (dataDirection_of_start_write hstart hread) hy hz, openingEvents_of_start hstart]
    rfl
  · rw [exec_byteCommand_dataNack hi hready hrun (.continued hstart (by simp [hown]) hslave)
      (dataDirection_of_owned hstart hown) hw hx, openingEvents_of_not_start hstart]
    rfl

end Sys2Proof.Machine

/-! PROOFS. Starts and Stops of a sequence are paired (spec/42_sequencer.md R142): what a sequence has put on
the bus is one transaction, open while it still goes on and closed where it ends. -/

namespace Sys2Proof.Machine

/-! ### One transaction in the trace -/

/-- An event within a transaction. -/
def isInner (e : BusEvent) : Bool := !isStart e && !isClosing e

/-- From `t₀` to `t` one Start and, after it, neither a Start nor the close of a transaction. -/
def OpenSince (t₀ t : List BusEvent) : Prop :=
  ∃ es, t = t₀ ++ .start :: es ∧ es.all isInner = true

/-- From `t₀` to `t` one transaction, closed by a Stop or a lost byte. -/
def ClosedSince (t₀ t : List BusEvent) : Prop :=
  ∃ es e, t = t₀ ++ .start :: (es ++ [e]) ∧ isClosing e = true ∧ es.all isInner = true

section
variable {t₀ t : List BusEvent} {e : BusEvent}

theorem openSince_start (t₀ : List BusEvent) : OpenSince t₀ (t₀ ++ [.start]) := ⟨[], rfl, rfl⟩

theorem OpenSince.append (h : OpenSince t₀ t) (he : isInner e = true) : OpenSince t₀ (t ++ [e]) := by
  obtain ⟨es, rfl, hes⟩ := h
  exact ⟨es ++ [e], by simp, by simp [hes, he]⟩

theorem OpenSince.close (h : OpenSince t₀ t) (hc : isClosing e = true) : ClosedSince t₀ (t ++ [e]) := by
  obtain ⟨es, rfl, hes⟩ := h
  exact ⟨es, e, by simp, hc, hes⟩

end

/-! ### The events of an operation (spec/40_engine.md R86 to R90, R115) -/

/-- An operation that goes on with the transaction begun after `t₀`, or begins it. -/
inductive Joins (t₀ : List BusEvent) (c : Ctl) (s : State) : Prop where
  | begins : s.own = .idle → s.trace = t₀ → ctlStartBit c = true → Joins t₀ c s
  | continues : s.own ≠ .idle → OpenSince t₀ s.trace → Joins t₀ c s

section
variable {t₀ : List BusEvent} {c : Ctl} {s : State}

theorem Joins.runs (h : Joins t₀ c s) : ctlStartBit c = true ∨ s.own ≠ .idle := by
  cases h with
  | begins _ _ hstart => exact .inl hstart
  | continues hown _ => exact .inr hown

/-- The operand of SEND_BYTE is not on the bus yet. -/
theorem Joins.writeMdr (v : Word) (h : Joins t₀ c s) : Joins t₀ c (s.writeMdr v) := by
  cases h with
  | begins hown htrace hstart => exact .begins hown htrace hstart
  | continues hown htrace => exact .continues hown htrace

/-- A data byte neither begins nor closes a transaction. -/
theorem DataByte.isInner {d : Own} {e : BusEvent} {k : Bool} {v : Byte} (h : DataByte c s d e k v) :
    isInner e = true := by
  cases h <;> rfl

/-- A Start begins the transaction, and a repeated Start goes on with it. -/
theorem Joins.openSince_startEvent (h : Joins t₀ c s) : OpenSince t₀ (s.trace ++ [startEvent s.own]) := by
  cases h with
  | begins hown htrace _ =>
    rw [startEvent, if_pos hown, htrace]
    exact openSince_start t₀
  | continues hown htrace =>
    rw [startEvent, if_neg hown]
    exact htrace.append rfl

theorem Joins.openSince_openingEvents (h : Joins t₀ c s) :
    OpenSince t₀ (s.trace ++ openingEvents c s) := by
  unfold openingEvents
  split
  · simpa using h.openSince_startEvent.append (e := .txByte s.msa false) rfl
  next hstart =>
    cases h with
    | begins _ _ h => exact absurd h hstart
    | continues _ htrace => simpa using htrace

theorem Joins.openSince_byteEnd {d : Own} {es : List BusEvent} {a k : Bool} {v : Byte}
    (h : Joins t₀ c s) (hend : ByteEnd c s d es a k v) : OpenSince t₀ (s.trace ++ es) := by
  cases hend with
  | addressNack => simpa using h.openSince_startEvent.append (e := .txByte s.msa true) rfl
  | data e k v hbyte =>
    rw [← List.append_assoc]
    exact h.openSince_openingEvents.append hbyte.isInner

theorem Joins.closedSince_byteLost {es : List BusEvent} (h : Joins t₀ c s) (hlost : ByteLost c s es) :
    ClosedSince t₀ (s.trace ++ es) := by
  cases hlost with
  | address => simpa using h.openSince_startEvent.close (e := .txLost s.msa) rfl
  | data =>
    rw [← List.append_assoc]
    exact h.openSince_openingEvents.close rfl

end

/-! ### The control writes of a sequence -/

/-- Between the control writes of a sequence: its transaction is open. -/
structure State.Opened (t₀ : List BusEvent) (s : State) : Prop where
  ended : s.busy = false
  enabled : s.mfe = true
  owned : s.own ≠ .idle
  trace : OpenSince t₀ s.trace

/-- After the last control write of a sequence: its transaction is closed. -/
structure State.Closed (t₀ : List BusEvent) (s : State) : Prop where
  ended : s.busy = false
  released : s.own = .idle
  trace : ClosedSince t₀ s.trace

section
variable {t₀ : List BusEvent} {c : Ctl} {s : State}

/-- A control word that runs a byte leaves the transaction open, unless it has STOP or arbitration is lost
(R90, R115). -/
theorem engine_opened_or_closed (hmfe : s.mfe = true) (hrun : ctlRunBit c = true) (hjoins : Joins t₀ c s)
    (hend : (engine c s).busy = false) :
    ((engine c s).Opened t₀ ∧ ctlStopBit c = false) ∨
    ((engine c s).Closed t₀ ∧ (ctlStopBit c = true ∨ (engine c s).error = true)) := by
  have hout := engine_outcome c s
  generalize engine c s = t at hout hend
  cases hout with
  | nothing h =>
    rcases h with hoff | ⟨hnot, -⟩ | ⟨hstart, hown⟩
    · cases hmfe.symm.trans hoff
    · cases hrun.symm.trans hnot
    · exact absurd hown (hjoins.runs.resolve_left (by simp [hstart]))
  | stop sl n _ hnot => cases hrun.symm.trans hnot
  | stopStall => cases hend
  | ended d es a k v sh sl n _ _ ho hbyte _ =>
    have hopen := hjoins.openSince_byteEnd hbyte
    cases hstop : ctlStopBit c with
    | false => exact .inl ⟨⟨rfl, hmfe, hbyte.own_ne_idle ho, by simpa [moved] using hopen⟩, rfl⟩
    | true =>
      exact .inr ⟨⟨rfl, rfl, by simpa [moved] using hopen.close (e := .stop) rfl⟩, .inl rfl⟩
  | lost es l sl n _ _ _ hlost => exact .inr ⟨⟨rfl, rfl, hjoins.closedSince_byteLost hlost⟩, .inr rfl⟩
  | stalled => cases hend

/-- The Stop that an error forces closes a transaction that is still open (R127, R154). -/
theorem State.Opened.stop (h : s.Opened t₀) (hend : (engine 0x4 s).busy = false) :
    (engine 0x4 s).Closed t₀ := by
  have hout := engine_outcome 0x4 s
  generalize engine 0x4 s = t at hout hend
  cases hout with
  | nothing hno =>
    rcases hno with hoff | ⟨-, hno | hown⟩ | ⟨-, hown⟩
    · cases h.enabled.symm.trans hoff
    · cases hno
    · exact absurd hown h.owned
    · exact absurd hown h.owned
  | stop => exact ⟨rfl, rfl, h.trace.close rfl⟩
  | stopStall => cases hend
  | ended d es a k v sh sl n _ hrun => cases hrun
  | lost es l sl n _ hrun => cases hrun
  | stalled => cases hend

/-- A transaction that is closed already the forced Stop leaves alone (R86 step 2, R115). -/
theorem State.Closed.stop (h : s.Closed t₀) : (engine 0x4 s).Closed t₀ := by
  rw [engine_stop_idle h.released]
  exact { h with }

end

/-- Where a control word that ends with no error leaves the transaction. -/
def State.LeftBy (t₀ : List BusEvent) (c : Ctl) (s : State) : Prop :=
  if ctlStopBit c then s.Closed t₀ else s.Opened t₀

/-! ### The steps of a sequence (spec/42_sequencer.md R132, R133, R141) -/

/-- A unit that, if it ends with a result, ends in `D`, and with an error leaves the transaction closed. -/
def Run.Pairs {α : Type} (t₀ : List BusEvent) (D : State → Prop) : Run (Xfer α) → Prop
  | .done (.ok _) t => D t
  | .done (.err _) t => t.Closed t₀
  | .hang _ => True
  | .undef _ => True

section
variable {α β : Type} {t₀ : List BusEvent} {c : Ctl} {s : State} {D D' : State → Prop}

/-- A byte transfer that joins the transaction closes it if it fails, and if not, exactly with STOP. -/
theorem transfer_pairs {f : State → α} (hmfe : s.mfe = true) (hrun : ctlRunBit c = true)
    (hjoins : Joins t₀ c s) :
    (transfer engine c (fun t => .done (.ok (f t)) t) s).Pairs t₀ (State.LeftBy t₀ c) := by
  rw [transfer_eq]
  split
  · trivial
  split
  · trivial
  next hend =>
  have hengine := engine_opened_or_closed hmfe hrun hjoins (by simpa using hend)
  split
  next hflags =>
    obtain ⟨-, -, herror⟩ := (State.errors_eq_zero _).mp hflags
    rcases hengine with ⟨hopened, hstop⟩ | ⟨hclosed, hstop | hlost⟩
    · exact (if_neg (by simp [hstop])).mpr hopened
    · exact (if_pos hstop).mpr hclosed
    · cases herror.symm.trans hlost
  split
  · trivial
  next hforced =>
  rcases hengine with ⟨hopened, -⟩ | ⟨hclosed, -⟩
  · exact hopened.stop (by simpa using hforced)
  · exact hclosed.stop

theorem sendOp_pairs (d : Byte) (hmfe : s.mfe = true) (hrun : ctlRunBit c = true)
    (hjoins : Joins t₀ c s) :
    (sendOp engine d c s).Pairs t₀ (State.LeftBy t₀ c) :=
  transfer_pairs (f := fun _ => ()) (s := s.writeMdr (d.setWidth 32)) hmfe hrun
    (hjoins.writeMdr _)

theorem recvOp_pairs (hmfe : s.mfe = true) (hrun : ctlRunBit c = true) (hjoins : Joins t₀ c s) :
    (recvOp engine c s).Pairs t₀ (State.LeftBy t₀ c) :=
  transfer_pairs (f := fun t => (memRead .mdr t).setWidth 8) hmfe hrun hjoins

/-- A step of a sequence: an error, which has closed the transaction, ends it (R141). -/
theorem seqStep_pairs {m : Run (Xfer α)} {k : α → State → Run (Xfer β)} (hm : m.Pairs t₀ D)
    (hk : ∀ a t, D t → (k a t).Pairs t₀ D') : (seqStep m k).Pairs t₀ D' := by
  cases m with
  | done x t =>
    cases x with
    | ok a => exact hk a t hm
    | err f => exact { (show t.Closed t₀ from hm) with }
  | hang t => trivial
  | undef r => trivial

/-- READ_REG opens its transaction with the first control write and closes it with the third (R132). -/
theorem readRegOp_pairs (r : Byte) (hmfe : s.mfe = true) (hown : s.own = .idle) :
    (readRegOp engine r s).Pairs s.trace (State.Closed s.trace) := by
  refine seqStep_pairs (D := State.Opened s.trace)
    (sendOp_pairs r hmfe rfl (.begins hown rfl rfl)) fun _ t ht => ?_
  refine seqStep_pairs (D := State.Opened s.trace)
    (recvOp_pairs ht.enabled rfl (.continues ht.owned ht.trace)) fun _ t ht => ?_
  refine seqStep_pairs (D := State.Closed s.trace)
    (recvOp_pairs ht.enabled rfl (.continues ht.owned ht.trace)) fun _ t ht => ?_
  exact { ht with }

/-- WRITE_REG16 opens its transaction with the first control write and closes it with the third (R133). -/
theorem writeRegOp_pairs (r : Byte) (v : Half) (hmfe : s.mfe = true) (hown : s.own = .idle) :
    (writeRegOp engine r v s).Pairs s.trace (State.Closed s.trace) := by
  refine seqStep_pairs (D := State.Opened s.trace)
    (sendOp_pairs r hmfe rfl (.begins hown rfl rfl)) fun _ t ht => ?_
  refine seqStep_pairs (D := State.Opened s.trace)
    (sendOp_pairs _ ht.enabled rfl (.continues ht.owned ht.trace)) fun _ t ht => ?_
  refine seqStep_pairs (D := State.Closed s.trace)
    (sendOp_pairs _ ht.enabled rfl (.continues ht.owned ht.trace)) fun _ t ht => ?_
  exact { ht with }

/-- A sequence that the port accepted and answered has ended, with `SEQ` at Idle and its transaction
closed. -/
theorem command_closed {op : State → Run (Xfer α)} {response : Xfer α → Response} {t : State}
    (hexec : s.executing = false) (hmfe : s.mfe = true)
    (hpairs : (op s.accept).Pairs t₀ (State.Closed t₀))
    (hleaves : (op s.accept).Leaves (fun t => t.executing = true ∧ t.seq = .idle)
      (fun t => t.executing = true))
    (h : command busEnabled (fun s => (op s).bind fun x s => .done (response x) s) s = .next t)
    (hend : t.executing = false) : t.Closed t₀ ∧ t.seq = .idle := by
  rw [command_eq, if_neg (by simp [hexec]), if_pos (show busEnabled s = true from hmfe)] at h
  cases hrun : op s.accept with
  | done x u =>
    rw [hrun] at hpairs hleaves h
    cases h
    have hclosed : u.Closed t₀ := by cases x <;> exact hpairs
    exact ⟨{ hclosed with }, hleaves.2⟩
  | hang u =>
    rw [hrun] at hleaves h
    cases h
    cases hend.symm.trans hleaves
  | undef r =>
    rw [hrun] at h
    cases h

end

/-- Settles O46: both sequences close the one transaction that they open. -/
theorem stopPairing : Obligations.StopPairing := by
  intro i s t hi hready hown h hend
  obtain ⟨hexec, -, hmfe⟩ := (ready_iff s).mp hready
  have hkept := executing_keptBySequence
  suffices hclosed : t.Closed s.trace ∧ t.seq = .idle by
    obtain ⟨hclosed, hseq⟩ := hclosed
    exact ⟨hclosed.released, hclosed.ended, hseq, hclosed.trace⟩
  rcases hi with ⟨r, rfl⟩ | ⟨r, v, rfl⟩
  · exact command_closed hexec hmfe (readRegOp_pairs r (s := s.accept) hmfe hown)
      (readRegOp_leaves hkept (fun _ h => h) (fun _ _ h => h) (fun _ _ h => h) rfl) h hend
  · exact command_closed hexec hmfe (writeRegOp_pairs r v (s := s.accept) hmfe hown)
      (writeRegOp_leaves hkept (fun _ h => h) rfl) h hend

end Sys2Proof.Machine

/-! PROOFS. DECODE_TEMP (spec/42_sequencer.md R134 to R138, R144, R145): the rounding of the quotient by 80, the
signed field of a raw value, and the command. -/

namespace Sys2Proof.Machine

/-! ### Rounding to the nearest integer (R137, R138) -/

theorem roundHalfAway80_of_nonneg {n : Int} (h : 0 ≤ n) :
    80 * roundHalfAway80 n - 40 ≤ n ∧ n < 80 * roundHalfAway80 n + 40 := by
  rw [roundHalfAway80, if_pos h]
  omega

theorem roundHalfAway80_of_neg {n : Int} (h : n < 0) :
    80 * roundHalfAway80 n - 40 < n ∧ n ≤ 80 * roundHalfAway80 n + 40 := by
  rw [roundHalfAway80, if_neg (by omega)]
  omega

/-- The rounded quotient is a nearest integer, and where two are equally near, the one farther from zero. -/
theorem roundHalfAway80_nearest (n : Int) :
    |(roundHalfAway80 n : ℚ) - n / 80| ≤ 1 / 2 ∧
    (|(roundHalfAway80 n : ℚ) - n / 80| = 1 / 2 → |(n : ℚ) / 80| < |(roundHalfAway80 n : ℚ)|) := by
  generalize hq : roundHalfAway80 n = q
  rcases le_or_gt 0 n with h | h
  · obtain ⟨hlow, hhigh⟩ := roundHalfAway80_of_nonneg h
    rw [hq] at hlow hhigh
    have hn : (0 : ℚ) ≤ n := by exact_mod_cast h
    have hlow : 80 * (q : ℚ) - 40 ≤ n := by exact_mod_cast hlow
    have hhigh : (n : ℚ) < 80 * q + 40 := by exact_mod_cast hhigh
    refine ⟨abs_le.mpr ⟨by linarith, by linarith⟩, fun htie => ?_⟩
    rcases eq_or_eq_neg_of_abs_eq htie with htie | htie
    · rw [abs_of_nonneg (by linarith), abs_of_nonneg (by linarith)]
      linarith
    · linarith
  · obtain ⟨hlow, hhigh⟩ := roundHalfAway80_of_neg h
    rw [hq] at hlow hhigh
    have hn : (n : ℚ) < 0 := by exact_mod_cast h
    have hlow : 80 * (q : ℚ) - 40 < n := by exact_mod_cast hlow
    have hhigh : (n : ℚ) ≤ 80 * q + 40 := by exact_mod_cast hhigh
    refine ⟨abs_le.mpr ⟨by linarith, by linarith⟩, fun htie => ?_⟩
    rcases eq_or_eq_neg_of_abs_eq htie with htie | htie
    · linarith
    · rw [abs_of_neg (by linarith), abs_of_neg (by linarith)]
      linarith

/-- Settles O21: the exact value is the quotient that `fahrenheit` rounds. -/
theorem roundsHalfAwayFromZero : Obligations.RoundsHalfAwayFromZero := by
  intro m
  have hexact : (m : ℚ) / 16 * 9 / 5 + 32 = ((9 * m + 2560 : Int) : ℚ) / 80 := by
    push_cast
    ring
  rw [hexact]
  exact roundHalfAway80_nearest (9 * m + 2560)

/-! ### The signed field, and the range of the decode (R136, R138) -/

/-- A field of thirteen bits holds two's complement numbers from -4096 to 4095. -/
theorem sixteenths_range (raw : Half) : -4096 ≤ sixteenths raw ∧ sixteenths raw ≤ 4095 :=
  ⟨BitVec.le_toInt _, BitVec.toInt_le⟩

theorem fahrenheit_range {m : Int} (hlow : -4096 ≤ m) (hhigh : m ≤ 4095) :
    -429 ≤ fahrenheit m ∧ fahrenheit m ≤ 493 := by
  unfold fahrenheit roundHalfAway80
  split <;> omega

/-- Sixteen bits hold every Fahrenheit value. -/
theorem tempData_toInt (raw : Half) : (tempData raw).toInt = fahrenheit (sixteenths raw) := by
  obtain ⟨hlow, hhigh⟩ := sixteenths_range raw
  obtain ⟨hlow, hhigh⟩ := fahrenheit_range hlow hhigh
  exact BitVec.toInt_ofInt_eq_self (by decide) (by omega) (by omega)

/-- Settles O22: the field has thirteen bits, and the decode of its two ends bounds the others. -/
theorem decodeRange : Obligations.DecodeRange := by
  refine ⟨fun raw => ?_, by decide⟩
  obtain ⟨hlow, hhigh⟩ := sixteenths_range raw
  obtain ⟨hlow', hhigh'⟩ := fahrenheit_range hlow hhigh
  exact ⟨hlow, hhigh, hlow', hhigh', tempData_toInt raw⟩

/-- The sign bit weighs -4096, and the twelve bits below it are the magnitude. -/
theorem sixteenths_eq (raw : Half) :
    sixteenths raw = (raw.extractLsb' 0 12).toNat - if raw.getLsbD 12 then 4096 else 0 := by
  have happend : raw.extractLsb' 0 13 = raw.extractLsb' 12 1 ++ raw.extractLsb' 0 12 :=
    (BitVec.extractLsb'_append_extractLsb'_eq_extractLsb' (x := raw) (start₁ := 0) (len₁ := 12)
      (len₂ := 1) rfl).symm
  have hsign : raw.extractLsb' 12 1 = BitVec.ofBool (raw.getLsbD 12) := by
    ext i hi
    obtain rfl : i = 0 := by omega
    simp
  rw [sixteenths, happend, BitVec.toInt_append, hsign]
  cases raw.getLsbD 12 with
  | false => simp
  | true =>
    rw [if_pos rfl, if_neg (by decide), show (BitVec.ofBool true).toInt = -1 from rfl]
    ring

/-- The upper nibble and the lower byte make up the magnitude. -/
theorem magnitude_eq (raw : Half) : (raw.extractLsb' 0 12).toNat =
    (raw.extractLsb' 8 4).toNat * 256 + (raw.extractLsb' 0 8).toNat := by
  simp only [BitVec.extractLsb'_toNat, Nat.shiftRight_eq_div_pow]
  omega

/-- Settles O20: the sign bit of the field weighs 256 degrees. -/
theorem signAndMagnitude : Obligations.SignAndMagnitude := by
  refine ⟨fun raw => ⟨?_, ?_, tempData_toInt raw⟩, by decide⟩
  · rw [magnitude_eq]
    push_cast
    ring
  · rw [show (raw.extractLsb' 0 13).toInt = _ from sixteenths_eq raw]
    split
    · push_cast
      ring
    · rw [sub_zero, Int.cast_natCast]

/-- The decode reads the thirteen low bits alone. -/
theorem tempData_of_field {raw raw' : Half} (h : raw.extractLsb' 0 13 = raw'.extractLsb' 0 13) :
    tempData raw = tempData raw' := by
  rw [tempData, sixteenths, h]
  rfl

theorem extractLsb'_mask (raw : Half) : (raw &&& 0x1FFF).extractLsb' 0 13 = raw.extractLsb' 0 13 := by
  rw [BitVec.extractLsb'_and, show (0x1FFF : Half).extractLsb' 0 13 = BitVec.allOnes 13 from rfl,
    BitVec.and_allOnes]

theorem extractLsb'_flags_or (g : BitVec 3) (x : BitVec 13) :
    (g.setWidth 16 <<< 13 ||| x.setWidth 16).extractLsb' 0 13 = x := by
  rw [← BitVec.setWidth_append_eq_shiftLeft_setWidth_or, BitVec.setWidth_eq]
  exact BitVec.extractLsb'_append_eq_right

/-- Settles O23: the flags lie above the field, and thirteen bits hold every `m`. -/
theorem decodeOfEncodedTemperature : Obligations.DecodeOfEncodedTemperature := by
  intro m g hlow hhigh
  rw [tempData_toInt, sixteenths, extractLsb'_flags_or,
    BitVec.toInt_ofInt_eq_self (by decide) (by omega) (by omega)]

/-! ### The command (R134, R135) -/

/-- The fields of a response word with data (R68). -/
theorem okWord_fields (tf : BitVec 3) (d : Half) :
    (Response.ok tf d).word.extractLsb' 16 3 = tf ∧ (Response.ok tf d).word.extractLsb' 19 13 = 0 ∧
      (Response.ok tf d).word.extractLsb' 0 16 = d := by
  have hfield (k n : Nat) : ((Response.ok tf d).word.extractLsb' k n).toNat =
      (tf.toNat * 2 ^ 16 + d.toNat) / 2 ^ k % 2 ^ n := by
    rw [BitVec.extractLsb'_toNat, okWord_toNat, Nat.shiftRight_eq_div_pow]
  have hflags : tf.toNat < 2 ^ 3 := tf.isLt
  have hdata : d.toNat < 2 ^ 16 := d.isLt
  refine ⟨BitVec.eq_of_toNat_eq ?_, BitVec.eq_of_toNat_eq ?_, BitVec.eq_of_toNat_eq ?_⟩
  · rw [hfield]
    omega
  · rw [hfield]
    change _ = 0
    omega
  · rw [hfield]
    omega

theorem exec_decodeTemp (raw : Half) {s : State} (hexec : s.executing = false) :
    exec (.decodeTemp raw) s = .next { s with
      tflags := alertFlags raw, executing := false,
      rsp := (Response.ok (alertFlags raw) (tempData raw)).word, rspValid := true } := by
  rw [exec, execDecodeTemp]
  rw [command_eq, if_neg (by simp [hexec]), if_pos rfl]
  rfl

/-- Settles O19: the response is the word of the flags and the decode. -/
theorem decodeTempResult : Obligations.DecodeTempResult := by
  intro raw s hexec
  obtain ⟨hflags, hzero, hdata⟩ := okWord_fields (alertFlags raw) (tempData raw)
  refine ⟨_, exec_decodeTemp raw hexec, rfl, hflags, hzero, ?_, ?_⟩
  · exact (congrArg BitVec.toInt hdata).trans (tempData_toInt raw)
  · exact hdata.trans (tempData_of_field (extractLsb'_mask raw).symm)

end Sys2Proof.Machine

/-! PROOFS. READ_REG and WRITE_REG16 (spec/42_sequencer.md R132, R133, R139 to R141): whole when every byte is
answered, and collapsed by an error in any step. -/

namespace Sys2Proof.Machine

/-! ### A step of a sequence against a script (R123, R124) -/

/-- Between the control writes of a sequence: the engine is enabled and idle, the bus is owned as `o`
says, and the slave answers the waves `ws`. -/
structure State.OnScript (o : Own) (ws : List Wave) (s : State) : Prop where
  ended : s.busy = false
  enabled : s.mfe = true
  own : s.own = o
  slave : s.slave = .scripted ws

section
variable {c : Ctl} {s : State} {y : Wave} {ws : List Wave} (hidle : s.busy = false)
  (hmfe : s.mfe = true) (hrun : ctlRunBit c = true) (hopens : Opens c s (y :: ws))
  (hstop : stopProceeds c ws = true)

include hidle hmfe hrun hopens hstop

/-- SEND_BYTE's body, its byte acknowledged. -/
theorem sendOp_answered {d : Byte} (hdir : dataDirection c s = .tx) (hy : y.tx d = some .ack) :
    ∃ t, sendOp engine d c s = .done (.ok ()) t ∧
      t = State.afterByte c .tx 0 false false (openingEvents c s ++ [.txByte d false]) ws
        { s with mdrTx := d } := by
  have hdir' : dataDirection c { s with mdrTx := d } = .tx := hdir
  have hopens' : Opens c { s with mdrTx := d } (y :: ws) := by
    cases hopens with
    | continued hstart hown hslave => exact .continued hstart hown hslave
    | addressed w x hstart hslave hw hx => exact .addressed w x hstart hslave hw hx
  have hsent := engine_sends (s := { s with mdrTx := d }) (nack := false) hmfe hrun hopens'
    (by simp [hdir']) hy hstop
  rw [hdir'] at hsent
  refine ⟨_, ?_, hsent⟩
  rw [sendOp_eq, if_neg (by simp [hidle]), hsent, if_neg (by simp [State.afterByte]),
    if_pos (afterByte_errors_ok ..)]

/-- RECV_BYTE's body, with the byte it receives. -/
theorem recvOp_answered {v : Byte} (hdir : dataDirection c s = .rx) (hy : y.rx = some v) :
    ∃ t, recvOp engine c s = .done (.ok v) t ∧
      t = State.afterByte c .rx v false false (openingEvents c s ++ [.rxByte v (!ctlAckBit c)]) ws
        { s with mdrRx := v } := by
  have hreceived := engine_receives hmfe hrun hopens hdir hy hstop
  refine ⟨_, ?_, hreceived⟩
  rw [recvOp_eq, if_neg (by simp [hidle]), hreceived, if_neg (by simp [State.afterByte]),
    if_pos (afterByte_errors_ok ..)]
  rfl

end

theorem mergeDir_write (m : Byte) : mergeDir m false = m &&& 0xFE := by
  simp [mergeDir]

theorem mergeDir_read_write (m : Byte) : mergeDir (mergeDir m false) true = m ||| 0x01 := by
  revert m; decide

/-- A control word without STOP asks for no Stop. -/
theorem stopProceeds_of_not_stop {c : Ctl} (ws : List Wave) (hstop : ctlStopBit c = false) :
    stopProceeds c ws = true := by
  cases ws <;> simp [stopProceeds, hstop]

section
variable {s : State} {w x y z f : Wave} {ws : List Wave}

/-- Both sequences begin with the address for write and the register's number. -/
theorem sendOp_register {o : Own} (hs : s.OnScript o (w :: x :: y :: ws)) {r : Byte}
    (hw : w.proceeds = true) (hx : x.tx (mergeDir s.msa false) = some .ack) (hy : y.tx r = some .ack) :
    ∃ t, sendOp engine r 0x3 (dirOp false s) = .done (.ok ()) t ∧
      t = State.afterByte 0x3 .tx 0 false false
        [startEvent o, .txByte (mergeDir s.msa false) false, .txByte r false] ws
        { s with msa := mergeDir s.msa false, mdrTx := r } := by
  rw [dirOp_eq, ← hs.own]
  exact sendOp_answered (c := 0x3) (s := { s with msa := mergeDir s.msa false }) hs.ended hs.enabled rfl
    (.addressed w x rfl hs.slave hw hx) (stopProceeds_of_not_stop ws rfl)
    (dataDirection_of_start_write rfl (mergeDir_fields s.msa false).2) hy

/-! ### READ_REG with every byte answered (R132) -/

/-- The low byte. -/
theorem readRegLsb_answered {lo : Byte} (hs : s.OnScript .rx (y :: f :: ws)) (hy : y.rx = some lo)
    (hf : f.proceeds = true) :
    readRegLsb engine s = .done (.ok (regValue s.hi lo)) (State.afterByte 0x5 .rx lo false false
      [.rxByte lo true] (f :: ws) { s with mdrRx := lo, lo := lo, seq := .idle }) := by
  obtain ⟨t, hrecv, rfl⟩ := recvOp_answered (c := 0x5) hs.ended hs.enabled rfl
    (.continued rfl (by simp [hs.own]) hs.slave) (stopProceeds_of_proceeds 0x5 ws hf)
    (dataDirection_of_owned rfl hs.own) hy
  rw [readRegLsb, hrecv]
  rfl

/-- The change of direction and the high byte. -/
theorem recvOp_turned {hi : Byte} (hs : s.OnScript .tx (w :: x :: y :: ws)) (hw : w.proceeds = true)
    (hx : x.tx (mergeDir s.msa true) = some .ack) (hy : y.rx = some hi) :
    ∃ t, recvOp engine 0xB ((dirOp true (s.setSeq .addressWritten)).setSeq .directionSwitched) =
        .done (.ok hi) t ∧
      t = State.afterByte 0xB .rx hi false false
        [.repStart, .txByte (mergeDir s.msa true) false, .rxByte hi false] ws
        { s with msa := mergeDir s.msa true, mdrRx := hi, seq := .directionSwitched } := by
  have hopen : startEvent s.own = .repStart := if_neg (by simp [hs.own])
  rw [dirOp_eq, ← hopen]
  exact recvOp_answered (c := 0xB)
    (s := { s with msa := mergeDir s.msa true, seq := .directionSwitched }) hs.ended hs.enabled rfl
    (.addressed w x rfl hs.slave hw hx) (stopProceeds_of_not_stop ws rfl)
    (dataDirection_of_start_read rfl (mergeDir_fields s.msa true).2) hy

/-- READ_REG, whole. -/
theorem readRegOp_answered {o : Own} {r hi lo : Byte} {w₁ w₂ w₃ w₄ w₅ w₆ w₇ w₈ : Wave}
    (hs : s.OnScript o (w₁ :: w₂ :: w₃ :: w₄ :: w₅ :: w₆ :: w₇ :: w₈ :: ws)) (h₁ : w₁.proceeds = true)
    (h₂ : w₂.tx (s.msa &&& 0xFE) = some .ack) (h₃ : w₃.tx r = some .ack) (h₄ : w₄.proceeds = true)
    (h₅ : w₅.tx (s.msa ||| 0x01) = some .ack) (h₆ : w₆.rx = some hi) (h₇ : w₇.rx = some lo)
    (h₈ : w₈.proceeds = true) :
    readRegOp engine r s = .done (.ok (regValue hi lo)) (State.afterByte 0x5 .rx lo false false
      [startEvent o, .txByte (s.msa &&& 0xFE) false, .txByte r false, .repStart,
        .txByte (s.msa ||| 0x01) false, .rxByte hi false, .rxByte lo true] (w₈ :: ws)
      { s with msa := s.msa ||| 0x01, mdrTx := r, mdrRx := lo, rega := r, hi := hi, lo := lo,
               seq := .idle }) := by
  rw [← mergeDir_write] at h₂ ⊢
  rw [← mergeDir_read_write] at h₅ ⊢
  obtain ⟨t, hsend, ht⟩ := sendOp_register (s := { s with rega := r }) { hs with } h₁ h₂ h₃
  have hregister : t.OnScript .tx (w₄ :: w₅ :: w₆ :: w₇ :: w₈ :: ws) := by
    rw [ht]
    exact ⟨rfl, hs.enabled, rfl, rfl⟩
  obtain ⟨u, hrecv, hu⟩ := recvOp_turned hregister h₄ (by rwa [ht]) h₆
  have hturned : State.OnScript .rx (w₇ :: w₈ :: ws) { u.setSeq .msbReceived with hi := hi } := by
    rw [hu]
    exact ⟨rfl, hregister.enabled, rfl, rfl⟩
  rw [readRegOp, hsend, seqStep_ok, readRegMsb, hrecv, seqStep_ok, readRegLsb_answered hturned h₇ h₈,
    hu, ht]
  simp [State.afterByte, ctlStopBit]

/-! ### WRITE_REG16 with every byte answered (R133) -/

/-- The low byte of the value. -/
theorem writeRegLsb_answered (hs : s.OnScript .tx (y :: f :: ws)) (hy : y.tx (loByte s.val) = some .ack)
    (hf : f.proceeds = true) :
    writeRegLsb engine s = .done (.ok ()) (State.afterByte 0x5 .tx 0 false false
      [.txByte (loByte s.val) false] (f :: ws) { s with mdrTx := loByte s.val, seq := .idle }) := by
  obtain ⟨t, hsend, rfl⟩ := sendOp_answered (c := 0x5) (s := s.setSeq .wMsbSent) hs.ended hs.enabled rfl
    (.continued rfl (by simp [hs.own]) hs.slave) (stopProceeds_of_proceeds 0x5 ws hf)
    (dataDirection_of_owned rfl hs.own) hy
  rw [writeRegLsb, hsend]
  rfl

/-- The two bytes of the value. -/
theorem writeRegMsb_answered (hs : s.OnScript .tx (x :: y :: f :: ws))
    (hx : x.tx (hiByte s.val) = some .ack) (hy : y.tx (loByte s.val) = some .ack)
    (hf : f.proceeds = true) :
    writeRegMsb engine s = .done (.ok ()) (State.afterByte 0x5 .tx 0 false false
      [.txByte (hiByte s.val) false, .txByte (loByte s.val) false] (f :: ws)
      { s with mdrTx := loByte s.val, seq := .idle }) := by
  obtain ⟨t, hsend, ht⟩ := sendOp_answered (c := 0x1) (s := s.setSeq .wAddressWritten) hs.ended
    hs.enabled rfl (.continued rfl (by simp [hs.own]) hs.slave)
    (stopProceeds_of_not_stop (y :: f :: ws) rfl) (dataDirection_of_owned rfl hs.own) hx
  have hmsb : t.OnScript .tx (y :: f :: ws) := by
    rw [ht]
    exact ⟨rfl, hs.enabled, rfl, rfl⟩
  have hval : t.val = s.val := by
    rw [ht]
    rfl
  rw [writeRegMsb, hsend, seqStep_ok, writeRegLsb_answered hmsb (by rwa [hval]) hf, hval, ht,
    openingEvents_of_not_start rfl]
  simp [State.afterByte, ctlStopBit]

/-- WRITE_REG16, whole. -/
theorem writeRegOp_answered {o : Own} {r : Byte} {v : Half} {w₁ w₂ w₃ w₄ w₅ w₆ : Wave}
    (hs : s.OnScript o (w₁ :: w₂ :: w₃ :: w₄ :: w₅ :: w₆ :: ws)) (h₁ : w₁.proceeds = true)
    (h₂ : w₂.tx (s.msa &&& 0xFE) = some .ack) (h₃ : w₃.tx r = some .ack)
    (h₄ : w₄.tx (hiByte v) = some .ack) (h₅ : w₅.tx (loByte v) = some .ack) (h₆ : w₆.proceeds = true) :
    writeRegOp engine r v s = .done (.ok ()) (State.afterByte 0x5 .tx 0 false false
      [startEvent o, .txByte (s.msa &&& 0xFE) false, .txByte r false, .txByte (hiByte v) false,
        .txByte (loByte v) false] (w₆ :: ws)
      { s with msa := s.msa &&& 0xFE, mdrTx := loByte v, rega := r, val := v, seq := .idle }) := by
  rw [← mergeDir_write] at h₂ ⊢
  obtain ⟨t, hsend, ht⟩ := sendOp_register (s := { s with rega := r, val := v }) { hs with } h₁ h₂ h₃
  have hregister : t.OnScript .tx (w₄ :: w₅ :: w₆ :: ws) := by
    rw [ht]
    exact ⟨rfl, hs.enabled, rfl, rfl⟩
  have hval : t.val = v := by
    rw [ht]
    rfl
  rw [writeRegOp, hsend, seqStep_ok, writeRegMsb_answered hregister (by rwa [hval]) (by rwa [hval]) h₆,
    hval, ht]
  simp [State.afterByte, ctlStopBit]

end

/-! ### The two commands -/

section
variable {s t : State} (hready : s.ready = true)

include hready

/-- A sequence that ends, with a value or with an error, ends its command with the response of that. -/
theorem exec_readReg_done {r : Byte} {a : Xfer Half} (hrun : readRegOp engine r s.accept = .done a t) :
    exec (.readReg r) s = .next (t.respond a.dataResponse) := by
  obtain ⟨hexec, -, hmfe⟩ := (ready_iff s).mp hready
  rw [exec, execReadReg]
  exact command_done hexec hmfe (by rw [hrun]; rfl)

theorem exec_writeReg16_done {r : Byte} {v : Half} {a : Xfer Unit}
    (hrun : writeRegOp engine r v s.accept = .done a t) :
    exec (.writeReg16 r v) s = .next (t.respond a.response) := by
  obtain ⟨hexec, -, hmfe⟩ := (ready_iff s).mp hready
  rw [exec, execWriteReg16]
  exact command_done hexec hmfe (by rw [hrun]; rfl)

end

theorem regValue_eq_append (hi lo : Byte) : regValue hi lo = hi ++ lo := by
  rw [regValue, ← BitVec.setWidth_append_eq_shiftLeft_setWidth_or, BitVec.setWidth_eq]

/-- The answer of READ_REG is the register's two bytes (R46, R68). -/
theorem okWord_regValue (hi lo : Byte) :
    (Response.ok 0 (regValue hi lo)).word = hi.setWidth 32 <<< 8 ||| lo.setWidth 32 := by
  rw [Response.word, regValue_eq_append, BitVec.setWidth_append_eq_shiftLeft_setWidth_or]
  simp

/-- Settles O43: the three control writes answered, and the value of the two bytes. -/
theorem readRegResult : Obligations.ReadRegResult := by
  intro r hi lo s w₁ w₂ w₃ w₄ w₅ w₆ w₇ w₈ ws hready hslave h₁ h₂ h₃ h₄ h₅ h₆ h₇ h₈
  obtain ⟨-, hidle, hmfe⟩ := (ready_iff s).mp hready
  have hs : s.accept.OnScript s.own (w₁ :: w₂ :: w₃ :: w₄ :: w₅ :: w₆ :: w₇ :: w₈ :: ws) :=
    ⟨hidle, hmfe, rfl, hslave⟩
  rw [exec_readReg_done hready (readRegOp_answered hs h₁ h₂ h₃ h₄ h₅ h₆ h₇ h₈), Xfer.dataResponse,
    State.respond, okWord_regValue]
  simp [State.afterByte, State.accept, ctlStopBit, hidle]

/-- Settles O44: the three control writes answered. -/
theorem writeReg16Result : Obligations.WriteReg16Result := by
  intro r v s w₁ w₂ w₃ w₄ w₅ w₆ ws hready hslave h₁ h₂ h₃ h₄ h₅ h₆
  obtain ⟨-, hidle, hmfe⟩ := (ready_iff s).mp hready
  have hs : s.accept.OnScript s.own (w₁ :: w₂ :: w₃ :: w₄ :: w₅ :: w₆ :: ws) :=
    ⟨hidle, hmfe, rfl, hslave⟩
  rw [exec_writeReg16_done hready (writeRegOp_answered hs h₁ h₂ h₃ h₄ h₅ h₆), Xfer.response,
    State.respond, show (Response.ok 0 0).word = 0 from rfl]
  simp [State.afterByte, State.accept, ctlStopBit, hidle, hiByte, loByte]

/-! ### An error in a step, over any engine (R141) -/

section
variable (eng : Engine) (s : State)

theorem readRegOp_eq (r : Byte) :
    readRegOp eng r s = seqStep (sendOp eng r 0x3 { s with rega := r, msa := mergeDir s.msa false })
      fun _ t => readRegMsb eng t := by
  rw [readRegOp, dirOp_eq]

theorem readRegMsb_eq :
    readRegMsb eng s =
      seqStep (recvOp eng 0xB { s with msa := mergeDir s.msa true, seq := .directionSwitched })
        fun b t => readRegLsb eng { t with hi := b, seq := .msbReceived } := by
  rw [readRegMsb, dirOp_eq]
  rfl

theorem writeRegOp_eq (r : Byte) (v : Half) :
    writeRegOp eng r v s =
      seqStep (sendOp eng r 0x3 { s with rega := r, val := v, msa := mergeDir s.msa false })
        fun _ t => writeRegMsb eng t := by
  rw [writeRegOp, dirOp_eq]

theorem writeRegMsb_eq :
    writeRegMsb eng s = seqStep (sendOp eng (hiByte s.val) 0x1 { s with seq := .wAddressWritten })
      fun _ t => writeRegLsb eng t := rfl

end

/-- Settles O45: each step before ended Ok, and `seqStep` passes the error on. -/
theorem errorCollapse : Obligations.ErrorCollapse := by
  intro eng r v f s t u x
  dsimp only
  refine ⟨fun haddr => ?_, fun haddr hmsb => ?_, fun b haddr hmsb hlsb => ?_, fun haddr => ?_,
    fun haddr hmsb => ?_, fun haddr hmsb hlsb => ?_, fun hready hrun => exec_readReg_done hready hrun,
    fun hready hrun => exec_writeReg16_done hready hrun⟩
  · rw [readRegOp_eq, haddr]
    rfl
  · rw [readRegOp_eq, haddr, seqStep_ok, readRegMsb_eq, hmsb]
    rfl
  · rw [readRegOp_eq, haddr, seqStep_ok, readRegMsb_eq, hmsb, seqStep_ok, readRegLsb, hlsb]
    rfl
  · rw [writeRegOp_eq, haddr]
    rfl
  · rw [writeRegOp_eq, haddr, seqStep_ok, writeRegMsb_eq, hmsb]
    rfl
  · rw [writeRegOp_eq, haddr, seqStep_ok, writeRegMsb_eq, hmsb, seqStep_ok]
    exact congrArg (seqStep · _) hlsb

end Sys2Proof.Machine

/-! PROOFS. Taking a BusError, and hanging (spec/60_exceptions.md R154, R160): what a byte command that failed
leaves, and what becomes of a command whose engine operation never ends. -/

namespace Sys2Proof.Machine

/-! ### What a control write leaves in single registers -/

/-- Every control write latches `CTL` (R86). -/
theorem engine_ctl (c : Ctl) (s : State) : (engine c s).ctl = c := by
  have hout := engine_outcome c s
  generalize engine c s = t at hout
  cases hout with
  | nothing => rfl
  | stop => rfl
  | stopStall => rfl
  | ended => rfl
  | lost => rfl
  | stalled => rfl

theorem engine_msa (c : Ctl) (s : State) : (engine c s).msa = s.msa := by
  have h : engine c s = _ := engine_frame c s
  rw [h]

theorem engine_mdrTx (c : Ctl) (s : State) : (engine c s).mdrTx = s.mdrTx := by
  have h : engine c s = _ := engine_frame c s
  rw [h]

/-- A byte that is received is not refused, so a byte that is was sent, and left `MDR_RX` alone (R88, R89). -/
theorem DataByte.mdrRx_of_nack {c : Ctl} {s : State} {d : Own} {e : BusEvent} {v : Byte}
    (h : DataByte c s d e true v) : v = s.mdrRx := by
  cases h
  rfl

theorem ByteEnd.mdrRx_of_nack {c : Ctl} {s : State} {d : Own} {es : List BusEvent} {a k : Bool} {v : Byte}
    (h : ByteEnd c s d es a k v) (hnack : a = true ∨ k = true) : v = s.mdrRx := by
  cases h with
  | addressNack => rfl
  | data e k v hdata =>
    cases hnack.resolve_left Bool.false_ne_true
    exact hdata.mdrRx_of_nack

/-- An operation that runs no byte, or fails, leaves `MDR_RX` alone (R24, R158). -/
theorem engine_mdrRx_of_failed {c : Ctl} {s : State} (hend : (engine c s).busy = false)
    (hfailed : ctlRunBit c = false ∨ (engine c s).errors ≠ 0) : (engine c s).mdrRx = s.mdrRx := by
  have hout := engine_outcome c s
  generalize engine c s = t at hout hend hfailed
  cases hout with
  | nothing => rfl
  | stop => rfl
  | stopStall => rfl
  | ended d es a k v sh sl n _ hrun _ hbyte _ =>
    have hflags := hfailed.resolve_left (by simp [hrun])
    refine hbyte.mdrRx_of_nack ?_
    by_contra hacked
    obtain ⟨rfl, rfl⟩ : a = false ∧ k = false := by simpa using hacked
    exact hflags ((State.errors_eq_zero _).mpr ⟨rfl, rfl, rfl⟩)
  | lost => rfl
  | stalled => cases hend

/-- An operation that runs a byte does not read the flags: it clears them (R20, R86 step 5). -/
theorem engine_clears_flags {c : Ctl} {s : State} (hmfe : s.mfe = true) (hrun : ctlRunBit c = true)
    (hopen : ctlStartBit c = true ∨ s.own ≠ .idle) (e a k : Bool) :
    engine c { s with error := e, adrack := a, datack := k } = engine c s := by
  unfold engine
  rw [engineWith_byte _ _ s hmfe hrun hopen]
  exact engineWith_byte _ _ _ hmfe hrun hopen

/-! ### The byte-level abort (R154) -/

/-- An error test that finds a flag set takes the BusError (R126, R154). -/
theorem errorTest_failed (eng : Engine) {α : Type} (k : State → Run (Xfer α)) {s : State}
    (hflags : s.errors ≠ 0) : errorTest eng k s = raiseBusError eng s.errors s := by
  simp only [errorTest, memRead_mcs, statusErrors_statusWord]
  exact if_neg hflags

/-- What the failed operation and the forced Stop together leave: the bus released, the flags of the failed
operation, and the registers of the transfer as they were (R154). -/
theorem engine_abort {c : Ctl} {u : State} (hmfe : u.mfe = true) (hended : (engine c u).busy = false)
    (hfailed : (engine c u).errors ≠ 0) (hstopped : (engine 0x4 (engine c u)).busy = false) :
    (engine 0x4 (engine c u)).own = .idle ∧
    (engine 0x4 (engine c u)).errors = (engine c u).errors ∧
    (engine 0x4 (engine c u)).mdrTx = u.mdrTx ∧
    (engine 0x4 (engine c u)).mdrRx = u.mdrRx ∧
    (engine 0x4 (engine c u)).msa = u.msa := by
  refine ⟨engine_own_of_stop ((engine_mfe c u).trans hmfe) rfl hstopped,
    errors_engine_of_not_run rfl _, ?_, ?_, ?_⟩
  · rw [engine_mdrTx, engine_mdrTx]
  · rw [engine_mdrRx_of_failed hstopped (.inl rfl), engine_mdrRx_of_failed hended (.inr hfailed)]
  · rw [engine_msa, engine_msa]

/-- A byte command that ended with a flag set ended with its forced Stop and the flags of before it. -/
theorem byteCommandEnd_failed {ok : State → Response} {c : Ctl} {u t : State}
    (ht : byteCommandEnd ok c u = t) (hexec : u.executing = true) (hend : t.executing = false)
    (hflags : t.errors ≠ 0) : (engine c u).busy = false ∧ (engine c u).errors ≠ 0 ∧
      (engine 0x4 (engine c u)).busy = false ∧
      t = (engine 0x4 (engine c u)).respond (.err (engine c u).errors) := by
  subst ht
  unfold byteCommandEnd at hend hflags ⊢
  dsimp only at hend hflags ⊢
  split_ifs at hend hflags ⊢ with hbusy hok hstop
  · rw [engine_executing, hexec] at hend
    cases hend
  · exact absurd hok hflags
  · rw [engine_executing, engine_executing, hexec] at hend
    cases hend
  · exact ⟨by simpa using hbusy, hok, by simpa using hstop, rfl⟩

/-- With no operation and no transaction the block holds neither line (R37). -/
theorem lines_released_of_linesOk {s : State} (h : linesOk s = true) (hidle : s.busy = false)
    (hown : s.own = .idle) : s.line.sclO = true ∧ s.line.sdaO = true := by
  simpa [linesOk, hidle, hown, and_comm] using h

/-- Settles O48: the failed operation is followed by its forced Stop, which keeps the flags and releases the
bus; the invariant, which every instruction keeps, says how the lines then stand. -/
theorem byteLevelAbort : Obligations.ByteLevelAbort := by
  refine ⟨fun eng k s hidle hflags => ?_, fun i c m s t hi hinv hready h hend herr => ?_,
    fun c e a k s hmfe hrun hopen => engine_clears_flags hmfe hrun hopen e a k⟩
  · rw [errorTest_failed eng k hflags, raiseBusError_eq, if_neg (by simp [hidle])]
  · obtain ⟨-, -, hmfe⟩ := (ready_iff s).mp hready
    have hbus : isBusCommand i = true := by rcases hi with rfl | ⟨rfl, -⟩ <;> rfl
    obtain ⟨hrsp, hflags, -⟩ := busCommand_error hready hbus h hend herr
    obtain ⟨heng, -⟩ := t.inv_iff.mp (hinv.exec h)
    obtain ⟨ok, hexec⟩ := exec_byteCommand hready hi
    have hcommand : byteCommandEnd ok c (s.sending m) = t := by
      injection hexec.symm.trans h
    obtain ⟨hended, hfailed, hstopped, ht⟩ := byteCommandEnd_failed hcommand rfl hend hflags
    have hword : t.rsp.extractLsb' 24 3 = t.errors := by
      rw [hrsp]
      exact (errWord_fields t.errors).1
    have hlines := lines_released_of_linesOk heng.lines
    subst ht
    obtain ⟨hown, hkept, hmdrTx, hmdrRx, hmsa⟩ :=
      engine_abort (u := s.sending m) hmfe hended hfailed hstopped
    obtain ⟨hscl, hsda⟩ := hlines hstopped hown
    exact ⟨hown, hscl, hsda, hstopped, hword, hflags, hkept, hmdrTx, hmdrRx, hmsa, engine_ctl _ _⟩

/-! ### A command that hangs is not answered (R160) -/

/-- Between the control writes of a command. -/
structure State.Transferring (s : State) : Prop where
  ended : s.busy = false
  executing : s.executing = true
  noResponse : s.rspValid = false

/-- If an operation of the engine still goes on, a command waits for it. -/
def State.Unanswered (s : State) : Prop := s.busy = true → s.executing = true ∧ s.rspValid = false

theorem State.unanswered_of_idle {s : State} (hidle : s.busy = false) : s.Unanswered :=
  fun hbusy => by cases hidle.symm.trans hbusy

theorem transferring_keptBySequence :
    KeptBySequence engine State.Transferring State.Unanswered where
  ended c s hs _ hend :=
    ⟨hend, (engine_executing c s).trans hs.executing, (engine_rspValid c s).trans hs.noResponse⟩
  stalled c s hs _ _ _ :=
    ⟨(engine_executing c s).trans hs.executing, (engine_rspValid c s).trans hs.noResponse⟩
  writeMdr _ _ hs := { hs with }
  setSeq _ _ hs := { hs with }
  dirOp _ _ hs := { hs with }

theorem command_unanswered {ok : State → Bool} {body : State → Run Response} {s t : State}
    (hidle : s.busy = false) (h : command ok body s = .next t)
    (hbody : s.accept.Transferring → (body s.accept).Leaves State.Transferring State.Unanswered) :
    t.Unanswered :=
  command_keeps h (State.unanswered_of_idle hidle) (fun _ => State.unanswered_of_idle hidle)
    fun _ _ => (hbody ⟨hidle, rfl, rfl⟩).mono fun _ hu _ => State.unanswered_of_idle hu.ended

theorem busCommand_unanswered {i : Instr} {s t : State} (hbus : isBusCommand i = true)
    (hidle : s.busy = false) (h : exec i s = .next t) : t.Unanswered := by
  have hkept := transferring_keptBySequence
  cases i with
  | sendByte d c =>
    rw [exec, execSendByte] at h
    exact command_unanswered hidle h fun hs =>
      (sendOp_leaves hkept.toKeptByEngine hkept.writeMdr d c hs).bind fun _ _ ht => ht
  | recvByte c =>
    rw [exec, execRecvByte] at h
    exact command_unanswered hidle h fun hs =>
      (recvOp_leaves hkept.toKeptByEngine c hs).bind fun _ _ ht => ht
  | readReg r =>
    rw [exec, execReadReg] at h
    exact command_unanswered hidle h fun hs => (readRegOp_leaves hkept (fun _ hs => { hs with })
      (fun _ _ hs => { hs with }) (fun _ _ hs => { hs with }) hs).bind fun _ _ ht => ht.1
  | writeReg16 r v =>
    rw [exec, execWriteReg16] at h
    exact command_unanswered hidle h fun hs =>
      (writeRegOp_leaves hkept (fun _ hs => { hs with }) hs).bind fun _ _ ht => ht.1
  | _ => cases hbus

/-- No command word does anything while `EXEC = 1`: it is no command, or one that the port does not take
(R14, R177). -/
theorem step_command_executing {s : State} (hexec : s.executing = true) (w : Word)
    (rest : List PortInput) :
    step { s with inputs := .word (.command w) :: rest } = .next { s with inputs := rest } := by
  cases hdec : decodeCommand w with
  | ok i =>
    obtain ⟨-, hcommand, -⟩ := encode_of_decodeCommand hdec
    rw [stepRunsDecodedInstruction _ (.command w) i rest rfl hdec]
    exact noCommandWhileExecuting i _ hcommand hexec
  | error e =>
    rw [stepOnIllegalWord _ w e rest rfl hdec]
    exact congrArg _ (if_pos hexec)

/-! ### A slave that never lets SCL rise (R114, R160) -/

/-- A command that hangs in `s`, with `es` on the bus. -/
structure State.HungWith (es : List BusEvent) (s : State) : Prop where
  stalled : s.busy = true
  executing : s.executing = true
  trace : s.trace = es

/-- A command that the port accepts and that hangs leaves the state it hangs in (R160). -/
theorem command_hang {ok : State → Bool} {body : State → Run Response} {s t : State}
    (hexec : s.executing = false) (hok : ok s = true) (hbody : body s.accept = .hang t) :
    command ok body s = .next t := by
  rw [command_eq, if_neg (by simp [hexec]), if_pos hok, hbody, Run.respond_hang]

theorem byteCommandEnd_hang {ok : State → Response} {c : Ctl} {u : State}
    (hbusy : (engine c u).busy = true) : byteCommandEnd ok c u = engine c u := if_pos hbusy

section
variable {c : Ctl} {s : State} {w : Wave} {ws : List Wave} (hslave : s.slave = .scripted (w :: ws))
  (hw : w.proceeds = false)

include hslave hw

/-- Both conditions wait for SCL before they are on the bus (R109, R110). -/
theorem start_stalls :
    ∃ l, (if s.own = .idle then lineSymbols.start s else lineSymbols.repStart s) =
      .stall { s with line := l, slave := .scripted ws } := by
  split
  · rw [lineSymbols_start, State.wave_scripted _ hslave, if_neg (by simp [hw]), symbolStall,
      State.asked_scripted _ hslave]
    exact ⟨_, rfl⟩
  · rw [lineSymbols_repStart, State.wave_scripted _ hslave, if_neg (by simp [hw]), symbolStall,
      State.asked_scripted _ hslave]
    exact ⟨_, rfl⟩

theorem engine_hangs_at_start (hmfe : s.mfe = true) (hexec : s.executing = true)
    (hrun : ctlRunBit c = true) (hstart : ctlStartBit c = true) :
    (engine c s).HungWith s.trace := by
  obtain ⟨l, hstall⟩ := start_stalls (s := ({ s with ctl := c } : State).startByteOp) hslave hw
  rw [engine, engineWith_byte _ _ _ hmfe hrun (.inl hstart), byteOperation, if_pos hstart,
    addressPhase, hstall]
  exact ⟨rfl, hexec, rfl⟩

/-- The address step of both sequences (R132, R133). -/
theorem sendOp_hangs_at_start (d : Byte) (hidle : s.busy = false) (hmfe : s.mfe = true)
    (hexec : s.executing = true) (hrun : ctlRunBit c = true) (hstart : ctlStartBit c = true) :
    ∃ t, sendOp engine d c s = .hang t ∧ t.HungWith s.trace := by
  have hhung := engine_hangs_at_start (s := { s with mdrTx := d }) hslave hw hmfe hexec hrun hstart
  rw [sendOp_eq, if_neg (by simp [hidle]), if_pos hhung.stalled]
  exact ⟨_, rfl, hhung⟩

end

/-- Settles O49: a command that hangs is neither answered nor disturbed; and the first control write of the
commands named has START and RUN, so that it hangs in the Start that the slave holds up. -/
theorem hang : Obligations.Hang := by
  refine ⟨fun i s t rest hready hbus h hbusy => ?_,
    fun i s w ws hready hi hslave hw => ?_⟩
  · obtain ⟨-, hidle, -⟩ := (ready_iff s).mp hready
    obtain ⟨hexec, hvalid⟩ := busCommand_unanswered hbus hidle h hbusy
    exact ⟨hexec, by simp [State.cmdReady, hexec], hvalid, rfl,
      fun w => step_command_executing hexec w rest, _, rfl, rfl, rfl, rfl⟩
  · obtain ⟨hexec, hidle, hmfe⟩ := (ready_iff s).mp hready
    suffices hhangs : ∃ t, exec i s = .next t ∧ t.HungWith s.trace by
      obtain ⟨t, hnext, hhung⟩ := hhangs
      exact ⟨t, hnext, hhung.stalled, hhung.executing, hhung.trace⟩
    rcases hi with ⟨r, rfl⟩ | ⟨r, v, rfl⟩ | ⟨c, hrun, hstart, hi⟩
    · obtain ⟨t, hsend, hhung⟩ := sendOp_hangs_at_start (c := 0x3)
        (s := dirOp false { s.accept with rega := r }) hslave hw r hidle hmfe rfl rfl rfl
      have hop : readRegOp engine r s.accept = .hang t := by rw [readRegOp, hsend, seqStep_hang]
      rw [exec, execReadReg]
      exact ⟨t, command_hang hexec hmfe (by rw [hop, Run.bind_hang]), hhung⟩
    · obtain ⟨t, hsend, hhung⟩ := sendOp_hangs_at_start (c := 0x3)
        (s := dirOp false { s.accept with rega := r, val := v }) hslave hw r hidle hmfe rfl rfl rfl
      have hop : writeRegOp engine r v s.accept = .hang t := by rw [writeRegOp, hsend, seqStep_hang]
      rw [exec, execWriteReg16]
      exact ⟨t, command_hang hexec hmfe (by rw [hop, Run.bind_hang]), hhung⟩
    · have hmdr : ∃ m, i = .sendByte m c ∨ (i = .recvByte c ∧ m = s.mdrTx) := by
        rcases hi with rfl | ⟨d, rfl⟩
        · exact ⟨_, .inr ⟨rfl, rfl⟩⟩
        · exact ⟨d, .inl rfl⟩
      obtain ⟨m, hi⟩ := hmdr
      obtain ⟨ok, hnext⟩ := exec_byteCommand hready hi
      have hhung := engine_hangs_at_start (s := s.sending m) hslave hw hmfe rfl hrun hstart
      rw [byteCommandEnd_hang hhung.stalled] at hnext
      exact ⟨_, hnext, hhung⟩

end Sys2Proof.Machine

/-! PROOFS. Reset (spec/70_reset_and_hazards.md R167 to R169): what a sampled `rst` does, the values it
leaves in the registers, and that they meet the invariant of the block. -/

namespace Sys2Proof.Machine

/-- `rst` is looked at before anything else of the block: neither a command that executes nor a hang
stops it (R167). -/
theorem step_rst {s : State} {rest : List PortInput} (hin : s.inputs = .rst :: rest) :
    step s = .next (s.resetBlock rest) := by
  rw [step, serve, hin]

/-- Resetting the block as reset left it changes nothing. -/
theorem State.resetBlock_reset : State.reset.resetBlock [] = State.reset := rfl

/-- Settles O10: the state is `resetBlock`'s, which takes only the environment from the state before. -/
theorem resetFromAnyState : Obligations.ResetFromAnyState :=
  fun _ _ hin => step_rst hin

/-- Settles O11, by the value of each field. -/
theorem resetValues : Obligations.ResetValues := by
  unfold Obligations.ResetValues
  decide

/-- Settles O51: what `resetBlock` leaves meets the invariant, and the reset state is of that form. -/
theorem resetMeetsInvariant : Obligations.ResetMeetsInvariant := by
  rw [Obligations.ResetMeetsInvariant, ← State.resetBlock_reset]
  exact State.Inv.resetBlock [] State.reset

end Sys2Proof.Machine
